-- ==== Sys2Proof/Word.lean ====
section
/-! DEFINITION. The widths the spec gives its values (R14): a register is 64 bits, a command word 16,
a byte 8, a delay is a u32 count of microseconds, and the history indices are 16 bits. -/

namespace Sys2Proof

/-- A host-visible register (R21: "All are 64 bits wide"), a history sample, a DeviceRom. -/
abbrev Word := BitVec 64

/-- A command word (R70: "Every command is one 16-bit command word"). -/
abbrev CmdWord := BitVec 16

/-- A byte of the one-wire bus, an IMM field, a family code or a command byte. -/
abbrev Byte := BitVec 8

/-- A count of microseconds (R12, R43: "`delay_microseconds(n: u32)`"). -/
abbrev Micros := BitVec 32

/-- CURSOR, FILL and HIST_N (R39, R40, R8). -/
abbrev HistIndex := BitVec 16

end Sys2Proof
end

