-- ==== Sys2Proof/Config.lean ====
section
/-! DEFINITION. What a build of the OWTM fixes (00_scope.md R8 to R13) and the values the spec leaves
free. The parameters are one structure, held in `State`, so that every claim ranges over every
build (the spec: "A model takes it as an argument"). The free values are constants with no body. -/

namespace Sys2Proof

/-- The build-time parameters, 00_scope.md R8 to R12. -/
structure Params where
  /-- `HIST_N`, R8. -/
  histN : HistIndex
  /-- `MAX_TEMPERATURE`, a binary64 encoding, R9. -/
  maxTemp : Word
  /-- `FAMILY_CODE`, R10. -/
  familyCode : Byte
  /-- `CMD_READ_ROM`, R11. -/
  cmdReadRom : Byte
  /-- `CMD_READ_POWER`, R11. -/
  cmdReadPower : Byte
  /-- `T_RSTL`, R12: time the line is driven low by a reset pulse. -/
  tRstl : Micros
  /-- `T_MSP`, R12: time from release to the presence sample. -/
  tMsp : Micros
  /-- `T_PRES_POLL`, R12: interval between presence-release polls. -/
  tPresPoll : Micros
  /-- `N_PRES_POLL`, R12: number of presence-release polls, a count. -/
  nPresPoll : BitVec 32
  /-- `T_RSTREC`, R12: wait after the presence pulse has been seen released. -/
  tRstrec : Micros
  /-- `T_SLOT`, R12: slot duration without recovery. -/
  tSlot : Micros
  /-- `T_LOW1`, R12: write-1 low-pulse width. -/
  tLow1 : Micros
  /-- `T_LOW0`, R12: write-0 low-pulse width. -/
  tLow0 : Micros
  /-- `T_RDL`, R12: read-slot low-pulse width. -/
  tRdl : Micros
  /-- `T_RDS`, R12: read-slot sample offset, measured from the release. -/
  tRds : Micros
  /-- `T_REC`, R12: inter-slot recovery time. -/
  tRec : Micros
deriving DecidableEq, Repr

/-- The default build, the values of R8 to R12. -/
def Params.default : Params where
  histN := 10#16
  maxTemp := 0x404E000000000000#64
  familyCode := 0x28#8
  cmdReadRom := 0x33#8
  cmdReadPower := 0xB4#8
  tRstl := 480#32
  tMsp := 70#32
  tPresPoll := 10#32
  nPresPoll := 24#32
  tRstrec := 400#32
  tSlot := 65#32
  tLow1 := 6#32
  tLow0 := 60#32
  tRdl := 6#32
  tRds := 9#32
  tRec := 5#32

/-- FREE VALUE (93_implementation_defined.md I8, log entry 2): the level the Bus environment answers
to the n-th line sample of a run when the environment's answers listed in the state are used up. -/
opaque Config.freeLevel : Nat → Bool

/-- FREE VALUE (93_implementation_defined.md I7, log entry 3): the bits from which the NaN encoding of
the n-th NaN average of a run is taken. -/
opaque Config.freeNaN : Nat → Word

end Sys2Proof
end

