-- ==== Sys2Proof/Syntax.lean ====
section
/-! DEFINITION. The nine commands of spec/opcode_table.json (30_encoding.md R72), and the assembler
lines of R77 and R78 as abstract terms. -/

namespace Sys2Proof

/-- A command of the block, one constructor per row of the opcode table (R72). Its operands have the
width R71 gives them, so every term is a command the block can be given. -/
inductive Instr where
  /-- OW.RESET, R123. -/
  | owReset
  /-- OW.WRB b, R124: `b` is IMM[7:0]. -/
  | owWrb (b : Byte)
  /-- OW.RDB, R125. -/
  | owRdb
  /-- OW.RDROM, R126. -/
  | owRdrom
  /-- OW.RDPWR, R127. -/
  | owRdpwr
  /-- TM.REC, R153: its sample is the DATA register, not a field of the word. -/
  | tmRec
  /-- TM.RDY, R154. -/
  | tmRdy
  /-- TM.AVG, R155. -/
  | tmAvg
  /-- TM.ALRM a, R156: `a` is IMM[0], the ATTENDED input. -/
  | tmAlrm (a : Bool)
deriving DecidableEq, Repr

/-- The nine mnemonics of R72, without operands. -/
inductive Mnemonic where
  | owReset | owWrb | owRdb | owRdrom | owRdpwr | tmRec | tmRdy | tmAvg | tmAlrm
deriving DecidableEq, Repr

/-- The eight host-visible registers, R21. -/
inductive Reg where
  | cmd | data | result | status | rom | hist | config | thresh
deriving DecidableEq, Repr

/-- A decimal literal `±digits × 10^(exp10)`, the operand of TM.RECF (R78). -/
structure Decimal where
  negative : Bool
  digits : Nat
  exp10 : Int
deriving DecidableEq, Repr

/-- One assembler line, R77 and R78. Operands are the integers that were written. -/
inductive AsmLine where
  /-- A mnemonic line, with the operand if one was written. -/
  | command (m : Mnemonic) (operand : Option Nat)
  /-- The pseudo-instruction `TM.RECF f`. -/
  | tmRecf (f : Decimal)
  /-- The pseudo-instruction `TM.ALARM`. -/
  | tmAlarm
  /-- `WR <register>, <64-bit value>`. -/
  | wr (r : Reg) (value : Nat)
  /-- `RD <register>`. -/
  | rd (r : Reg)
  /-- `WAITDONE`. -/
  | waitDone
  /-- A line that holds nothing, or only a comment. -/
  | blank
deriving DecidableEq, Repr

end Sys2Proof
end

