-- ==== Sys2Proof/WellFormed.lean ====
section
/-! DEFINITION. The checks the spec puts on terms: a build's parameters (00_scope.md R13, with R8's
range) and an assembler line's operand (30_encoding.md R77). A command needs no check of its own: the
operands of `Instr` have exactly the widths of R71. -/

namespace Sys2Proof

/-- R13: "The parameters are well formed only when" these hold. The 8-bit bounds are the fields'
widths, and `HIST_N <= 65535` is the width of `histN`. Sums are taken as numbers, so none wraps. -/
def Params.wellFormed (p : Params) : Bool :=
  decide (1 ≤ p.nPresPoll.toNat) &&
  decide (p.tLow1.toNat < p.tSlot.toNat) &&
  decide (p.tLow0.toNat < p.tSlot.toNat) &&
  decide (p.tRdl.toNat + p.tRds.toNat ≤ p.tSlot.toNat) &&
  decide (1 ≤ p.histN.toNat)

/-- A build the model gives a meaning. -/
abbrev Params.WellFormed (p : Params) : Prop := p.wellFormed = true

/-- R77: which operand a mnemonic line carries. OW.WRB has an integer 0..255, TM.ALRM has 0 or 1, "Other
mnemonics take no operand". -/
def Mnemonic.operandOk : Mnemonic → Option Nat → Bool
  | .owWrb, some b => decide (b ≤ 255)
  | .owWrb, none => false
  | .tmAlrm, some a => decide (a ≤ 1)
  | .tmAlrm, none => false
  | .owReset, o => o.isNone
  | .owRdb, o => o.isNone
  | .owRdrom, o => o.isNone
  | .owRdpwr, o => o.isNone
  | .tmRec, o => o.isNone
  | .tmRdy, o => o.isNone
  | .tmAvg, o => o.isNone

/-- R77, R78: a well-formed assembler line. `WR` takes a 64-bit value. -/
def AsmLine.wellFormed : AsmLine → Bool
  | .command m o => m.operandOk o
  | .tmRecf _ => true
  | .tmAlarm => true
  | .wr _ v => decide (v < 2 ^ 64)
  | .rd _ => true
  | .waitDone => true
  | .blank => true

end Sys2Proof
end

