-- ==== Sys2Proof/Decode.lean ====
section
/-! DEFINITION. The command word: its fields (30_encoding.md R70), the opcode map (R72), the decoder
(R75), total on all 65536 words and rejecting by name (R73, R74), and after it the encoder (R72, R77). -/

namespace Sys2Proof

/-! ## Fields -/

/-- R70: `OPC = word[15:8]`. -/
def opcOf (word : CmdWord) : Byte := word.extractLsb' 8 8

/-- R70: `IMM = word[7:0]`. -/
def immOf (word : CmdWord) : Byte := word.extractLsb' 0 8

/-- R70, R77: the command word `{OPC, IMM}`. -/
def cmdWord (opc imm : Byte) : CmdWord := opc ++ imm

/-- R71: `IMM[0]`, the ATTENDED input of TM.ALRM. -/
def attendedOf (imm : Byte) : Bool := imm.getLsbD 0

/-- R71: `IMM[7:1]`, which TM.ALRM requires to be 0. -/
def immHigh (imm : Byte) : BitVec 7 := imm.extractLsb' 1 7

/-! ## The opcode map -/

/-- One row of R72: a word is this row's command when `(word & mask) == match`. -/
structure OpcodeRow where
  mnemonic : Mnemonic
  matchBits : CmdWord
  mask : CmdWord
deriving DecidableEq, Repr

/-- R72, in the table's order. -/
def opcodeMap : List OpcodeRow :=
  [ ⟨.owReset, 0x0100#16, 0xFFFF#16⟩,
    ⟨.owWrb,   0x0200#16, 0xFF00#16⟩,
    ⟨.owRdb,   0x0300#16, 0xFFFF#16⟩,
    ⟨.owRdrom, 0x0400#16, 0xFFFF#16⟩,
    ⟨.owRdpwr, 0x0500#16, 0xFFFF#16⟩,
    ⟨.tmRec,   0x1100#16, 0xFFFF#16⟩,
    ⟨.tmRdy,   0x1200#16, 0xFFFF#16⟩,
    ⟨.tmAvg,   0x1300#16, 0xFFFF#16⟩,
    ⟨.tmAlrm,  0x1400#16, 0xFFFE#16⟩ ]

/-- R72: `(word & mask) == match`. -/
def OpcodeRow.matchesWord (r : OpcodeRow) (word : CmdWord) : Bool :=
  word &&& r.mask == r.matchBits

/-! ## The decoder -/

/-- Why a command word is no command. Both are `Fault(ILLEGAL_COMMAND)` of the block (R73, R74). -/
inductive Reject where
  /-- R73: the opcode is not in the map. -/
  | illegalOpcode (opc : Byte)
  /-- R74: a legal opcode with a nonzero must-be-zero IMM bit. -/
  | reservedImm (opc imm : Byte)
deriving DecidableEq, Repr

/-- R74: a command with no operand, whose IMM must be 0x00. -/
def noOperand (opc imm : Byte) (i : Instr) : Except Reject Instr :=
  if imm = 0x00#8 then .ok i else .error (.reservedImm opc imm)

/-- R75's `case opc of`. -/
def decodeFields (opc imm : Byte) : Except Reject Instr :=
  if opc = 0x01#8 then noOperand opc imm .owReset
  else if opc = 0x02#8 then .ok (.owWrb imm)
  else if opc = 0x03#8 then noOperand opc imm .owRdb
  else if opc = 0x04#8 then noOperand opc imm .owRdrom
  else if opc = 0x05#8 then noOperand opc imm .owRdpwr
  else if opc = 0x11#8 then noOperand opc imm .tmRec
  else if opc = 0x12#8 then noOperand opc imm .tmRdy
  else if opc = 0x13#8 then noOperand opc imm .tmAvg
  else if opc = 0x14#8 then
    if immHigh imm = 0#7 then .ok (.tmAlrm (attendedOf imm)) else .error (.reservedImm opc imm)
  else .error (.illegalOpcode opc)

/-- R75: decode a command word. "The decode is total on all 65536 command words." -/
def decode (word : CmdWord) : Except Reject Instr := decodeFields (opcOf word) (immOf word)

/-- The instruction the decoder reads from a table row's bits (one 16-bit word, R70: "There is no
other length"). Bits above `nbits` are 0. -/
def decodeTableWord (nbits w : Nat) : Option Instr :=
  match decode (BitVec.ofNat 16 (w % 2 ^ nbits)) with
  | .ok i => some i
  | .error _ => none

/-! ## The encoder -/

/-- The mnemonic of a command, R72. -/
def Instr.mnemonic : Instr → Mnemonic
  | .owReset => .owReset
  | .owWrb _ => .owWrb
  | .owRdb => .owRdb
  | .owRdrom => .owRdrom
  | .owRdpwr => .owRdpwr
  | .tmRec => .tmRec
  | .tmRdy => .tmRdy
  | .tmAvg => .tmAvg
  | .tmAlrm _ => .tmAlrm

/-- The OPC column of R72. -/
def Mnemonic.opc : Mnemonic → Byte
  | .owReset => 0x01#8
  | .owWrb => 0x02#8
  | .owRdb => 0x03#8
  | .owRdrom => 0x04#8
  | .owRdpwr => 0x05#8
  | .tmRec => 0x11#8
  | .tmRdy => 0x12#8
  | .tmAvg => 0x13#8
  | .tmAlrm => 0x14#8

/-- R71: the IMM field of a command; 0x00 where the command takes no operand. -/
def Instr.imm : Instr → Byte
  | .owReset => 0x00#8
  | .owWrb b => b
  | .owRdb => 0x00#8
  | .owRdrom => 0x00#8
  | .owRdpwr => 0x00#8
  | .tmRec => 0x00#8
  | .tmRdy => 0x00#8
  | .tmAvg => 0x00#8
  | .tmAlrm a => if a then 0x01#8 else 0x00#8

/-- R77: "The encoding of a line is the command word `{OPC, IMM}`." -/
def encode (i : Instr) : CmdWord := cmdWord i.mnemonic.opc i.imm

end Sys2Proof
end

