-- ==== Sys2Proof/Machine/State.lean ====
section
/-! DEFINITION. All the state of the OWTM (10_state.md), with what its four agents (R6) leave for a step
to read: the host's pending actions, the levels the Bus environment will answer, and the two parts of the
observation (R7). Also the reasons a step can stop, and the state after reset (70_reset_and_hazards.md
R201). -/

namespace Sys2Proof.Machine

/-! ## The line -/

/-- A sensed level of the bus line, R16. -/
inductive Level where
  | low | high
deriving DecidableEq, Repr

/-- An entry of the bus trace, R7. -/
inductive LineAction where
  | driveLow
  | release
  | wait (n : Micros)
  | sample (l : Level)
deriving DecidableEq, Repr

/-- The bus side of the block, with the model's record of what was done on the line. -/
structure Bus where
  /-- LINE_DRV and the port `ow_drive_low`, R42, R186: true drives the line low. -/
  lineDrv : Bool
  /-- TIMER, R43: ticks of `us_tick` left in the current Wait. -/
  timer : Micros
  /-- The levels the Bus environment will answer to the next samples of `ow_in`, next first (R6). When
  the list is used up a sample draws the free value `Config.freeLevel`. -/
  env : List Level
  /-- How many samples have been taken: the index of the next free level. The model's own field. -/
  sampled : Nat
  /-- The bus trace, oldest first (R7): an observation, which a reset does not erase (R201). -/
  trace : List LineAction
deriving DecidableEq, Repr

/-! ## STATUS -/

/-- The STATUS register's fields, R25. Every bit that is no field reads 0. -/
structure Status where
  busy : Bool
  done : Bool
  txn : Bool
  ready : Bool
  fault : Bool
  romv : Bool
  err : BitVec 4
  fcause : BitVec 4
deriving DecidableEq, Repr

/-! ## The sequencer -/

/-- The phase of the current micro-operation, R41. `dispatch` is the model's name for the moment between
acceptance and decode (log entry 8). -/
inductive Phase where
  | idle | dispatch
  | resetLow | resetWait | presencePoll | resetRecovery
  | slotLow | slotRelease | slotSample | slotRecovery
  | validate
deriving DecidableEq, Repr

/-- The hidden sequencer state, R41. TIMER stands in `Bus`. -/
structure Sequencer where
  phase : Phase
  /-- The current command (opcode and operand), as its command word. -/
  cmd : CmdWord
  /-- DATA as latched at acceptance for TM.REC, R174. -/
  sample : Word
  /-- Whether the slots of the current transfer are read slots. -/
  reading : Bool
  /-- BITCNT, 0..7. -/
  bitcnt : BitVec 3
  /-- BYTECNT, 0..7. -/
  bytecnt : BitVec 3
  /-- SHIFT: the byte being sent, or the bits received so far. -/
  shift : Byte
  /-- ROMACC. -/
  romacc : Word
  /-- POLLCNT: presence-release polls made so far. -/
  pollcnt : BitVec 32
deriving DecidableEq, Repr

/-- The idle sequencer. Its fields other than `phase` are "unspecified; never read before a command
initialises them" (R201): zero is the model's choice (log entry 1). -/
def Sequencer.idle : Sequencer where
  phase := .idle
  cmd := 0#16
  sample := 0#64
  reading := false
  bitcnt := 0#3
  bytecnt := 0#3
  shift := 0#8
  romacc := 0#64
  pollcnt := 0#32

/-! ## The outside world -/

/-- What the Host, the platform and the passing of time do to the block, in the order they do it. -/
inductive Event where
  /-- A host write of a 64-bit value to a register index (R53, R54). -/
  | write (index : Nat) (value : Word)
  /-- A host read of a register index (R53, R54). -/
  | read (index : Nat)
  /-- The host's WAITDONE: host reads of STATUS repeated until DONE = 1 (R77). -/
  | waitDone
  /-- The platform drives the `rst` input: true asserts it, false deasserts it (R186, R200). -/
  | rst (level : Bool)
  /-- The host does nothing while the Tick source and the Block move once: one pulse of `us_tick` if a
  Wait is running, else the next action of the running command. -/
  | elapse
deriving DecidableEq, Repr

/-- The two models of the command lifecycle that R174 names. -/
inductive Grain where
  /-- "In the atomic model a command's whole sequence ... is one step of the Block agent". -/
  | atomic
  /-- "a cycle-level implementation": host actions may fall between acceptance and completion. -/
  | cycle
deriving DecidableEq, Repr

/-! ## The state -/

/-- The OWTM and what its agents have in store for it. -/
structure State where
  /-- The build parameters: CONFIG (R36), THRESH (R37) and the timing (R12). No step changes them. -/
  params : Params
  /-- DATA, R23. -/
  data : Word
  /-- RESULT, R24. -/
  result : Word
  /-- STATUS, R25. -/
  status : Status
  /-- ROM, R34. -/
  rom : Word
  /-- FILL, R40. -/
  fill : HistIndex
  /-- CURSOR, R39. -/
  cursor : HistIndex
  /-- H[0..HIST_N-1], R38: `none` is the spec's "unwritten". -/
  slots : List (Option Word)
  /-- The sequencer, R41. -/
  seq : Sequencer
  /-- The line, TIMER, the Bus environment's answers and the bus trace. -/
  bus : Bus
  /-- The `rst` input, R186, R200: true while it is asserted. -/
  rst : Bool
  /-- How many NaN averages have been produced: the index of the next free NaN. The model's own field. -/
  nanDraws : Nat
  /-- Which of R174's two models the machine runs in. The model's own field; no step changes it. -/
  grain : Grain
  /-- What the outside world does next, oldest first. -/
  pending : List Event
  /-- The values the host has read, oldest first, each with its index (R7): an observation. -/
  reads : List (Nat × Word)
deriving DecidableEq, Repr

/-! ## Stops -/

/-- Why the machine stops. Neither is a fault of the block: the block's own faults are outcomes that it
records in STATUS (R172), and it goes on. -/
inductive Fault where
  /-- Raised by TM.AVG and TM.ALRM on reading a history slot that was never written: "no value; a read
  would be a `fault`, and no rule can perform one" (93_implementation_defined.md I5). Safe: no state that
  meets the invariant of R40 raises it. -/
  | unwrittenSlot (index : Nat)
  /-- Raised by the cycle-level sequencer when its phase and its latched command do not belong together.
  Safe: no run from reset reaches such a state. -/
  | sequencerMismatch
deriving DecidableEq, Repr

/-- Why the machine gives no meaning. -/
inductive Refusal where
  /-- An instruction of the table without a meaning. No arm of this model uses it. Safe. -/
  | notModelled (mnemonic : String)
  /-- Raised by every step and every command of a build whose parameters are not well formed: "A build
  with parameters that are not well formed has no meaning in this spec; a model refuses it" (R13). Safe. -/
  | illFormedBuild
deriving DecidableEq, Repr

/-! ## Reset -/

/-- STATUS after reset: every field 0 (R201). -/
def Status.reset : Status where
  busy := false
  done := false
  txn := false
  ready := false
  fault := false
  romv := false
  err := 0x0#4
  fcause := 0x0#4

/-- The bus after reset: the line released, the trace empty at the start of a run (R201). TIMER is
unspecified and unread; zero is the model's choice (log entry 1). -/
def Bus.reset : Bus where
  lineDrv := false
  timer := 0#32
  env := []
  sampled := 0
  trace := []

/-- The state after reset of the build `p` (R201), with `rst` deasserted and nothing done yet by the outside
world. -/
def State.resetWith (p : Params) : State where
  params := p
  data := 0#64
  result := 0#64
  status := Status.reset
  rom := 0#64
  fill := 0#16
  cursor := 0#16
  slots := List.replicate p.histN.toNat none
  seq := Sequencer.idle
  bus := Bus.reset
  rst := false
  nanDraws := 0
  grain := .atomic
  pending := []
  reads := []

/-- The machine right after reset, in the default build (R8 to R12, R201). -/
def State.reset : State := State.resetWith Params.default

end Sys2Proof.Machine
end

