-- ==== Sys2Proof/Machine/Operands.lean ====
section
/-! DEFINITION. Operand forms and the bit and byte helpers the machine uses: the bit order of the bus
(20_memory.md R55, R56), the register index of a byte address (R51), and the byte lanes of a narrower host
adapter (R57). The IMM operands of R71 are taken apart in Decode.lean. -/

namespace Sys2Proof.Machine

/-- `bit(High) = 1`, `bit(Low) = 0` (R16). -/
def bitOf : Level → Bool
  | .high => true
  | .low => false

/-- The level that carries a bit, the inverse of `bitOf`. -/
def levelOf : Bool → Level
  | true => .high
  | false => .low

/-- `r[k] = v` on a byte, R107. -/
def setBit (r : Byte) (k : Nat) (v : Bool) : Byte :=
  if v then r ||| (1#8 <<< k) else r &&& ~~~(1#8 <<< k)

/-- `r[8k+7:8k] = v` on a 64-bit value, R56, R126. -/
def setByte (r : Word) (k : Nat) (v : Byte) : Word :=
  (r &&& ~~~(0xFF#64 <<< (8 * k))) ||| (v.setWidth 64 <<< (8 * k))

/-- `byte_k = r[8k+7:8k]`, R121: byte lane k of a register (R57). -/
def byteOf (r : Word) (k : Nat) : Byte := r.extractLsb' (8 * k) 8

/-- `zext_64` of one bit (R14). -/
def zext1 (b : Bool) : Word := if b then 1#64 else 0#64

/-- R51: `index = byte_address[5:3]` with `byte_address[2:0] = 0`; an address with other low bits is
not one the adapter presents. -/
def indexOfByteAddress (a : Word) : Option Nat :=
  if a.extractLsb' 0 3 = 0#3 then some (a.extractLsb' 3 3).toNat else none

/-- R57: the 64-bit value of the byte lanes a narrower adapter collected, lane k being bits `8k+7 : 8k`. Only
eight lanes are a value: "The block does not define partial writes". -/
def wordOfLanes : List Byte → Option Word
  | [b0, b1, b2, b3, b4, b5, b6, b7] => some (b7 ++ b6 ++ b5 ++ b4 ++ b3 ++ b2 ++ b1 ++ b0)
  | _ => none

/-- The register's index, R21. -/
def regIndex : Reg → Nat
  | .cmd => 0
  | .data => 1
  | .result => 2
  | .status => 3
  | .rom => 4
  | .hist => 5
  | .config => 6
  | .thresh => 7

end Sys2Proof.Machine
end

