-- ==== Sys2Proof/Machine/Flags.lean ====
section
/-! DEFINITION. Outcomes and their codes (00_scope.md R17, 60_exceptions.md R170, R171), and the values of
the packed read-only registers: STATUS (10_state.md R25), HIST (R35), CONFIG (R36). -/

namespace Sys2Proof.Machine

/-- A protocol error, R170: a normal, reportable outcome. -/
inductive ProtoCode where
  | noPresence | busContention | crc | unexpectedFamily
deriving DecidableEq, Repr

/-- A fault of the block, R170: a programming-contract violation, recorded in STATUS. -/
inductive FaultCode where
  | notReady | noTransaction | illegalCommand | overrun
deriving DecidableEq, Repr

/-- R17: "Every command ends in exactly one outcome". -/
inductive CmdOutcome where
  | ok
  | proto (c : ProtoCode)
  | fault (c : FaultCode)
deriving DecidableEq, Repr

/-- The outcome of a micro-operation (40_onewire_slots.md): Ok or a protocol error. -/
abbrev LineOutcome := Except ProtoCode Unit

/-- R170, the protocol rows. -/
def ProtoCode.code : ProtoCode → BitVec 4
  | .noPresence => 0x1#4
  | .busContention => 0x2#4
  | .crc => 0x3#4
  | .unexpectedFamily => 0x4#4

/-- R170, the fault rows. -/
def FaultCode.code : FaultCode → BitVec 4
  | .notReady => 0x8#4
  | .noTransaction => 0x9#4
  | .illegalCommand => 0xA#4
  | .overrun => 0xB#4

/-- `code(o)` of R175: "0x0 for Ok". -/
def CmdOutcome.code : CmdOutcome → BitVec 4
  | .ok => 0x0#4
  | .proto c => c.code
  | .fault c => c.code

/-- R25: the 64 bits of STATUS, from bit 63 down: reserved, FCAUSE, ERR, reserved, ROMV, FAULT, READY, TXN,
DONE, BUSY. -/
def Status.word (st : Status) : Word :=
  0#48 ++ st.fcause ++ st.err ++ 0#2 ++ BitVec.ofBool st.romv ++ BitVec.ofBool st.fault ++
    BitVec.ofBool st.ready ++ BitVec.ofBool st.txn ++ BitVec.ofBool st.done ++ BitVec.ofBool st.busy

/-- R35: HIST is FILL in bits 15:0 and CURSOR in bits 31:16. -/
def histWord (fill cursor : HistIndex) : Word := 0#32 ++ cursor ++ fill

/-- R36: CONFIG is HIST_N, FAMILY_CODE, CMD_READ_ROM and CMD_READ_POWER, from the low bits up. -/
def configWord (p : Params) : Word :=
  0#24 ++ p.cmdReadPower ++ p.cmdReadRom ++ p.familyCode ++ p.histN

/-- R37: THRESH is MAX_TEMPERATURE. -/
def threshWord (p : Params) : Word := p.maxTemp

/-- R29, R153: READY is `(FILL == HIST_N)`. -/
def readyFlag (p : Params) (fill : HistIndex) : Bool := fill == p.histN

end Sys2Proof.Machine
end

