-- ==== Sys2Proof/Machine/Crc.lean ====
section
/-! DEFINITION. CRC-8 (Dallas/Maxim) and the validation of a DeviceRom (41_onewire_commands.md R120 to
R122). -/

namespace Sys2Proof.Machine

/-- One bit of R120: `mix = c[0] XOR b[i]; c = c >> 1; if mix then c = c XOR 0x8C`. -/
def crcBit (c : Byte) (v : Bool) : Byte :=
  if c.getLsbD 0 != v then (c >>> 1) ^^^ 0x8C#8 else c >>> 1

/-- One byte of R120, bits 0 to 7. -/
def crcByte (c b : Byte) : Byte := (List.range 8).foldl (fun c i => crcBit c (b.getLsbD i)) c

/-- `Crc8(b_0, ..., b_{m-1})`, R120. -/
def crc8 (bytes : List Byte) : Byte := bytes.foldl crcByte 0x00#8

/-- R121: bytes 0..6 of a DeviceRom, the family code and the serial number, in transmission order. -/
def romPayload (r : Word) : List Byte := (List.range 7).map (byteOf r)

/-- R121: the CRC byte, `r[63:56]`. -/
def romCrc (r : Word) : Byte := byteOf r 7

/-- R121: the family code, `r[7:0]`. -/
def romFamily (r : Word) : Byte := byteOf r 0

/-- `ValidateRom(r)`, R122: the CRC check comes first. -/
def validateRom (p : Params) (r : Word) : LineOutcome :=
  if crc8 (romPayload r) ≠ romCrc r then .error .crc
  else if romFamily r ≠ p.familyCode then .error .unexpectedFamily
  else .ok ()

end Sys2Proof.Machine
end

