-- ==== Sys2Proof/Machine/Ops.lean ====
section
/-! DEFINITION. The shared operations: the four line primitives (40_onewire_slots.md R100), reads of the
register index space (20_memory.md R53, R54), the command lifecycle that is the block's trap entry and
return (60_exceptions.md R172, R174, R175), and the hardware reset (70_reset_and_hazards.md R200 to R202). -/

namespace Sys2Proof.Machine

/-! ## Line primitives, R100 -/

/-- `DriveLow()`: `LINE_DRV <- 1; trace += DriveLow`. -/
def driveLow (b : Bus) : Bus :=
  { b with lineDrv := true, trace := b.trace ++ [.driveLow] }

/-- `Release()`: `LINE_DRV <- 0; trace += Release`. -/
def release (b : Bus) : Bus :=
  { b with lineDrv := false, trace := b.trace ++ [.release] }

/-- The first half of `Wait(n)`: `TIMER <- n`. -/
def loadTimer (n : Micros) (b : Bus) : Bus := { b with timer := n }

/-- One pulse of `us_tick` while a Wait runs: TIMER is "decremented once per tick" (R43). -/
def tick (b : Bus) : Bus := { b with timer := b.timer - 1#32 }

/-- The second half of `Wait(n)`, when TIMER has reached 0: `trace += Wait(n)`. In the cycle-level model it is part of
the block's next move, not of the last tick (DESIGN CHOICE, log entry 18). -/
def endWait (n : Micros) (b : Bus) : Bus :=
  { b with timer := 0#32, trace := b.trace ++ [.wait n] }

/-- `Wait(n)` as one whole: TIMER is loaded with n and n ticks elapse, which leave it 0 (R43, R183). -/
def wait (n : Micros) (b : Bus) : Bus := endWait n (loadTimer n b)

/-- The level the Bus environment answers to the k-th sample from now (k = 0 is the next one): the k-th
of the state's list, and past its end a free value (R6: "an unconstrained oracle", log entry 2). -/
def Bus.answer (b : Bus) (k : Nat) : Level :=
  match b.env[k]? with
  | some l => l
  | none => levelOf (Config.freeLevel (b.sampled + k))

/-- `Sample()`: the environment's answer is taken, recorded and returned. -/
def sample (b : Bus) : Level × Bus :=
  (b.answer 0,
    { b with env := b.env.tail, sampled := b.sampled + 1, trace := b.trace ++ [.sample (b.answer 0)] })

/-! ## Register reads, R53 and R54 -/

/-- The value a host read of a register index returns. It "returns the register, no effect"; CMD reads as
0 (R22), and an index outside 0..7 reads as 0 (R54). -/
def regRead (index : Nat) (s : State) : Word :=
  match index with
  | 0 => 0#64
  | 1 => s.data
  | 2 => s.result
  | 3 => s.status.word
  | 4 => s.rom
  | 5 => histWord s.fill s.cursor
  | 6 => configWord s.params
  | 7 => threshWord s.params
  | _ => 0#64

/-- A host read: the block does not change, and the value joins the observation (R7, R53). -/
def hostRead (index : Nat) (s : State) : State :=
  { s with reads := s.reads ++ [(index, regRead index s)] }

/-! ## The command lifecycle -/

/-- `RecordFault(f)`, R172: FCAUSE keeps the first fault, FAULT is sticky. -/
def recordFault (f : FaultCode) (s : State) : State :=
  { s with status :=
      { s.status with
        fault := true
        fcause := if s.status.fault then s.status.fcause else f.code } }

/-- Acceptance, R174: `BUSY <- 1; DONE <- 0`, and DATA is latched. The sequencer holds the command word
and starts from its idle values. -/
def accept (word : CmdWord) (s : State) : State :=
  { s with
    status := { s.status with busy := true, done := false }
    seq := { Sequencer.idle with phase := .dispatch, cmd := word, sample := s.data } }

/-- Completion, R175: `ERR <- code(o)`, a fault is recorded, `BUSY <- 0; DONE <- 1`, and the block is idle
again (R176). -/
def complete (o : CmdOutcome) (s : State) : State :=
  let s := match o with
    | .fault f => recordFault f s
    | .ok => s
    | .proto _ => s
  { s with
    status := { s.status with err := o.code, busy := false, done := true }
    seq := Sequencer.idle }

/-- A command's own effect, as its rule gives it: the state it leaves before completion and its outcome,
or a stop of the machine. -/
abbrev Effect := Except Fault (State × CmdOutcome)

/-- The end of a command: completion of the state and outcome its effect left. -/
def finish : Effect → Host.Outcome State Fault Refusal
  | .ok r => .next (complete r.2 r.1)
  | .error f => .fault f

/-- One command in the atomic model, from acceptance to completion (R174): accept the word, have the
command's effect, complete. A build that is not well formed is refused (R13). -/
def runCommand (i : Instr) (effect : State → Effect) (s : State) : Host.Outcome State Fault Refusal :=
  if s.params.WellFormed then finish (effect (accept (encode i) s)) else .refused .illFormedBuild

/-- An illegal command word in the atomic model: "ends with `Fault(ILLEGAL_COMMAND)` and has no other
effect" (R73, R74, R177). -/
def rejectWord (word : CmdWord) (s : State) : State :=
  complete (.fault .illegalCommand) (accept word s)

/-! ## Hardware reset -/

/-- The line at a reset (R202): driven low, it is released and that is recorded as Release; the trace
stays. TIMER gets its reset value. A Wait that has not been recorded yet is not recorded: neither one that is cut short
nor one whose last tick has passed but not the block's next move (DESIGN CHOICE, log entry 18: R202 leaves it open). -/
def resetBus (b : Bus) : Bus :=
  if b.lineDrv then { release b with timer := Bus.reset.timer } else { b with timer := Bus.reset.timer }

/-- The reset of the block (R200, R202): all of its state takes its reset value at once, a running command is
aborted with no completion. The build, the inputs, the outside world's part, and the observation are not the
block's state and stay. -/
def hardReset (s : State) : State :=
  { State.resetWith s.params with
    bus := resetBus s.bus
    rst := s.rst
    nanDraws := s.nanDraws
    grain := s.grain
    pending := s.pending
    reads := s.reads }

/-- The platform drives `rst` to a level (R200): asserting it resets the block, and when it is deasserted "every
piece of state has the value of rule R201". Driving a deasserted input low changes nothing. -/
def driveRst (level : Bool) (s : State) : State :=
  if level || s.rst then { hardReset s with rst := level } else s

end Sys2Proof.Machine
end

