-- ==== Sys2Proof/Machine/OneWire.lean ====
section
/-! DEFINITION. The micro-operations of the one-wire bus driver (40_onewire_slots.md R102 to R107) as
their pseudocode gives them. Each takes the build and the bus, and leaves the bus. -/

namespace Sys2Proof.Machine

/-! ## Reset and presence detect, R102 -/

/-- The bounded poll of R102's `for j` loop, with `n` polls left. -/
def pollRelease (p : Params) : Nat → Bus → LineOutcome × Bus
  | 0, b => (.error .busContention, b)
  | n + 1, b =>
    match sample (wait p.tPresPoll b) with
    | (.high, b) => (.ok (), wait p.tRstrec b)
    | (.low, b) => pollRelease p n b

/-- `ResetPulse()`, R102. -/
def resetPulse (p : Params) (b : Bus) : LineOutcome × Bus :=
  match sample (wait p.tMsp (release (wait p.tRstl (driveLow b)))) with
  | (.high, b) => (.error .noPresence, b)
  | (.low, b) => pollRelease p p.nPresPoll.toNat b

/-! ## Slots, R103 to R105 -/

/-- `WriteSlot1()`, R103. -/
def writeSlot1 (p : Params) (b : Bus) : LineOutcome × Bus :=
  match sample (wait (p.tSlot - p.tLow1) (release (wait p.tLow1 (driveLow b)))) with
  | (.low, b) => (.error .busContention, b)
  | (.high, b) => (.ok (), wait p.tRec b)

/-- `WriteSlot0()`, R104: no sample is taken. -/
def writeSlot0 (p : Params) (b : Bus) : LineOutcome × Bus :=
  (.ok (), wait p.tRec (wait (p.tSlot - p.tLow0) (release (wait p.tLow0 (driveLow b)))))

/-- `ReadSlot()`, R105. -/
def readSlot (p : Params) (b : Bus) : Bool × Bus :=
  match sample (wait p.tRds (release (wait p.tRdl (driveLow b)))) with
  | (l, b) => (bitOf l, wait p.tRec (wait (p.tSlot - p.tRdl - p.tRds) b))

/-! ## Byte framing, R106 and R107 -/

/-- One iteration of R106: the slot that sends the bit `v`. -/
def writeSlot (p : Params) (v : Bool) (b : Bus) : LineOutcome × Bus :=
  if v then writeSlot1 p b else writeSlot0 p b

/-- R106's `for k` loop over the bit numbers still to be sent, ended by the first failing slot. -/
def writeBits (p : Params) (v : Byte) : List Nat → Bus → LineOutcome × Bus
  | [], b => (.ok (), b)
  | k :: ks, b =>
    match writeSlot p (v.getLsbD k) b with
    | (.ok (), b) => writeBits p v ks b
    | (.error c, b) => (.error c, b)

/-- `WriteByte(v)`, R106: bits 0 to 7, least-significant first (R55). -/
def writeByte (p : Params) (v : Byte) (b : Bus) : LineOutcome × Bus :=
  writeBits p v (List.range 8) b

/-- R107's `for k` loop over the bit numbers still to be received. -/
def readBits (p : Params) : List Nat → Byte → Bus → Byte × Bus
  | [], r, b => (r, b)
  | k :: ks, r, b =>
    match readSlot p b with
    | (v, b) => readBits p ks (setBit r k v) b

/-- `ReadByte()`, R107: the k-th slot gives bit k. -/
def readByte (p : Params) (b : Bus) : Byte × Bus := readBits p (List.range 8) 0x00#8 b

/-- R126's `for k` loop over the byte numbers still to be received. -/
def readBytes (p : Params) : List Nat → Word → Bus → Word × Bus
  | [], r, b => (r, b)
  | k :: ks, r, b =>
    match readByte p b with
    | (v, b) => readBytes p ks (setByte r k v) b

/-- The 64-bit ROM readout of R126: the k-th byte received is bits `8k+7:8k` (R56). -/
def readRomBits (p : Params) (b : Bus) : Word × Bus := readBytes p (List.range 8) 0#64 b

end Sys2Proof.Machine
end

