-- ==== Sys2Proof/Machine/OneWireCommands.lean ====
section
/-! DEFINITION. The five bus commands (41_onewire_commands.md R123 to R127). Each has its effect, which its
rule's pseudocode gives, and its meaning, the effect between acceptance and completion. The ways a command
can end are named once: the cycle-level sequencer ends a command by the same definitions. -/

namespace Sys2Proof.Machine

/-! ## Ends of the bus commands -/

/-- A protocol error of a bus command: TXN becomes 0 and nothing else is written (R28, R176). -/
def endProto (c : ProtoCode) (s : State) : State × CmdOutcome :=
  ({ s with status := { s.status with txn := false } }, .proto c)

/-- OW.RESET ends Ok: a transaction is open (R123). -/
def endOwReset (s : State) : State × CmdOutcome :=
  ({ s with status := { s.status with txn := true } }, .ok)

/-- OW.WRB ends Ok: TXN stays (R124). -/
def endOwWrb (s : State) : State × CmdOutcome := (s, .ok)

/-- OW.RDB ends Ok: `RESULT <- zext_64(r)` (R125). -/
def endOwRdb (r : Byte) (s : State) : State × CmdOutcome :=
  ({ s with result := r.setWidth 64 }, .ok)

/-- OW.RDROM after its 64 read slots: `TXN <- 0`, and the ROM is kept only if it validates (R126). -/
def endOwRdrom (r : Word) (s : State) : State × CmdOutcome :=
  match validateRom s.params r with
  | .error c => ({ s with status := { s.status with txn := false } }, .proto c)
  | .ok () =>
    ({ s with rom := r, result := r, status := { s.status with txn := false, romv := true } }, .ok)

/-- OW.RDPWR after its read slot: `TXN <- 0; RESULT <- zext_64(b)` (R127). -/
def endOwRdpwr (v : Bool) (s : State) : State × CmdOutcome :=
  ({ s with result := zext1 v, status := { s.status with txn := false } }, .ok)

/-! ## Effects -/

/-- `OW_RESET()`, R123. -/
def owResetEffect (s : State) : Effect :=
  .ok (match resetPulse s.params s.bus with
    | (.ok (), b) => endOwReset { s with bus := b }
    | (.error c, b) => endProto c { s with bus := b })

/-- `OW_WRB(b)`, R124. -/
def owWrbEffect (v : Byte) (s : State) : Effect :=
  if s.status.txn then
    .ok (match writeByte s.params v s.bus with
      | (.ok (), b) => endOwWrb { s with bus := b }
      | (.error c, b) => endProto c { s with bus := b })
  else .ok (s, .fault .noTransaction)

/-- `OW_RDB()`, R125. -/
def owRdbEffect (s : State) : Effect :=
  if s.status.txn then
    .ok (match readByte s.params s.bus with
      | (r, b) => endOwRdb r { s with bus := b })
  else .ok (s, .fault .noTransaction)

/-- The common head of OW.RDROM and OW.RDPWR: `ResetPulse()`, then `WriteByte(v)` (R126, R127). -/
def resetAndWrite (p : Params) (v : Byte) (b : Bus) : LineOutcome × Bus :=
  match resetPulse p b with
  | (.ok (), b) => writeByte p v b
  | (.error c, b) => (.error c, b)

/-- `OW_RDROM()`, R126. -/
def owRdromEffect (s : State) : Effect :=
  .ok (match resetAndWrite s.params s.params.cmdReadRom s.bus with
    | (.error c, b) => endProto c { s with bus := b }
    | (.ok (), b) =>
      match readRomBits s.params b with
      | (r, b) => endOwRdrom r { s with bus := b })

/-- `OW_RDPWR()`, R127. -/
def owRdpwrEffect (s : State) : Effect :=
  .ok (match resetAndWrite s.params s.params.cmdReadPower s.bus with
    | (.error c, b) => endProto c { s with bus := b }
    | (.ok (), b) =>
      match readSlot s.params b with
      | (v, b) => endOwRdpwr v { s with bus := b })

/-! ## Meanings -/

/-- OW.RESET, R123. -/
def execOwReset (s : State) : Host.Outcome State Fault Refusal :=
  runCommand .owReset owResetEffect s

/-- OW.WRB b, R124. -/
def execOwWrb (v : Byte) (s : State) : Host.Outcome State Fault Refusal :=
  runCommand (.owWrb v) (owWrbEffect v) s

/-- OW.RDB, R125. -/
def execOwRdb (s : State) : Host.Outcome State Fault Refusal :=
  runCommand .owRdb owRdbEffect s

/-- OW.RDROM, R126. -/
def execOwRdrom (s : State) : Host.Outcome State Fault Refusal :=
  runCommand .owRdrom owRdromEffect s

/-- OW.RDPWR, R127. -/
def execOwRdpwr (s : State) : Host.Outcome State Fault Refusal :=
  runCommand .owRdpwr owRdpwrEffect s

end Sys2Proof.Machine
end

