-- ==== Sys2Proof/Machine/Float64.lean ====
section
/-! DEFINITION. IEEE 754 binary64 arithmetic as 00_scope.md R18 uses it (93_implementation_defined.md G5):
values are converted to exact integers in units of 2^-1074 (the least subnormal), computed exactly, and
rounded once to nearest, ties to even. -/

namespace Sys2Proof.Machine.F64

/-- Bit 63, the sign (R18). -/
def sign (x : Word) : Bool := x.msb

/-- Bits 62:0, the biased exponent and the fraction, as a number. -/
def magBits (x : Word) : Nat := x.toNat % 2 ^ 63

/-- The magnitude bits of infinity. -/
def infBits : Nat := 0x7FF * 2 ^ 52

/-- A NaN: exponent all ones, fraction nonzero. -/
def isNaN (x : Word) : Bool := decide (infBits < magBits x)

/-- An infinity: exponent all ones, fraction zero. -/
def isInf (x : Word) : Bool := magBits x == infBits

/-- The encoding with the given sign and magnitude bits. -/
def pack (neg : Bool) (mag : Nat) : Word := BitVec.ofBool neg ++ BitVec.ofNat 63 mag

/-- The NaN the arithmetic works with inside a computation; its payload is never shown (R155, I7). -/
def quietNaN : Word := 0x7FF8000000000000#64

/-- The exact value, in units of 2^-1074, of finite magnitude bits: a subnormal is its fraction, a normal
number is `(2^52 + fraction) * 2^(exponent - 1)`. -/
def unitsOfMag (m : Nat) : Nat :=
  if m / 2 ^ 52 = 0 then m % 2 ^ 52 else (2 ^ 52 + m % 2 ^ 52) * 2 ^ (m / 2 ^ 52 - 1)

/-- The exact value of a finite encoding in units of 2^-1074. -/
def valueOf (x : Word) : Int :=
  if sign x then -(unitsOfMag (magBits x) : Int) else (unitsOfMag (magBits x) : Int)

/-- How many low bits a magnitude of `q` units has beyond the 53 of a significand. -/
def excess (q : Nat) : Nat := Nat.log2 q - 52

/-- `num / den` rounded to the nearest integer, ties to even. -/
def roundHalfEven (num den : Nat) : Nat :=
  let q := num / den
  let r := num % den
  if den < 2 * r ∨ (2 * r = den ∧ q % 2 = 1) then q + 1 else q

/-- The magnitude bits nearest to `num / den` units, ties to even; a value too large is infinity. A
significand that rounds up to 2^53 carries into the exponent by the addition. -/
def roundMag (num den : Nat) : Nat :=
  let k := excess (num / den)
  min (k * 2 ^ 52 + roundHalfEven num (den * 2 ^ k)) infBits

/-- `f64_add(a, b)`, R18. -/
def add (a b : Word) : Word :=
  if isNaN a || isNaN b then quietNaN
  else if isInf a then (if isInf b && (sign a != sign b) then quietNaN else a)
  else if isInf b then b
  else
    let v := valueOf a + valueOf b
    if v = 0 then pack (sign a && sign b) 0 else pack (decide (v < 0)) (roundMag v.natAbs 1)

/-- `f64_div(a, b)`, R18. -/
def div (a b : Word) : Word :=
  let neg := sign a != sign b
  if isNaN a || isNaN b then quietNaN
  else if isInf a then (if isInf b then quietNaN else pack neg infBits)
  else if isInf b then pack neg 0
  else if magBits b = 0 then (if magBits a = 0 then quietNaN else pack neg infBits)
  else pack neg (roundMag (unitsOfMag (magBits a) * 2 ^ 1074) (unitsOfMag (magBits b)))

/-- `f64_of_nat(n)`, R18: exact for n < 2^53. -/
def ofNat (n : Nat) : Word := pack false (roundMag (n * 2 ^ 1074) 1)

/-- The place of a number that is no NaN in the IEEE order; the two zeros have the same place. -/
def orderKey (x : Word) : Int := if sign x then -(magBits x : Int) else (magBits x : Int)

/-- `f64_ge(a, b)`, R18: "false when either operand is NaN; +0.0 and −0.0 compare equal". -/
def ge (a b : Word) : Bool :=
  !isNaN a && !isNaN b && decide (orderKey b ≤ orderKey a)

/-- The NaN encoding taken from free bits (I7: "any value among the binary64 NaN encodings"): every NaN
is taken from itself. -/
def asNaN (x : Word) : Word := if isNaN x then x else x ||| quietNaN

/-- `bits64(f)` of a decimal literal (R78), rounded to nearest, ties to even. -/
def ofDecimal (f : Decimal) : Word :=
  match f.exp10 with
  | .ofNat e => pack f.negative (roundMag (f.digits * 10 ^ e * 2 ^ 1074) 1)
  | .negSucc e => pack f.negative (roundMag (f.digits * 2 ^ 1074) (10 ^ (e + 1)))

end Sys2Proof.Machine.F64
end

