-- ==== Sys2Proof/Machine/ThermalMonitor.lean ====
section
/-! DEFINITION. The thermal safety monitor: the average and the alarm decision (42_thermal_monitor.md R151,
R152) and its four commands (R153 to R156). The monitor touches neither the bus, nor TXN, ROM or ROMV. -/

namespace Sys2Proof.Machine

/-! ## Functions -/

/-- The slots of the given indices, in order. Reading a slot that was never written stops the machine (I5). -/
def readSlots (slots : List (Option Word)) : List Nat → Except Fault (List Word)
  | [] => .ok []
  | i :: is =>
    match slots[i]? with
    | some (some v) =>
      match readSlots slots is with
      | .ok vs => .ok (v :: vs)
      | .error f => .error f
    | some none => .error (.unwrittenSlot i)
    | none => .error (.unwrittenSlot i)

/-- The arithmetic of `Avg()`, R151: the sum from +0.0 in slot-index order, then one division by the number
of samples. A NaN here has no particular payload. -/
def mean (vs : List Word) : Word := F64.div (vs.foldl F64.add 0#64) (F64.ofNat vs.length)

/-- `Avg()`, R151, over slots 0 to HIST_N-1. -/
def avg (s : State) : Except Fault Word :=
  match readSlots s.slots (List.range s.params.histN.toNat) with
  | .ok vs => .ok (mean vs)
  | .error f => .error f

/-- The bits an average is returned with (R155): a NaN average is returned as a NaN encoding that nothing
constrains (I7), the `n`-th of the run. -/
def avgBits (n : Nat) (a : Word) : Word := if F64.isNaN a then F64.asNaN (Config.freeNaN n) else a

/-- `ShouldAlarm(A)`, R152. The average is evaluated only on a ready history with A = 0. -/
def shouldAlarm (attended : Bool) (s : State) : Except Fault Bool :=
  if s.fill ≠ s.params.histN then .ok false
  else if attended then .ok false
  else
    match avg s with
    | .ok a => .ok (F64.ge a s.params.maxTemp)
    | .error f => .error f

/-- `min(FILL + 1, HIST_N)`, R40. -/
def nextFill (p : Params) (fill : HistIndex) : HistIndex :=
  BitVec.ofNat 16 (min (fill.toNat + 1) p.histN.toNat)

/-- `(CURSOR + 1) mod HIST_N`, R39. -/
def nextCursor (p : Params) (cursor : HistIndex) : HistIndex :=
  BitVec.ofNat 16 ((cursor.toNat + 1) % p.histN.toNat)

/-! ## Effects -/

/-- `TM_REC(s)`, R153, with the sample latched at acceptance (R174, R208). -/
def tmRecEffect (s : State) : Effect :=
  .ok ({ s with
    slots := s.slots.set s.cursor.toNat (some s.seq.sample)
    cursor := nextCursor s.params s.cursor
    fill := nextFill s.params s.fill
    status := { s.status with ready := readyFlag s.params (nextFill s.params s.fill) } }, .ok)

/-- `TM_RDY()`, R154. -/
def tmRdyEffect (s : State) : Effect :=
  .ok ({ s with result := zext1 (s.fill == s.params.histN) }, .ok)

/-- `TM_AVG()`, R155. -/
def tmAvgEffect (s : State) : Effect :=
  if s.fill ≠ s.params.histN then .ok (s, .fault .notReady)
  else
    match avg s with
    | .ok a =>
      .ok ({ s with
        result := avgBits s.nanDraws a
        nanDraws := if F64.isNaN a then s.nanDraws + 1 else s.nanDraws }, .ok)
    | .error f => .error f

/-- `TM_ALRM(a)`, R156. -/
def tmAlrmEffect (attended : Bool) (s : State) : Effect :=
  match shouldAlarm attended s with
  | .ok v => .ok ({ s with result := zext1 v }, .ok)
  | .error f => .error f

/-! ## Meanings -/

/-- TM.REC, R153. -/
def execTmRec (s : State) : Host.Outcome State Fault Refusal :=
  runCommand .tmRec tmRecEffect s

/-- TM.RDY, R154. -/
def execTmRdy (s : State) : Host.Outcome State Fault Refusal :=
  runCommand .tmRdy tmRdyEffect s

/-- TM.AVG, R155. -/
def execTmAvg (s : State) : Host.Outcome State Fault Refusal :=
  runCommand .tmAvg tmAvgEffect s

/-- TM.ALRM a, R156. -/
def execTmAlrm (attended : Bool) (s : State) : Host.Outcome State Fault Refusal :=
  runCommand (.tmAlrm attended) (tmAlrmEffect attended) s

end Sys2Proof.Machine
end

