-- ==== Sys2Proof/Machine/Dispatch.lean ====
section
/-! DEFINITION. The meaning of each command, one arm per row of the opcode table (30_encoding.md R75). -/

namespace Sys2Proof.Machine

def exec (i : Instr) (s : State) : Host.Outcome State Fault Refusal :=
  match i with
  | .owReset => Sys2Proof.Machine.execOwReset s
  | .owWrb b => Sys2Proof.Machine.execOwWrb b s
  | .owRdb => Sys2Proof.Machine.execOwRdb s
  | .owRdrom => Sys2Proof.Machine.execOwRdrom s
  | .owRdpwr => Sys2Proof.Machine.execOwRdpwr s
  | .tmRec => Sys2Proof.Machine.execTmRec s
  | .tmRdy => Sys2Proof.Machine.execTmRdy s
  | .tmAvg => Sys2Proof.Machine.execTmAvg s
  | .tmAlrm a => Sys2Proof.Machine.execTmAlrm a s

end Sys2Proof.Machine
end

