-- ==== Sys2Proof/Machine/Sequencer.lean ====
section
/-! DEFINITION. The hidden command sequencer (10_state.md R41, R43): a command from acceptance to completion
one tick or one line action at a time, as the cycle-level implementation of 60_exceptions.md R174 runs it.
Its encoding is the model's ("Their encoding is left to the implementation; only their effect on the bus
trace and the registers is specified", R41). A phase names the Wait that is running; when TIMER has reached
0 the block records that Wait, performs the actions up to the next Wait, and loads TIMER for it. -/

namespace Sys2Proof.Machine

/-! ## Slots of the current transfer -/

/-- The bit the current write slot sends: bit BITCNT of SHIFT (R106). -/
def currentBit (q : Sequencer) : Bool := q.shift.getLsbD q.bitcnt.toNat

/-- The width of the low pulse that starts the current slot: T_RDL (R105), T_LOW1 (R103) or T_LOW0 (R104). -/
def lowWidth (p : Params) (q : Sequencer) : Micros :=
  if q.reading then p.tRdl else if currentBit q then p.tLow1 else p.tLow0

/-- The Wait that follows the release: T_RDS (R105), or the remainder of the write slot (R103, R104). -/
def releaseWidth (p : Params) (q : Sequencer) : Micros :=
  if q.reading then p.tRds else if currentBit q then p.tSlot - p.tLow1 else p.tSlot - p.tLow0

/-- The remainder of a read slot after its sample (R105). -/
def readRemainder (p : Params) : Micros := p.tSlot - p.tRdl - p.tRds

/-- Enter a phase with its Wait running on the bus `b`. -/
def enter (ph : Phase) (n : Micros) (b : Bus) (s : State) : State :=
  { s with bus := loadTimer n b, seq := { s.seq with phase := ph } }

/-- The start of a slot: `DriveLow()` and the low pulse's Wait. -/
def startSlot (s : State) : State :=
  enter .slotLow (lowWidth s.params s.seq) (driveLow s.bus) s

/-- The start of a byte's write slots (R106). -/
def startWriting (v : Byte) (s : State) : State :=
  startSlot { s with seq := { s.seq with reading := false, bitcnt := 0#3, shift := v } }

/-- The start of a byte's read slots (R107: `r = 0x00`), or of OW.RDPWR's one read slot (R127). -/
def startReading (s : State) : State :=
  startSlot { s with seq := { s.seq with reading := true, bitcnt := 0#3, shift := 0#8 } }

/-- The start of a reset pulse (R102). -/
def startReset (s : State) : State := enter .resetLow s.params.tRstl (driveLow s.bus) s

/-! ## Decode and dispatch, R75 -/

/-- The first action after acceptance: the word is decoded, preconditions are checked (R173), and a bus
command starts its first line action. Monitor commands and faults take no Wait (R212). -/
def dispatch (s : State) : Host.Outcome State Fault Refusal :=
  match decode s.seq.cmd with
  | .error _ => finish (.ok (s, .fault .illegalCommand))
  | .ok .owReset => .next (startReset s)
  | .ok (.owWrb v) =>
    if s.status.txn then .next (startWriting v s) else finish (.ok (s, .fault .noTransaction))
  | .ok .owRdb =>
    if s.status.txn then .next (startReading s) else finish (.ok (s, .fault .noTransaction))
  | .ok .owRdrom => .next (startReset s)
  | .ok .owRdpwr => .next (startReset s)
  | .ok .tmRec => finish (tmRecEffect s)
  | .ok .tmRdy => finish (tmRdyEffect s)
  | .ok .tmAvg => finish (tmAvgEffect s)
  | .ok (.tmAlrm a) => finish (tmAlrmEffect a s)

/-! ## What follows a reset pulse and a byte -/

/-- A reset pulse has succeeded: OW.RESET ends (R123); OW.RDROM and OW.RDPWR send their command byte (R126,
R127). -/
def afterReset (s : State) : Host.Outcome State Fault Refusal :=
  match decode s.seq.cmd with
  | .ok .owReset => finish (.ok (endOwReset s))
  | .ok .owRdrom => .next (startWriting s.params.cmdReadRom s)
  | .ok .owRdpwr => .next (startWriting s.params.cmdReadPower s)
  | _ => .fault .sequencerMismatch

/-- The last write slot of a byte has ended. -/
def afterWrite (s : State) : Host.Outcome State Fault Refusal :=
  match decode s.seq.cmd with
  | .ok (.owWrb _) => finish (.ok (endOwWrb s))
  | .ok .owRdrom => .next (startReading { s with seq := { s.seq with bytecnt := 0#3, romacc := 0#64 } })
  | .ok .owRdpwr => .next (startReading s)
  | _ => .fault .sequencerMismatch

/-- OW.RDROM has received a whole byte: it joins ROMACC as byte BYTECNT (R126), and the next byte or the
validation follows. -/
def afterRomByte (s : State) : State :=
  let acc := setByte s.seq.romacc s.seq.bytecnt.toNat s.seq.shift
  if s.seq.bytecnt = 7#3 then { s with seq := { s.seq with phase := .validate, romacc := acc } }
  else startReading { s with seq := { s.seq with bytecnt := s.seq.bytecnt + 1#3, romacc := acc } }

/-- The last read slot of a transfer has ended. -/
def afterRead (s : State) : Host.Outcome State Fault Refusal :=
  match decode s.seq.cmd with
  | .ok .owRdb => finish (.ok (endOwRdb s.seq.shift s))
  | .ok .owRdrom => .next (afterRomByte s)
  | .ok .owRdpwr => finish (.ok (endOwRdpwr (s.seq.shift.getLsbD 0) s))
  | _ => .fault .sequencerMismatch

/-- The number of the last bit of the current transfer: OW.RDPWR reads one slot (R127), every other transfer
is a byte. -/
def lastBit (q : Sequencer) : BitVec 3 :=
  match q.reading, decode q.cmd with
  | true, .ok .owRdpwr => 0#3
  | _, _ => 7#3

/-- A slot's recovery has ended: the next slot, or the end of the transfer. -/
def afterSlot (s : State) : Host.Outcome State Fault Refusal :=
  if s.seq.bitcnt = lastBit s.seq then (if s.seq.reading then afterRead s else afterWrite s)
  else .next (startSlot { s with seq := { s.seq with bitcnt := s.seq.bitcnt + 1#3 } })

/-! ## Samples -/

/-- R102's presence sample. -/
def presenceSampled (s : State) : Level × Bus → Host.Outcome State Fault Refusal
  | (.high, b) => finish (.ok (endProto .noPresence { s with bus := b }))
  | (.low, b) =>
    .next (enter .presencePoll s.params.tPresPoll b { s with seq := { s.seq with pollcnt := 0#32 } })

/-- One poll of R102's loop. -/
def releasePolled (s : State) : Level × Bus → Host.Outcome State Fault Refusal
  | (.high, b) =>
    .next (enter .resetRecovery s.params.tRstrec b
      { s with seq := { s.seq with pollcnt := s.seq.pollcnt + 1#32 } })
  | (.low, b) =>
    if s.seq.pollcnt + 1#32 = s.params.nPresPoll then
      finish (.ok (endProto .busContention { s with bus := b }))
    else
      .next (enter .presencePoll s.params.tPresPoll b
        { s with seq := { s.seq with pollcnt := s.seq.pollcnt + 1#32 } })

/-- R103's check sample. -/
def highChecked (s : State) : Level × Bus → Host.Outcome State Fault Refusal
  | (.low, b) => finish (.ok (endProto .busContention { s with bus := b }))
  | (.high, b) => .next (enter .slotRecovery s.params.tRec b s)

/-- R105's sample: the bit joins SHIFT as bit BITCNT (R107). -/
def bitSampled (s : State) : Level × Bus → Host.Outcome State Fault Refusal
  | (l, b) =>
    .next (enter .slotSample (readRemainder s.params) b
      { s with seq := { s.seq with shift := setBit s.seq.shift s.seq.bitcnt.toNat (bitOf l) } })

/-! ## One action -/

/-- The next action of the running command, when no Wait is running. It first records the Wait that has elapsed; that
this is done here, and not with the Wait's last tick, is the model's choice (log entry 18). -/
def advance (s : State) : Host.Outcome State Fault Refusal :=
  match s.seq.phase with
  | .idle => .next s
  | .dispatch => dispatch s
  | .resetLow => .next (enter .resetWait s.params.tMsp (release (endWait s.params.tRstl s.bus)) s)
  | .resetWait => presenceSampled s (sample (endWait s.params.tMsp s.bus))
  | .presencePoll => releasePolled s (sample (endWait s.params.tPresPoll s.bus))
  | .resetRecovery => afterReset { s with bus := endWait s.params.tRstrec s.bus }
  | .slotLow =>
    .next (enter .slotRelease (releaseWidth s.params s.seq)
      (release (endWait (lowWidth s.params s.seq) s.bus)) s)
  | .slotRelease =>
    if s.seq.reading then bitSampled s (sample (endWait (releaseWidth s.params s.seq) s.bus))
    else if currentBit s.seq then highChecked s (sample (endWait (releaseWidth s.params s.seq) s.bus))
    else .next (enter .slotRecovery s.params.tRec (endWait (releaseWidth s.params s.seq) s.bus) s)
  | .slotSample =>
    .next (enter .slotRecovery s.params.tRec (endWait (readRemainder s.params) s.bus) s)
  | .slotRecovery => afterSlot { s with bus := endWait s.params.tRec s.bus }
  | .validate =>
    match decode s.seq.cmd with
    | .ok .owRdrom => finish (.ok (endOwRdrom s.seq.romacc s))
    | _ => .fault .sequencerMismatch

/-- The phases in which a Wait runs (R43). -/
def Phase.waits : Phase → Bool
  | .idle => false
  | .dispatch => false
  | .validate => false
  | .resetLow => true
  | .resetWait => true
  | .presencePoll => true
  | .resetRecovery => true
  | .slotLow => true
  | .slotRelease => true
  | .slotSample => true
  | .slotRecovery => true

/-- The Tick source and the Block move once (R6): while a Wait runs and TIMER is not 0, one tick of
`us_tick`; otherwise the next action. An idle block does nothing (R189, R200), nor does one whose `rst` input is
asserted (R200: "While rst is asserted the block performs no line action"). -/
def elapse (s : State) : Host.Outcome State Fault Refusal :=
  if s.rst then .next s
  else if s.seq.phase.waits ∧ s.bus.timer ≠ 0#32 then .next { s with bus := tick s.bus } else advance s

end Sys2Proof.Machine
end

