-- ==== Sys2Proof/Machine/HostPort.lean ====
section
/-! DEFINITION. The host register port and the other inputs of the block (20_memory.md R53, R54,
60_exceptions.md R174, R186): what each event of the outside world does. -/

namespace Sys2Proof.Machine

/-- A command word of an idle block in the atomic model: decoded, then the command runs whole (R174). -/
def execWord (word : CmdWord) (s : State) : Host.Outcome State Fault Refusal :=
  match decode word with
  | .ok i => exec i s
  | .error _ => .next (rejectWord word s)

/-- `OnCmdWrite(w)`, R174. While BUSY = 1 the word is dropped before decode and OVERRUN is recorded. An
idle block runs the whole command in the atomic model, and accepts it in the cycle-level one. -/
def onCmdWrite (word : CmdWord) (s : State) : Host.Outcome State Fault Refusal :=
  if s.status.busy then .next (recordFault .overrun s)
  else
    match s.grain with
    | .atomic => execWord word s
    | .cycle => .next (accept word s)

/-- What a write to each register does, R53 and R54: CMD presents `w[15:0]` as a command (R22), DATA takes the
value (R23), every other index ignores it. -/
def writeRegister (index : Nat) (value : Word) (s : State) : Host.Outcome State Fault Refusal :=
  match index with
  | 0 => onCmdWrite (value.setWidth 16) s
  | 1 => .next { s with data := value }
  | _ => .next s

/-- A host write. While `rst` is asserted it has no effect: the block executes nothing, and DATA keeps the reset
value it has when `rst` is deasserted (R200, R201; log entry 6). -/
def hostWrite (index : Nat) (value : Word) (s : State) : Host.Outcome State Fault Refusal :=
  if s.rst then .next s else writeRegister index value s

/-- One read of the host's WAITDONE loop (R77): it reads STATUS, and while DONE = 0 the block moves on and
the loop stays pending. -/
def hostWaitDone (s : State) : Host.Outcome State Fault Refusal :=
  if s.status.done then .next (hostRead (regIndex .status) s)
  else elapse { hostRead (regIndex .status) s with pending := .waitDone :: s.pending }

/-- What one event does. -/
def perform (e : Event) (s : State) : Host.Outcome State Fault Refusal :=
  match e with
  | .write index value => hostWrite index value s
  | .read index => .next (hostRead index s)
  | .waitDone => hostWaitDone s
  | .rst level => .next (driveRst level s)
  | .elapse => elapse s

/-- The oldest pending event takes place (R58: "host accesses take effect in the order the host issues
them"); with none pending, time passes. -/
def serve (s : State) : Host.Outcome State Fault Refusal :=
  match s.pending with
  | [] => elapse s
  | e :: rest => perform e { s with pending := rest }

/-- The state in which the next thing that happens is a host write of this command word to CMD, and it is
accepted: `rst` is deasserted, BUSY is 0, the sequencer idle, and the machine runs whole commands. -/
def presentWord (word : CmdWord) (s : State) : State :=
  { s with
    status := { s.status with busy := false }
    seq := Sequencer.idle
    rst := false
    grain := .atomic
    pending := .write (regIndex .cmd) (word.setWidth 64) :: s.pending }

/-! ## Narrower and byte-addressed adapters, R51 and R57 -/

/-- The write event of a byte-addressed adapter (R51), if the address is one it presents. -/
def writeAtByteAddress (a value : Word) : Option Event :=
  match indexOfByteAddress a with
  | some i => some (.write i value)
  | none => none

/-- The read event of a byte-addressed adapter (R51). -/
def readAtByteAddress (a : Word) : Option Event :=
  match indexOfByteAddress a with
  | some i => some (.read i)
  | none => none

/-- The one write a narrower adapter presents for the byte lanes it collected, when it has all eight (R57). -/
def writeLanes (index : Nat) (lanes : List Byte) : Option Event :=
  match wordOfLanes lanes with
  | some v => some (.write index v)
  | none => none

end Sys2Proof.Machine
end

