-- ==== Sys2Proof/Machine/Step.lean ====
section
/-! DEFINITION. One step of the OWTM, and how a command word is put where the next step takes it. The block
fetches nothing (10_state.md R20): a command is the value the host writes to CMD. -/

namespace Sys2Proof.Machine

/-- One step: the outside world's next event takes place, or time passes. A build that is not well formed is
refused (R13). -/
def step (s : State) : Host.Outcome State Fault Refusal :=
  if s.params.WellFormed then serve s else .refused .illFormedBuild

/-- The state whose next step is the host write of this word to CMD (log entry 5). -/
def State.withFetchWord (s : State) (nbits w : Nat) : State :=
  presentWord (BitVec.ofNat 16 (w % 2 ^ nbits)) s

end Sys2Proof.Machine
end

