-- ==== Sys2Proof/Machine/Assembler.lean ====
section
/-! DEFINITION. The assembler of 30_encoding.md R77 and R78: an assembler line as the host actions it stands
for, and the spelling of a line as characters. -/

namespace Sys2Proof.Machine

/-! ## Lines as host actions -/

/-- The command of a mnemonic line (R77); none where the operand is not the one the mnemonic takes. -/
def commandOf (m : Mnemonic) (operand : Option Nat) : Option Instr :=
  if m.operandOk operand then
    match m with
    | .owReset => some .owReset
    | .owWrb => some (.owWrb (BitVec.ofNat 8 (operand.getD 0)))
    | .owRdb => some .owRdb
    | .owRdrom => some .owRdrom
    | .owRdpwr => some .owRdpwr
    | .tmRec => some .tmRec
    | .tmRdy => some .tmRdy
    | .tmAvg => some .tmAvg
    | .tmAlrm => some (.tmAlrm (operand.getD 0 == 1))
  else none

/-- `M x` "is shorthand for `WR CMD, <encoding of M x>`" (R77). -/
def commandEvent (i : Instr) : Event := .write (regIndex .cmd) ((encode i).setWidth 64)

/-- The host actions a line stands for (R77, R78); none for an ill-formed line. -/
def assemble (l : AsmLine) : Option (List Event) :=
  if l.wellFormed then
    match l with
    | .command m o => (commandOf m o).map fun i => [commandEvent i]
    | .tmRecf f => some [.write (regIndex .data) (F64.ofDecimal f), commandEvent .tmRec]
    | .tmAlarm => some [commandEvent (.tmAlrm false)]
    | .wr r v => some [.write (regIndex r) (BitVec.ofNat 64 v)]
    | .rd r => some [.read (regIndex r)]
    | .waitDone => some [.waitDone]
    | .blank => some []
  else none

/-! ## The spelling of a line, R77 -/

/-- The characters of a line before a comment: "`;` starts a comment". -/
def stripComment (cs : List Char) : List Char := cs.takeWhile (fun c => c ≠ ';')

/-- Whether a character separates the words of a line (log entry 14). -/
def isBlank (c : Char) : Bool := c = ' ' || c = '\t'

/-- Split a line into its words, a comma standing as a word of its own. -/
def wordsOf : List Char → List (List Char)
  | [] => []
  | c :: cs =>
    if isBlank c then [] :: wordsOf cs
    else if c = ',' then [] :: [','] :: wordsOf cs
    else
      match wordsOf cs with
      | [] => [[c]]
      | w :: ws => if w = [','] then [c] :: w :: ws else (c :: w) :: ws

/-- The words of a line that are not empty. -/
def lineWords (cs : List Char) : List (List Char) :=
  (wordsOf (stripComment cs)).filter (fun w => !w.isEmpty)

/-- A decimal digit's value. -/
def decDigit (c : Char) : Option Nat :=
  if '0' ≤ c ∧ c ≤ '9' then some (c.toNat - '0'.toNat) else none

/-- A hexadecimal digit's value. -/
def hexDigit (c : Char) : Option Nat :=
  if '0' ≤ c ∧ c ≤ '9' then some (c.toNat - '0'.toNat)
  else if 'a' ≤ c ∧ c ≤ 'f' then some (c.toNat - 'a'.toNat + 10)
  else if 'A' ≤ c ∧ c ≤ 'F' then some (c.toNat - 'A'.toNat + 10)
  else none

/-- Read digits in a base, onto the value read so far. -/
def digitsFrom (digit : Char → Option Nat) (base : Nat) : Nat → List Char → Option Nat
  | n, [] => some n
  | n, c :: cs =>
    match digit c with
    | some d => digitsFrom digit base (n * base + d) cs
    | none => none

/-- A nonempty run of digits. -/
def digits (digit : Char → Option Nat) (base : Nat) (cs : List Char) : Option Nat :=
  if cs.isEmpty then none else digitsFrom digit base 0 cs

/-- "an integer ... written in decimal or as `0x` followed by hexadecimal digits" (R77). -/
def parseInteger : List Char → Option Nat
  | '0' :: 'x' :: cs => digits hexDigit 16 cs
  | cs => digits decDigit 10 cs

/-- A decimal literal without its sign, `123` or `12.5` (log entry 14). -/
def parseUnsigned (negative : Bool) (cs : List Char) : Option Decimal :=
  let whole := cs.takeWhile (fun c => c ≠ '.')
  match cs.dropWhile (fun c => c ≠ '.') with
  | [] => (digits decDigit 10 whole).map fun n => ⟨negative, n, 0⟩
  | _ :: frac =>
    match digits decDigit 10 whole, digits decDigit 10 frac with
    | some _, some _ => (digits decDigit 10 (whole ++ frac)).map fun n => ⟨negative, n, -(frac.length : Int)⟩
    | _, _ => none

/-- A decimal binary64 literal (R78). -/
def parseDecimal : List Char → Option Decimal
  | '-' :: cs => parseUnsigned true cs
  | cs => parseUnsigned false cs

/-- The mnemonics' spelling, "in upper case" (R72, R77). -/
def mnemonicNames : List (List Char × Mnemonic) :=
  [ (['O','W','.','R','E','S','E','T'], .owReset), (['O','W','.','W','R','B'], .owWrb),
    (['O','W','.','R','D','B'], .owRdb), (['O','W','.','R','D','R','O','M'], .owRdrom),
    (['O','W','.','R','D','P','W','R'], .owRdpwr), (['T','M','.','R','E','C'], .tmRec),
    (['T','M','.','R','D','Y'], .tmRdy), (['T','M','.','A','V','G'], .tmAvg),
    (['T','M','.','A','L','R','M'], .tmAlrm) ]

/-- The registers' names, R21. -/
def regNames : List (List Char × Reg) :=
  [ (['C','M','D'], .cmd), (['D','A','T','A'], .data), (['R','E','S','U','L','T'], .result),
    (['S','T','A','T','U','S'], .status), (['R','O','M'], .rom), (['H','I','S','T'], .hist),
    (['C','O','N','F','I','G'], .config), (['T','H','R','E','S','H'], .thresh) ]

/-- A line of one word. -/
def parseWord (w : List Char) : Option AsmLine :=
  if w = ['T','M','.','A','L','A','R','M'] then some .tmAlarm
  else if w = ['W','A','I','T','D','O','N','E'] then some .waitDone
  else (mnemonicNames.lookup w).map fun m => .command m none

/-- A line of a word and its operand. R77 writes TM.ALRM's operand as `0` or `1`: that any integer spelling of these
values (`0x0`, `0x1`, `00`, `01`) is taken too is the model's choice (log entry 14). -/
def parseOperand (w x : List Char) : Option AsmLine :=
  if w = ['T','M','.','R','E','C','F'] then (parseDecimal x).map .tmRecf
  else if w = ['R','D'] then (regNames.lookup x).map .rd
  else
    match mnemonicNames.lookup w, parseInteger x with
    | some m, some n => some (.command m (some n))
    | _, _ => none

/-- An assembler line from its characters, R77 and R78; none where it is not a line of the assembler. -/
def parseLine (cs : List Char) : Option AsmLine :=
  match lineWords cs with
  | [] => some .blank
  | [w] => parseWord w
  | [w, x] => parseOperand w x
  | [w, r, [','], v] =>
    if w = ['W','R'] then
      match regNames.lookup r, parseInteger v with
      | some r, some n => some (.wr r n)
      | _, _ => none
    else none
  | _ => none

end Sys2Proof.Machine
end

