-- ==== Sys2Proof/Safety.lean ====
section
/-! DEFINITION. The terms in which claims speak: the bus traces of the micro-operations in closed form
(40_onewire_slots.md), what a trace says (its duration, the line it leaves), the invariant of the
machine, an unfaulted run (60_exceptions.md R171) and the host's obligations (70_reset_and_hazards.md R203 to
R205). No step calls anything of this file. -/

namespace Sys2Proof.Machine

/-! ## What a trace says -/

/-- The sum of the Wait times of a trace, in microseconds (R212). -/
def traceTime : List LineAction → Nat
  | [] => 0
  | .driveLow :: t => traceTime t
  | .release :: t => traceTime t
  | .wait n :: t => n.toNat + traceTime t
  | .sample _ :: t => traceTime t

/-- The line after a trace that began with LINE_DRV = `d`; none if the line was sampled while the block
drove it low, which R110 forbids. -/
def lineAfter : List LineAction → Bool → Option Bool
  | [], d => some d
  | .driveLow :: t, _ => lineAfter t true
  | .release :: t, _ => lineAfter t false
  | .wait _ :: t, d => lineAfter t d
  | .sample _ :: t, d => if d then none else lineAfter t d

/-! ## Traces of the micro-operations -/

/-- R102 up to the presence sample. -/
def resetHeadTrace (p : Params) : List LineAction :=
  [.driveLow, .wait p.tRstl, .release, .wait p.tMsp]

/-- `n` release polls that read Low (R102). -/
def lowPolls (p : Params) : Nat → List LineAction
  | 0 => []
  | n + 1 => .wait p.tPresPoll :: .sample .low :: lowPolls p n

/-- ResetPulse that ends NO_PRESENCE (R102). -/
def noPresenceTrace (p : Params) : List LineAction := resetHeadTrace p ++ [.sample .high]

/-- ResetPulse that ends Ok after `n` polls read Low and the next read High (R102). -/
def resetOkTrace (p : Params) (n : Nat) : List LineAction :=
  resetHeadTrace p ++ .sample .low :: lowPolls p n ++ [.wait p.tPresPoll, .sample .high, .wait p.tRstrec]

/-- ResetPulse that ends BUS_CONTENTION: every poll read Low (R102). -/
def stuckLowTrace (p : Params) : List LineAction :=
  resetHeadTrace p ++ .sample .low :: lowPolls p p.nPresPoll.toNat

/-- A write-1 slot whose check sample read High (R103). -/
def write1Trace (p : Params) : List LineAction :=
  [.driveLow, .wait p.tLow1, .release, .wait (p.tSlot - p.tLow1), .sample .high, .wait p.tRec]

/-- A write-1 slot whose check sample read Low: the recovery wait is not performed (R103). -/
def write1FailTrace (p : Params) : List LineAction :=
  [.driveLow, .wait p.tLow1, .release, .wait (p.tSlot - p.tLow1), .sample .low]

/-- A write-0 slot (R104). -/
def write0Trace (p : Params) : List LineAction :=
  [.driveLow, .wait p.tLow0, .release, .wait (p.tSlot - p.tLow0), .wait p.tRec]

/-- A read slot that sampled `l` (R105). -/
def readSlotTrace (p : Params) (l : Level) : List LineAction :=
  [.driveLow, .wait p.tRdl, .release, .wait p.tRds, .sample l, .wait (p.tSlot - p.tRdl - p.tRds), .wait p.tRec]

/-- The slots of the bits `ks` of `v`, none failing (R106). -/
def writeBitsTrace (p : Params) (v : Byte) (ks : List Nat) : List LineAction :=
  ks.flatMap fun k => if v.getLsbD k then write1Trace p else write0Trace p

/-- The read slots of the levels `ls`, in order (R107). -/
def readTrace (p : Params) (ls : List Level) : List LineAction := ls.flatMap (readSlotTrace p)

/-- How many of the bits `ks` of `v` are 1: the check samples that sending them takes (R103, R104). -/
def checksOf (v : Byte) (ks : List Nat) : Nat := ks.countP fun k => v.getLsbD k

/-- The levels that carry the bits of a value, bit 0 first (R55, R56). -/
def levelsOfByte (r : Byte) : List Level := (List.range 8).map fun k => levelOf (r.getLsbD k)

/-- The levels that carry the bits of a DeviceRom, bit 0 first (R56). -/
def levelsOfRom (r : Word) : List Level := (List.range 64).map fun k => levelOf (r.getLsbD k)

/-- The bus after line actions that took `n` samples, left the line released and no Wait running, and
recorded the trace `t`. -/
def Bus.after (b : Bus) (n : Nat) (t : List LineAction) : Bus :=
  { lineDrv := false
    timer := 0#32
    env := b.env.drop n
    sampled := b.sampled + n
    trace := b.trace ++ t }

/-! ## What the environment answers -/

/-- The environment answers a reset pulse with presence, and releases the line after `n` polls that read
Low (R102). -/
def Bus.answersPresence (b : Bus) (p : Params) (n : Nat) : Prop :=
  n < p.nPresPoll.toNat ∧ (∀ k ≤ n, b.answer k = .low) ∧ b.answer (n + 1) = .high

/-- The environment holds the line low from the presence sample to the last poll (R102). -/
def Bus.answersStuckLow (b : Bus) (p : Params) : Prop := ∀ k ≤ p.nPresPoll.toNat, b.answer k = .low

/-- From the sample number `at_` on, the environment answers `n` check samples High (R103). -/
def Bus.answersHigh (b : Bus) (at_ n : Nat) : Prop := ∀ k < n, b.answer (at_ + k) = .high

/-- From the sample number `at_` on, the environment answers the levels `ls`. -/
def Bus.answersLevels (b : Bus) (at_ : Nat) (ls : List Level) : Prop :=
  ∀ k (h : k < ls.length), b.answer (at_ + k) = ls[k]

/-! ## STATUS after a command -/

/-- STATUS after a command that ended Ok, all fields but these as they were (R175). -/
def Status.endedOk (st : Status) (txn : Bool) : Status :=
  { st with busy := false, done := true, err := 0x0#4, txn := txn }

/-- STATUS after a bus command that ended in a protocol error (R175, R176). -/
def Status.endedProto (st : Status) (code : BitVec 4) : Status :=
  { st with busy := false, done := true, err := code, txn := false }

/-- STATUS after a command that ended in a fault (R172, R175, R177). -/
def Status.endedFault (st : Status) (code : BitVec 4) : Status :=
  { st with
    busy := false
    done := true
    err := code
    fault := true
    fcause := if st.fault then st.fcause else code }

/-! ## The invariant -/

/-- Whether the latched command sends a reset pulse (R123, R126, R127). -/
def pulses (q : Sequencer) : Bool :=
  match decode q.cmd with
  | .ok .owReset => true
  | .ok .owRdrom => true
  | .ok .owRdpwr => true
  | _ => false

/-- Whether the latched command has slots of the kind the sequencer is running (R124 to R127). -/
def transfers (q : Sequencer) : Bool :=
  match decode q.cmd, q.reading with
  | .ok (.owWrb _), false => true
  | .ok .owRdb, true => true
  | .ok .owRdrom, _ => true
  | .ok .owRdpwr, _ => true
  | _, _ => false

/-- Whether the sequencer's phase belongs to its latched command. -/
def Sequencer.coherent (p : Params) (q : Sequencer) : Prop :=
  match q.phase with
  | .idle => True
  | .dispatch => True
  | .resetLow => pulses q = true
  | .resetWait => pulses q = true
  | .presencePoll => pulses q = true ∧ q.pollcnt.toNat < p.nPresPoll.toNat
  | .resetRecovery => pulses q = true
  | .slotLow => transfers q = true
  | .slotRelease => transfers q = true
  | .slotSample => transfers q = true ∧ q.reading = true
  | .slotRecovery => transfers q = true
  | .validate => decode q.cmd = .ok .owRdrom

/-- What holds of every state a run from reset reaches. -/
structure State.Inv (s : State) : Prop where
  /-- The build is well formed (R13). -/
  build : s.params.WellFormed
  /-- The history is a file of HIST_N slots (R38). -/
  slotCount : s.slots.length = s.params.histN.toNat
  /-- R40: `0 <= FILL <= HIST_N`. -/
  fillBound : s.fill.toNat ≤ s.params.histN.toNat
  /-- R39: `0 <= CURSOR < HIST_N`. -/
  cursorBound : s.cursor.toNat < s.params.histN.toNat
  /-- R40: "while FILL < HIST_N, CURSOR = FILL". -/
  cursorFill : s.fill.toNat < s.params.histN.toNat → s.cursor = s.fill
  /-- R40: slots `H[0..FILL-1]` are written. -/
  written : ∀ i < s.fill.toNat, ∃ v, s.slots[i]? = some (some v)
  /-- R40: "and the others unwritten". -/
  unwritten : ∀ i, s.fill.toNat ≤ i → i < s.params.histN.toNat → s.slots[i]? = some none
  /-- R29: READY "always equals `(FILL == HIST_N)`". -/
  ready : s.status.ready = (s.fill == s.params.histN)
  /-- R129: "The ROM register only ever holds a value that passed ValidateRom". -/
  romValid : s.status.romv = true → validateRom s.params s.rom = .ok ()
  /-- R34: ROM is 0 while ROMV is 0. -/
  romZero : s.status.romv = false → s.rom = 0#64
  /-- R33: FCAUSE is 0x0 until the first fault. -/
  causeZero : s.status.fault = false → s.status.fcause = 0x0#4
  /-- R33: after it FCAUSE is a fault code, 0x8 to 0xB. -/
  causeCode : s.status.fault = true → 0x8#4 ≤ s.status.fcause ∧ s.status.fcause ≤ 0xB#4
  /-- R170: ERR is a code a command can end with; OVERRUN is "never written to ERR". -/
  errCode : s.status.err ≤ 0x4#4 ∨ (0x8#4 ≤ s.status.err ∧ s.status.err ≤ 0xA#4)
  /-- R26: BUSY is 1 from acceptance to completion. -/
  busyPhase : s.status.busy = (s.seq.phase != .idle)
  /-- R27: DONE is 0 from acceptance to completion. -/
  busyDone : s.status.busy = true → s.status.done = false
  /-- R42, R109: the line is driven low only during a low pulse, so never while the block is idle. -/
  lineLow : s.bus.lineDrv = (s.seq.phase == .resetLow || s.seq.phase == .slotLow)
  /-- R110: the trace never samples the line while it is driven low, and it leaves LINE_DRV as it is. -/
  traceLine : lineAfter s.bus.trace false = some s.bus.lineDrv
  /-- R200: while `rst` is asserted the line is released and the block idle; that the registers then already have their
  reset values is the model's reading (log entry 6). -/
  held : s.rst = true → s.data = 0#64 ∧ s.result = 0#64 ∧ s.status = Status.reset ∧ s.fill = 0#16 ∧
    s.bus.lineDrv = false ∧ s.seq.phase = .idle
  /-- The sequencer's phase belongs to its command (R41). -/
  sequence : s.seq.coherent s.params

/-! ## Runs -/

/-- The next thing that happens is not that the platform drives `rst`. -/
def State.noReset (s : State) : Prop := ∀ level, s.pending.head? ≠ some (.rst level)

/-- `n` steps of the machine, up to the first stop. -/
def runSteps : Nat → State → Host.Outcome State Fault Refusal
  | 0, s => .next s
  | n + 1, s =>
    match step s with
    | .next t => runSteps n t
    | .fault f => .fault f
    | .refused r => .refused r

/-! ## Hidden state -/

/-- The state with other hidden sequencer fields and another TIMER (R41, R43). -/
def State.withHidden (s : State) (q : Sequencer) (τ : Micros) : State :=
  { s with seq := q, bus := { s.bus with timer := τ } }

/-- Two states agree on everything but the hidden fields of the sequencer: they are in the same phase, and alike once
these fields and TIMER are set apart (R41, R201). -/
def State.agrees (s t : State) : Prop := s.seq.phase = t.seq.phase ∧ s.withHidden t.seq t.bus.timer = t

/-! ## Safe runs -/

/-- A state is unfaulted while no contract violation has been recorded: "A model treats a state with FAULT =
1 as faulted: never a good final state" (R30, R171). -/
def State.unfaulted (s : State) : Bool := !s.status.fault

/-- Whether a command word meets its contract in a state: it is a command (R73, R74), a byte transfer has
an open transaction (R203 item 4), and an average has a full history (R203 item 5). -/
def meetsContract (word : CmdWord) (s : State) : Bool :=
  match decode word with
  | .ok (.owWrb _) => s.status.txn
  | .ok .owRdb => s.status.txn
  | .ok .tmAvg => s.fill == s.params.histN
  | .ok _ => true
  | .error _ => false

/-- Whether an event keeps the host's obligations: CMD is written only while BUSY = 0 (R205), with a word
that meets its contract. -/
def Event.keepsContract (e : Event) (s : State) : Bool :=
  match e with
  | .write 0 v => !s.status.busy && meetsContract (v.setWidth 16) s
  | _ => true

/-- An unfaulted state whose command waiting for decode, if there is one, meets its contract. -/
def State.onContract (s : State) : Prop :=
  s.unfaulted = true ∧ (s.seq.phase = .dispatch → meetsContract s.seq.cmd s = true)

/-! ## Recorded samples -/

/-- The host records one sample: it writes DATA, then the command TM.REC (R208), with no other action between. -/
def recordSample (v : Word) (s : State) : Host.Outcome State Fault Refusal :=
  exec .tmRec { s with data := v }

/-- The host records the samples in order (R157). -/
def recordAll : List Word → State → Host.Outcome State Fault Refusal
  | [], s => .next s
  | v :: vs, s =>
    match recordSample v s with
    | .next t => recordAll vs t
    | .fault f => .fault f
    | .refused r => .refused r

/-! ## Nearest binary64 values -/

/-- The distance from `num / den` units to the magnitude bits `m`, times `den`. -/
def F64.distance (num den m : Nat) : Nat :=
  max num (F64.unitsOfMag m * den) - min num (F64.unitsOfMag m * den)

/-- `m` is `num / den` units rounded to nearest, ties to even (R18): no magnitude is nearer, and one as near
has an odd significand or is `m`. Infinity stands for 2^1024, the next value after the greatest finite one, and
takes everything from there up. -/
def F64.isNearest (num den m : Nat) : Prop :=
  m ≤ F64.infBits ∧
  (num < F64.unitsOfMag F64.infBits * den →
    ∀ m' ≤ F64.infBits, F64.distance num den m ≤ F64.distance num den m' ∧
      (F64.distance num den m = F64.distance num den m' → m' ≠ m → m % 2 = 0)) ∧
  (F64.unitsOfMag F64.infBits * den ≤ num → m = F64.infBits)

end Sys2Proof.Machine
end

