-- ==== Sys2Proof/Certificates/Slice0/Obligations.lean ====
section
/-! DEFINITION. The statements for the provers: what the numbered rules of the spec say of this model. A next
state is given as an equality, so that each statement of a command's result is its completion and its frame as
well. Of the hidden sequencer after a command they say that it is idle and no more (`q.phase = .idle`): its other
fields are unspecified (R201, log entry 1). The Bus environment's answers stand in `bus` (log entry 2), and every
statement holds whatever they are. -/

open Sys2Proof Sys2Proof.Machine

/-! ## Builds, reset and the register port -/

/-- R13: a build with parameters that are not well formed is refused, by every step and every command. -/
def Obligations.IllFormedBuildIsRefused : Prop :=
  ∀ (i : Instr) (s : State),
    ¬ (1 ≤ s.params.nPresPoll.toNat ∧ s.params.tLow1.toNat < s.params.tSlot.toNat ∧
        s.params.tLow0.toNat < s.params.tSlot.toNat ∧
        s.params.tRdl.toNat + s.params.tRds.toNat ≤ s.params.tSlot.toNat ∧
        1 ≤ s.params.histN.toNat ∧ s.params.histN.toNat ≤ 65535) →
    step s = .refused .illFormedBuild ∧ exec i s = .refused .illFormedBuild

/-- R201: what reset leaves, in every build; a run's trace starts empty and a later reset does not erase it. The
hidden fields R201 calls unspecified are not stated. -/
def Obligations.ResetGivesTheResetValues : Prop :=
  ∀ p : Params, ∀ s : State, s = State.resetWith p →
    s.data = 0#64 ∧ s.result = 0#64 ∧ regRead 3 s = 0#64 ∧ s.rom = 0#64 ∧ s.status.romv = false ∧
    s.fill = 0#16 ∧ s.cursor = 0#16 ∧ s.params = p ∧
    s.slots.length = p.histN.toNat ∧ (∀ i < p.histN.toNat, s.slots[i]? = some none) ∧
    s.bus.lineDrv = false ∧ s.seq.phase = .idle ∧ s.bus.trace = [] ∧
    ∀ u : State, u.bus.trace <+: (hardReset u).bus.trace

/-- R200, R201, R202: asserting `rst`, at any moment, and deasserting it after it was asserted, gives every visible
register its reset value, releases the line, makes the block idle, and keeps the trace; a line that was driven low is
recorded as Release. Driving a deasserted `rst` low changes nothing. That the outside world's part stays, and that a
Wait cut short, or elapsed (TIMER = 0) with the block's next move still to come, is not recorded, is the model's choice
(log entries 6 and 18). -/
def Obligations.HardwareResetAbortsTheCommand : Prop :=
  ∀ (s : State) (level : Bool) (rest : List Event), s.params.WellFormed → s.pending = .rst level :: rest →
    (level = true ∨ s.rst = true →
      ∃ t, step s = .next t ∧ t.rst = level ∧
        t.params = s.params ∧ t.data = 0#64 ∧ t.result = 0#64 ∧ regRead 3 t = 0#64 ∧ t.rom = 0#64 ∧
        t.fill = 0#16 ∧ t.cursor = 0#16 ∧ t.slots = List.replicate s.params.histN.toNat none ∧
        t.bus.lineDrv = false ∧ t.seq.phase = .idle ∧
        t.bus.trace = s.bus.trace ++ (if s.bus.lineDrv then [.release] else []) ∧
        t.bus.env = s.bus.env ∧ t.pending = rest ∧ t.reads = s.reads) ∧
    (level = false → s.rst = false → step s = .next { s with pending := rest })

/-- R200: while `rst` is asserted the block does nothing: time passes, and a host write, of a command too, comes and
goes, with no line action and no other change. That a write has no effect then is the model's reading (log entry 6).
The values that hold meanwhile are those of the invariant (`State.Inv.held`). -/
def Obligations.HeldResetDoesNothing : Prop :=
  ∀ (s : State) (rest : List Event), s.params.WellFormed → s.rst = true →
    (s.pending = [] → step s = .next s) ∧
    (s.pending = .elapse :: rest → step s = .next { s with pending := rest }) ∧
    (∀ (i : Nat) (v : Word), s.pending = .write i v :: rest → step s = .next { s with pending := rest })

/-- R53, R54: a host read of any index returns the register and changes nothing of the block; CMD and every
index outside 0..7 read as 0. -/
def Obligations.HostReadHasNoEffect : Prop :=
  ∀ (s : State) (i : Nat) (rest : List Event), s.params.WellFormed → s.pending = .read i :: rest →
    ∃ v, step s = .next { s with pending := rest, reads := s.reads ++ [(i, v)] } ∧
      (i = 0 → v = 0#64) ∧ (i = 1 → v = s.data) ∧ (i = 2 → v = s.result) ∧ (i = 3 → v = s.status.word) ∧
      (i = 4 → v = s.rom) ∧ (i = 5 → v = histWord s.fill s.cursor) ∧ (i = 6 → v = configWord s.params) ∧
      (i = 7 → v = s.params.maxTemp) ∧ (7 < i → v = 0#64)

/-- R25, R35, R36: where each field stands in STATUS, HIST and CONFIG, and that every other bit reads 0. -/
def Obligations.PackedRegisterLayouts : Prop :=
  ∀ s : State,
    ((regRead 3 s).getLsbD 0 = s.status.busy ∧ (regRead 3 s).getLsbD 1 = s.status.done ∧
      (regRead 3 s).getLsbD 2 = s.status.txn ∧ (regRead 3 s).getLsbD 3 = s.status.ready ∧
      (regRead 3 s).getLsbD 4 = s.status.fault ∧ (regRead 3 s).getLsbD 5 = s.status.romv ∧
      (regRead 3 s).extractLsb' 6 2 = 0#2 ∧ (regRead 3 s).extractLsb' 8 4 = s.status.err ∧
      (regRead 3 s).extractLsb' 12 4 = s.status.fcause ∧ (regRead 3 s).extractLsb' 16 48 = 0#48) ∧
    ((regRead 5 s).extractLsb' 0 16 = s.fill ∧ (regRead 5 s).extractLsb' 16 16 = s.cursor ∧
      (regRead 5 s).extractLsb' 32 32 = 0#32) ∧
    ((regRead 6 s).extractLsb' 0 16 = s.params.histN ∧ (regRead 6 s).extractLsb' 16 8 = s.params.familyCode ∧
      (regRead 6 s).extractLsb' 24 8 = s.params.cmdReadRom ∧
      (regRead 6 s).extractLsb' 32 8 = s.params.cmdReadPower ∧ (regRead 6 s).extractLsb' 40 24 = 0#24)

/-- R53, R54: a host write to DATA stores the value, while a command runs too, and a write to any index but CMD and
DATA is ignored. -/
def Obligations.HostWriteStoresOnlyData : Prop :=
  ∀ (s : State) (i : Nat) (v : Word) (rest : List Event), s.params.WellFormed → s.rst = false →
    s.pending = .write i v :: rest → i ≠ 0 →
    (i = 1 → step s = .next { s with pending := rest, data := v }) ∧
    (i ≠ 1 → step s = .next { s with pending := rest })

/-- R51, R57: a byte-addressed adapter presents the index `byte_address[5:3]`, which is one of the eight, and
the eight byte lanes of a value, put together, are one write of that value. That an aligned address presents one
access is R51; what an unaligned one does is the model's choice (log entry 16) and is not stated. -/
def Obligations.AdaptersPresentRegisters : Prop :=
  (∀ (a v : Word), a.toNat % 8 = 0 →
    writeAtByteAddress a v = some (.write (a.toNat / 8 % 8) v) ∧
    readAtByteAddress a = some (.read (a.toNat / 8 % 8))) ∧
  (∀ (i : Nat) (v : Word), writeLanes i ((List.range 8).map (byteOf v)) = some (.write i v))

/-- R200, R101: an idle block does nothing by itself: while the host does nothing, nothing changes. How time
passes is the model's reading (log entry 9). -/
def Obligations.IdleBlockDoesNothing : Prop :=
  ∀ (s : State) (rest : List Event), s.params.WellFormed → s.seq.phase = .idle →
    (s.pending = [] → step s = .next s) ∧
    (s.pending = .elapse :: rest → step s = .next { s with pending := rest })

/-- R77: WAITDONE reads STATUS; with DONE = 1 it is over at once, and with DONE = 0 it stays pending while the
block moves on. One poll for each move of the block is the model's reading (log entry 17). -/
def Obligations.WaitDonePollsStatus : Prop :=
  ∀ (s : State) (rest : List Event), s.params.WellFormed → s.pending = .waitDone :: rest →
    (s.status.done = true →
      step s = .next { s with pending := rest, reads := s.reads ++ [(3, regRead 3 s)] }) ∧
    (s.status.done = false →
      step s = step { s with pending := .elapse :: .waitDone :: rest, reads := s.reads ++ [(3, regRead 3 s)] })

/-! ## Encoding -/

/-- R72, R75: sanity: words written out from the opcode map, one or more of each family. -/
def Obligations.WordsOfTheOpcodeMapDecode : Prop :=
  decode 0x0100#16 = .ok .owReset ∧ decode 0x0233#16 = .ok (.owWrb 0x33#8) ∧
  decode 0x0400#16 = .ok .owRdrom ∧ decode 0x1100#16 = .ok .tmRec ∧
  decode 0x1400#16 = .ok (.tmAlrm false) ∧ decode 0x1401#16 = .ok (.tmAlrm true)

/-- R72, R75, R77: decode and encode agree: the words that decode to a command, with every value of its operand,
are exactly its encoding. -/
def Obligations.DecodeAndEncodeAgree : Prop :=
  ∀ (w : CmdWord) (i : Instr), decode w = .ok i ↔ w = encode i

/-- R72: "A command word decodes to a command when `(word & mask) == match`; exactly one row matches each
legal word." The operand of OW.WRB is the byte IMM, that of TM.ALRM is IMM[0]. -/
def Obligations.DecodeFollowsTheOpcodeMap : Prop :=
  ∀ w : CmdWord,
    (∀ i, decode w = .ok i →
      (∀ b, i = .owWrb b → b = w.extractLsb' 0 8) ∧ (∀ a, i = .tmAlrm a → a = w.getLsbD 0) ∧
      ∃ r ∈ opcodeMap, r.matchesWord w = true ∧ r.mnemonic = i.mnemonic ∧
        ∀ r' ∈ opcodeMap, r'.matchesWord w = true → r' = r) ∧
    ((∃ r ∈ opcodeMap, r.matchesWord w = true) → ∃ i, decode w = .ok i)

/-- R73, R74: an opcode outside the map, and a nonzero must-be-zero IMM bit, make a word illegal; on an idle
block it ends with ILLEGAL_COMMAND (0xA) and has no effect but STATUS. -/
def Obligations.IllegalWordOnlyFaults : Prop :=
  ∀ (s : State) (v : Word) (rest : List Event), s.params.WellFormed → s.rst = false → s.status.busy = false →
    s.grain = .atomic → s.pending = .write 0 v :: rest →
    (v.toNat / 256 % 256 ∉ [0x01, 0x02, 0x03, 0x04, 0x05, 0x11, 0x12, 0x13, 0x14] ∨
      (v.toNat / 256 % 256 ∈ [0x01, 0x03, 0x04, 0x05, 0x11, 0x12, 0x13] ∧ v.toNat % 256 ≠ 0) ∨
      (v.toNat / 256 % 256 = 0x14 ∧ v.toNat % 256 / 2 ≠ 0)) →
    ∃ q, q.phase = .idle ∧ step s = .next { s with
      pending := rest
      seq := q
      status := { s.status with
        busy := false
        done := true
        err := 0xA#4
        fault := true
        fcause := if s.status.fault then s.status.fcause else 0xA#4 } }

/-- R77, R78: a well-formed mnemonic line is one write to CMD of the encoding of the command it names, with the
operand that was written; the two pseudo-instructions expand as R78 says. -/
def Obligations.AssemblerLines : Prop :=
  (∀ (m : Mnemonic) (o : Option Nat), (AsmLine.command m o).wellFormed = true →
    ∃ i, assemble (.command m o) = some [.write 0 ((encode i).setWidth 64)] ∧ i.mnemonic = m ∧
      (∀ b, i = .owWrb b → o = some b.toNat) ∧ (∀ a, i = .tmAlrm a → o = some a.toNat)) ∧
  (∀ f : Decimal, assemble (.tmRecf f) = some [.write 1 (F64.ofDecimal f), .write 0 0x1100#64]) ∧
  assemble .tmAlarm = some [.write 0 0x1400#64]

/-! ## The command lifecycle -/

/-- R174, R22: on an idle block in the atomic model a host write to CMD runs the command its low 16 bits decode
to, in one step; bits 63:16 are ignored. The step adds only that the event is used up. That the field `grain`
selects the model of R174 is the model's own (log entry 7). -/
def Obligations.StepRunsTheDecodedCommand : Prop :=
  ∀ (s : State) (v : Word) (rest : List Event) (i : Instr), s.params.WellFormed → s.rst = false →
    s.status.busy = false → s.grain = .atomic → s.pending = .write 0 v :: rest → decode (v.setWidth 16) = .ok i →
    step s = exec i { s with pending := rest }

/-- R174 and R173 item 1: a CMD write while BUSY = 1 is dropped before decode, whatever its word; it records
OVERRUN (0xB) as R172 says and changes nothing else, ERR and DONE included. -/
def Obligations.WriteWhileBusyIsOverrun : Prop :=
  ∀ (s : State) (v : Word) (rest : List Event), s.params.WellFormed → s.rst = false → s.status.busy = true →
    s.pending = .write 0 v :: rest →
    step s = .next { s with
      pending := rest
      status := { s.status with
        fault := true
        fcause := if s.status.fault then s.status.fcause else 0xB#4 } }

/-- R174, R26, R27, R59: in the cycle-level model a CMD write to an idle block is accepted: BUSY becomes 1 and
DONE 0, and no other register changes. The sequencer's fields are the model's encoding (log entries 7 and 8). -/
def Obligations.CycleLevelAcceptance : Prop :=
  ∀ (s : State) (v : Word) (rest : List Event), s.params.WellFormed → s.rst = false → s.status.busy = false →
    s.grain = .cycle → s.pending = .write 0 v :: rest →
    ∃ q, step s = .next { s with
        pending := rest
        seq := q
        status := { s.status with busy := true, done := false } } ∧
      q.phase ≠ .idle ∧ q.cmd = v.setWidth 16 ∧ q.sample = s.data

/-- R172: FAULT is sticky and FCAUSE keeps the first fault: no event but a hardware reset clears or changes
them. -/
def Obligations.FirstFaultStays : Prop :=
  ∀ s t : State, step s = .next t → s.noReset → s.status.fault = true →
    t.status.fault = true ∧ t.status.fcause = s.status.fcause

/-- R177: a command that ends in a fault has no effect besides STATUS. Here a fault is an ERR of 0x8 or more. -/
def Obligations.FaultingCommandWritesOnlyStatus : Prop :=
  ∀ (i : Instr) (s t : State), exec i s = .next t → 0x8#4 ≤ t.status.err →
    ∃ q, q.phase = .idle ∧ t = { s with
      seq := q
      status := { s.status with
        busy := false
        done := true
        err := t.status.err
        fault := true
        fcause := if s.status.fault then s.status.fcause else t.status.err } }

/-- R176: a protocol error is precise: the line is released and its actions stay in the trace, TXN is 0, and
RESULT, ROM, ROMV, DATA, the history and the fault fields are unchanged. -/
def Obligations.ProtocolErrorIsPrecise : Prop :=
  ∀ (i : Instr) (s t : State), exec i s = .next t → t.status.err ≠ 0x0#4 → t.status.err < 0x8#4 →
    t.bus.lineDrv = false ∧ s.bus.trace <+: t.bus.trace ∧
    t.status = { s.status with busy := false, done := true, txn := false, err := t.status.err } ∧
    t.result = s.result ∧ t.rom = s.rom ∧ t.data = s.data ∧ t.slots = s.slots ∧ t.fill = s.fill ∧
    t.cursor = s.cursor ∧ t.seq.phase = .idle

/-- R24: RESULT is written only by a result-producing command that ends Ok, and no command writes DATA (R23). -/
def Obligations.ResultIsWrittenOnlyOnOk : Prop :=
  ∀ (i : Instr) (s t : State), exec i s = .next t →
    (t.status.err ≠ 0x0#4 → t.result = s.result) ∧
    ((i = .owReset ∨ (∃ b, i = .owWrb b) ∨ i = .tmRec) → t.result = s.result) ∧ t.data = s.data

/-- R59: between acceptance and completion every register is as it was before the command, except STATUS.BUSY
and DONE: a move of the block that leaves it busy changes no host-visible register and no history slot. -/
def Obligations.RunningCommandShowsNothing : Prop :=
  ∀ s t : State, s.pending = [] → s.status.busy = true → step s = .next t → t.status.busy = true →
    t.params = s.params ∧ t.data = s.data ∧ t.result = s.result ∧ t.status = s.status ∧ t.rom = s.rom ∧
    t.fill = s.fill ∧ t.cursor = s.cursor ∧ t.slots = s.slots

/-- R208: DATA is latched at acceptance. A DATA write after the CMD write of a TM.REC, while BUSY = 1, does not
affect that TM.REC. That the command takes one move of the block is the model's choice (log entry 8). -/
def Obligations.RecordTakesTheLatchedData : Prop :=
  ∀ (s : State) (v w : Word), s.params.WellFormed → s.rst = false → s.status.busy = false → s.grain = .cycle →
    v.setWidth 16 = 0x1100#16 → s.pending = [.write 0 v, .write 1 w, .elapse] →
    ∃ t, runSteps 3 s = .next t ∧ t.slots = s.slots.set s.cursor.toNat (some s.data) ∧ t.data = w ∧
      t.status.busy = false ∧ t.status.done = true ∧ t.status.err = 0x0#4

/-- R43, R183: Wait(n) lasts exactly n ticks: while one runs, each of its ticks only decrements TIMER. One tick
for each step is the model's reading (log entry 9). -/
def Obligations.WaitCountsEveryTick : Prop :=
  ∀ (s : State) (k : Nat), s.params.WellFormed → s.rst = false → s.pending = [] → s.seq.phase.waits = true →
    k ≤ s.bus.timer.toNat →
    runSteps k s = .next { s with bus := { s.bus with timer := s.bus.timer - BitVec.ofNat 32 k } }

/-! ## Micro-operations -/

/-- R108: every completed slot lasts T_SLOT + T_REC microseconds of Wait time, in every well-formed build. -/
def Obligations.CompletedSlotDuration : Prop :=
  ∀ (p : Params) (b : Bus), p.WellFormed →
    ((writeSlot1 p b).1 = .ok () →
      traceTime (writeSlot1 p b).2.trace = traceTime b.trace + (p.tSlot.toNat + p.tRec.toNat)) ∧
    traceTime (writeSlot0 p b).2.trace = traceTime b.trace + (p.tSlot.toNat + p.tRec.toNat) ∧
    traceTime (readSlot p b).2.trace = traceTime b.trace + (p.tSlot.toNat + p.tRec.toNat)

/-- R111: how many line samples each micro-operation takes; the environment is asked exactly this often. -/
def Obligations.SamplesPerMicroOperation : Prop :=
  ∀ (p : Params) (b : Bus),
    ((resetPulse p b).1 = .error .noPresence → (resetPulse p b).2.sampled = b.sampled + 1) ∧
    (∀ n, b.answersPresence p n →
      (resetPulse p b).1 = .ok () ∧ (resetPulse p b).2.sampled = b.sampled + (1 + (n + 1))) ∧
    ((resetPulse p b).1 = .error .busContention →
      (resetPulse p b).2.sampled = b.sampled + (1 + p.nPresPoll.toNat)) ∧
    (writeSlot1 p b).2.sampled = b.sampled + 1 ∧ (writeSlot0 p b).2.sampled = b.sampled ∧
    (readSlot p b).2.sampled = b.sampled + 1

/-- R102: every environment makes a reset pulse end in exactly one of its three outcomes, which depend on the
presence sample and the polls alone. -/
def Obligations.ResetPulseOutcome : Prop :=
  ∀ (p : Params) (b : Bus),
    ((resetPulse p b).1 = .error .noPresence ↔ b.answer 0 = .high) ∧
    ((resetPulse p b).1 = .ok () ↔ ∃ n, b.answersPresence p n) ∧
    ((resetPulse p b).1 = .error .busContention ↔ b.answersStuckLow p)

/-- R55, R56, R107, R126: bit k of a byte read is the k-th level sampled, and bit j of the ROM readout is the
j-th bit received. -/
def Obligations.ReadsAreLeastSignificantFirst : Prop :=
  ∀ (p : Params) (b : Bus),
    (∀ k < 8, (readByte p b).1.getLsbD k = bitOf (b.answer k)) ∧
    (∀ j < 64, (readRomBits p b).1.getLsbD j = bitOf (b.answer j))

/-! ## CRC and ROM validation -/

/-- R120: for any bytes with c = Crc8(bytes), Crc8(bytes, c) = 0x00. -/
def Obligations.CrcOfAppendedCrcIsZero : Prop := ∀ bs : List Byte, crc8 (bs ++ [crc8 bs]) = 0x00#8

/-- R120, the polynomial: with the message's bits in the order the bus carries them (bytes in order, bit 0 first), the
first being the highest coefficient, Crc8 is the remainder of message * x^8 divided by x^8 + x^5 + x^4 + 1 (0x31) over
the field of two elements; bit i of the CRC byte is the coefficient of x^(7 - i), since the CRC is reflected. -/
def Obligations.CrcIsThePolynomialRemainder : Prop :=
  ∀ bs : List Byte, ∃ q : Polynomial (ZMod 2),
    ((bs.flatMap fun b => (List.range 8).map b.getLsbD).foldl
        (fun m v => m * Polynomial.X + (if v then 1 else 0)) 0) * Polynomial.X ^ 8 =
      q * (Polynomial.X ^ 8 + Polynomial.X ^ 5 + Polynomial.X ^ 4 + 1) +
        ((List.range 8).map fun i => if (crc8 bs).getLsbD i then Polynomial.X ^ (7 - i) else 0).sum

/-- R122: "a single flipped bit anywhere in a valid r always fails the CRC check", so it reports CRC. -/
def Obligations.SingleBitErrorIsCrc : Prop :=
  ∀ (p : Params) (r : Word) (j : Nat), validateRom p r = .ok () → j < 64 →
    validateRom p (r ^^^ (1#64 <<< j)) = .error .crc

/-! ## Bus commands -/

/-- R123, OW.RESET: its three outcomes, what each leaves in TXN and STATUS, and the trace of each. -/
def Obligations.OwResetRule : Prop :=
  ∀ s : State, s.params.WellFormed →
    (s.bus.answer 0 = .high →
      ∃ q, q.phase = .idle ∧ exec .owReset s = .next { s with
        status := s.status.endedProto 0x1#4
        seq := q
        bus := s.bus.after 1 (noPresenceTrace s.params) }) ∧
    (∀ n, s.bus.answersPresence s.params n →
      ∃ q, q.phase = .idle ∧ exec .owReset s = .next { s with
        status := s.status.endedOk true
        seq := q
        bus := s.bus.after (n + 2) (resetOkTrace s.params n) }) ∧
    (s.bus.answersStuckLow s.params →
      ∃ q, q.phase = .idle ∧ exec .owReset s = .next { s with
        status := s.status.endedProto 0x2#4
        seq := q
        bus := s.bus.after (s.params.nPresPoll.toNat + 1) (stuckLowTrace s.params) })

/-- R124, OW.WRB b: NO_TRANSACTION when TXN = 0, with no line action; Ok when every write-1 slot reads High;
BUS_CONTENTION at the first bit k whose write-1 slot reads Low, no later bit being sent. -/
def Obligations.OwWrbRule : Prop :=
  ∀ (s : State) (v : Byte), s.params.WellFormed →
    (s.status.txn = false →
      ∃ q, q.phase = .idle ∧
        exec (.owWrb v) s = .next { s with status := s.status.endedFault 0x9#4, seq := q }) ∧
    (s.status.txn = true →
      s.bus.answersHigh 0 (checksOf v (List.range 8)) →
      ∃ q, q.phase = .idle ∧ exec (.owWrb v) s = .next { s with
        status := s.status.endedOk true
        seq := q
        bus := s.bus.after (checksOf v (List.range 8)) (writeBitsTrace s.params v (List.range 8)) }) ∧
    (∀ k < 8, s.status.txn = true → v.getLsbD k = true →
      s.bus.answersHigh 0 (checksOf v (List.range k)) → s.bus.answer (checksOf v (List.range k)) = .low →
      ∃ q, q.phase = .idle ∧ exec (.owWrb v) s = .next { s with
        status := s.status.endedProto 0x2#4
        seq := q
        bus := s.bus.after (checksOf v (List.range k) + 1)
          (writeBitsTrace s.params v (List.range k) ++ write1FailTrace s.params) })

/-- R125, OW.RDB: NO_TRANSACTION when TXN = 0, with no line action; else RESULT is the byte `r` whose bits the
eight read slots sampled, and TXN stays 1. -/
def Obligations.OwRdbRule : Prop :=
  ∀ s : State, s.params.WellFormed →
    (s.status.txn = false →
      ∃ q, q.phase = .idle ∧ exec .owRdb s = .next { s with status := s.status.endedFault 0x9#4, seq := q }) ∧
    (∀ r : Byte, s.status.txn = true → s.bus.answersLevels 0 (levelsOfByte r) →
      ∃ q, q.phase = .idle ∧ exec .owRdb s = .next { s with
        result := r.setWidth 64
        status := s.status.endedOk true
        seq := q
        bus := s.bus.after 8 (readTrace s.params (levelsOfByte r)) })

/-- R126 and R127, the failures in the reset pulse: OW.RDROM and OW.RDPWR end as OW.RESET does, and send no
command byte. -/
def Obligations.ResetFailureEndsReadCommands : Prop :=
  ∀ (i : Instr) (s : State), s.params.WellFormed → i = .owRdrom ∨ i = .owRdpwr →
    (s.bus.answer 0 = .high →
      ∃ q, q.phase = .idle ∧ exec i s = .next { s with
        status := s.status.endedProto 0x1#4
        seq := q
        bus := s.bus.after 1 (noPresenceTrace s.params) }) ∧
    (s.bus.answersStuckLow s.params →
      ∃ q, q.phase = .idle ∧ exec i s = .next { s with
        status := s.status.endedProto 0x2#4
        seq := q
        bus := s.bus.after (s.params.nPresPoll.toNat + 1) (stuckLowTrace s.params) })

/-- R126 and R127, the failure in the command byte `v` of OW.RDROM or OW.RDPWR at its bit k. -/
def Obligations.CommandByteFailureEndsReadCommands : Prop :=
  ∀ (i : Instr) (v : Byte) (s : State) (n k : Nat), s.params.WellFormed →
    (i = .owRdrom ∧ v = s.params.cmdReadRom) ∨ (i = .owRdpwr ∧ v = s.params.cmdReadPower) →
    s.bus.answersPresence s.params n → k < 8 → v.getLsbD k = true →
    s.bus.answersHigh (n + 2) (checksOf v (List.range k)) →
    s.bus.answer (n + 2 + checksOf v (List.range k)) = .low →
    ∃ q, q.phase = .idle ∧ exec i s = .next { s with
      status := s.status.endedProto 0x2#4
      seq := q
      bus := s.bus.after (n + 2 + (checksOf v (List.range k) + 1))
        (resetOkTrace s.params n ++ (writeBitsTrace s.params v (List.range k) ++ write1FailTrace s.params)) }

/-- R126, OW.RDROM after its reset pulse and command byte: the 64 bits sampled are a value `r`; a wrong CRC
byte is CRC, a wrong family code alone is UNEXPECTED_FAMILY, and in both nothing is kept; otherwise ROM, RESULT
and ROMV take it. TXN is 0 in every case. -/
def Obligations.OwRdromRule : Prop :=
  ∀ (s : State) (n : Nat) (r : Word), s.params.WellFormed → s.bus.answersPresence s.params n →
    s.bus.answersHigh (n + 2) (checksOf s.params.cmdReadRom (List.range 8)) →
    s.bus.answersLevels (n + 2 + checksOf s.params.cmdReadRom (List.range 8)) (levelsOfRom r) →
    ∀ b, b = s.bus.after (n + 2 + (checksOf s.params.cmdReadRom (List.range 8) + 64))
        (resetOkTrace s.params n ++ (writeBitsTrace s.params s.params.cmdReadRom (List.range 8) ++
          readTrace s.params (levelsOfRom r))) →
    (crc8 ((List.range 7).map fun k => r.extractLsb' (8 * k) 8) ≠ r.extractLsb' 56 8 →
      ∃ q, q.phase = .idle ∧
        exec .owRdrom s = .next { s with status := s.status.endedProto 0x3#4, seq := q, bus := b }) ∧
    (crc8 ((List.range 7).map fun k => r.extractLsb' (8 * k) 8) = r.extractLsb' 56 8 →
      r.extractLsb' 0 8 ≠ s.params.familyCode →
      ∃ q, q.phase = .idle ∧
        exec .owRdrom s = .next { s with status := s.status.endedProto 0x4#4, seq := q, bus := b }) ∧
    (crc8 ((List.range 7).map fun k => r.extractLsb' (8 * k) 8) = r.extractLsb' 56 8 →
      r.extractLsb' 0 8 = s.params.familyCode →
      ∃ q, q.phase = .idle ∧ exec .owRdrom s = .next { s with
        rom := r
        result := r
        status := { s.status.endedOk false with romv := true }
        seq := q
        bus := b })

/-- R127, OW.RDPWR after its reset pulse and command byte: one read slot, RESULT = 0 for Low (parasitic) and 1
for High (external), TXN = 0. -/
def Obligations.OwRdpwrRule : Prop :=
  ∀ (s : State) (n : Nat), s.params.WellFormed → s.bus.answersPresence s.params n →
    s.bus.answersHigh (n + 2) (checksOf s.params.cmdReadPower (List.range 8)) →
    ∀ l, l = s.bus.answer (n + 2 + checksOf s.params.cmdReadPower (List.range 8)) →
    ∃ q, q.phase = .idle ∧ exec .owRdpwr s = .next { s with
      result := (match l with | .low => 0#64 | .high => 1#64)
      status := s.status.endedOk false
      seq := q
      bus := s.bus.after (n + 2 + (checksOf s.params.cmdReadPower (List.range 8) + 1))
        (resetOkTrace s.params n ++ (writeBitsTrace s.params s.params.cmdReadPower (List.range 8) ++
          readSlotTrace s.params l)) }

/-- R28, R128: TXN becomes 1 only when an OW.RESET ends Ok: by the CMD write of OW.RESET in the atomic model,
by the end of its recovery wait in the cycle-level one. -/
def Obligations.OnlyOwResetOpensATransaction : Prop :=
  ∀ s t : State, step s = .next t → s.status.txn = false → t.status.txn = true →
    t.status.err = 0x0#4 ∧ t.status.done = true ∧
    ((∃ v rest, s.pending = .write 0 v :: rest ∧ decode (v.setWidth 16) = .ok .owReset) ∨
      (s.seq.phase = .resetRecovery ∧ decode s.seq.cmd = .ok .owReset))

/-- R212, R213: no command's bus actions take longer than the bound R213 gives, in every well-formed build. -/
def Obligations.CommandTimeIsBounded : Prop :=
  ∀ (i : Instr) (s t : State), exec i s = .next t →
    traceTime t.bus.trace ≤ traceTime s.bus.trace +
      (max (s.params.tRstl.toNat + s.params.tMsp.toNat +
              s.params.nPresPoll.toNat * s.params.tPresPoll.toNat + s.params.tRstrec.toNat)
           (s.params.tRstl.toNat + s.params.tMsp.toNat + s.params.nPresPoll.toNat * s.params.tPresPoll.toNat) +
        72 * (s.params.tSlot.toNat + s.params.tRec.toNat))

/-! ## The thermal monitor -/

/-- R153, TM.REC: the DATA value is stored at CURSOR unchanged, CURSOR wraps at HIST_N, FILL saturates at
HIST_N, READY follows; always Ok, and nothing else changes. -/
def Obligations.TmRecRule : Prop :=
  ∀ s : State, s.params.WellFormed →
    ∀ fill, fill = BitVec.ofNat 16 (min (s.fill.toNat + 1) s.params.histN.toNat) →
    ∃ q, q.phase = .idle ∧ exec .tmRec s = .next { s with
      slots := s.slots.set s.cursor.toNat (some s.data)
      cursor := BitVec.ofNat 16 ((s.cursor.toNat + 1) % s.params.histN.toNat)
      fill := fill
      status := { s.status.endedOk s.status.txn with ready := decide (fill = s.params.histN) }
      seq := q }

/-- R154, TM.RDY: RESULT is 1 exactly when FILL = HIST_N; always Ok, and nothing else changes. -/
def Obligations.TmRdyRule : Prop :=
  ∀ s : State, s.params.WellFormed →
    ∃ q, q.phase = .idle ∧ exec .tmRdy s = .next { s with
      result := (if s.fill = s.params.histN then 1#64 else 0#64)
      status := s.status.endedOk s.status.txn
      seq := q }

/-- R155, R151, TM.AVG: NOT_READY before the history is full; else RESULT is the sum of the slots from +0.0 in
index order, divided once by HIST_N. A NaN average is returned as some NaN encoding (I7: any value among
them). -/
def Obligations.TmAvgRule : Prop :=
  ∀ s : State, s.params.WellFormed →
    (s.fill ≠ s.params.histN →
      ∃ q, q.phase = .idle ∧ exec .tmAvg s = .next { s with status := s.status.endedFault 0x8#4, seq := q }) ∧
    (∀ (vs : List Word) (a : Word), s.fill = s.params.histN → vs.length = s.params.histN.toNat →
      s.slots = vs.map some → a = F64.div (vs.foldl F64.add 0#64) (F64.ofNat s.params.histN.toNat) →
      ∃ r n q, q.phase = .idle ∧ exec .tmAvg s = .next { s with
          result := r
          nanDraws := n
          status := s.status.endedOk s.status.txn
          seq := q } ∧
        (F64.isNaN a = false → r = a) ∧ (F64.isNaN a = true → F64.isNaN r = true))

/-- R156, R152, TM.ALRM a: 0 on an unready history, 0 when attended, else 1 exactly when the average is at least
MAX_TEMPERATURE in the ordered comparison; always Ok. -/
def Obligations.TmAlrmRule : Prop :=
  ∀ (s : State) (attended : Bool), s.params.WellFormed →
    (s.fill ≠ s.params.histN ∨ attended = true →
      ∃ q, q.phase = .idle ∧ exec (.tmAlrm attended) s = .next { s with
        result := 0#64
        status := s.status.endedOk s.status.txn
        seq := q }) ∧
    (∀ vs : List Word, s.fill = s.params.histN → attended = false → vs.length = s.params.histN.toNat →
      s.slots = vs.map some →
      ∃ q, q.phase = .idle ∧ exec (.tmAlrm attended) s = .next { s with
        result := (if F64.ge (F64.div (vs.foldl F64.add 0#64) (F64.ofNat s.params.histN.toNat))
          s.params.maxTemp then 1#64 else 0#64)
        status := s.status.endedOk s.status.txn
        seq := q })

/-- R157: after the samples `vs` have been recorded from reset, slot i holds the last one recorded at an index
j ≡ i (mod HIST_N); FILL counts them up to HIST_N and CURSOR is the next slot. -/
def Obligations.HistoryHoldsTheMostRecent : Prop :=
  ∀ (p : Params) (vs : List Word), p.WellFormed →
    ∃ t, recordAll vs (State.resetWith p) = .next t ∧
      t.fill.toNat = min vs.length p.histN.toNat ∧ t.cursor.toNat = vs.length % p.histN.toNat ∧
      t.slots.length = p.histN.toNat ∧
      ∀ j v, vs[j]? = some v → vs.length ≤ j + p.histN.toNat → t.slots[j % p.histN.toNat]? = some (some v)

/-- R40, R29: FILL never decreases but by a hardware reset, so READY, once 1, stays 1. -/
def Obligations.ReadinessIsNeverLost : Prop :=
  ∀ s t : State, s.Inv → step s = .next t → s.noReset →
    s.fill.toNat ≤ t.fill.toNat ∧ (s.status.ready = true → t.status.ready = true)

/-- R151, R152, the corner cases: a NaN sample gives a NaN average, and so do +∞ and −∞ together; samples all equal to
−0.0 average to +0.0; +∞ among samples that are not negative averages to +∞, which triggers at every threshold that is no
NaN, and −∞ among samples that are not positive to −∞, which triggers at none above it. -/
def Obligations.AverageCornerCases : Prop :=
  (∀ vs : List Word,
    ((∃ v ∈ vs, F64.isNaN v = true) ∨ (0x7FF0000000000000#64 ∈ vs ∧ 0xFFF0000000000000#64 ∈ vs)) →
    F64.isNaN (F64.div (vs.foldl F64.add 0#64) (F64.ofNat vs.length)) = true) ∧
  (∀ n : Nat, 1 ≤ n → n ≤ 65535 →
    F64.div ((List.replicate n 0x8000000000000000#64).foldl F64.add 0#64) (F64.ofNat n) = 0#64) ∧
  (∀ vs : List Word, vs.length ≤ 65535 → (∀ v ∈ vs, F64.isNaN v = false ∧ F64.sign v = false) →
    0x7FF0000000000000#64 ∈ vs →
    F64.div (vs.foldl F64.add 0#64) (F64.ofNat vs.length) = 0x7FF0000000000000#64 ∧
    ∀ m, F64.isNaN m = false → F64.ge 0x7FF0000000000000#64 m = true) ∧
  (∀ vs : List Word, vs.length ≤ 65535 → (∀ v ∈ vs, F64.isNaN v = false ∧ F64.sign v = true) →
    0xFFF0000000000000#64 ∈ vs →
    F64.div (vs.foldl F64.add 0#64) (F64.ofNat vs.length) = 0xFFF0000000000000#64 ∧
    ∀ m, m ≠ 0xFFF0000000000000#64 → F64.ge 0xFFF0000000000000#64 m = false)

/-! ## Arithmetic -/

/-- R18: rounding is to nearest, ties to even: no binary64 magnitude is nearer to the exact quotient. Binary64
is taken as IEEE 754 (log entry 15), here and in the next three statements. -/
def Obligations.RoundingIsToNearestEven : Prop :=
  ∀ num den : Nat, 0 < den → F64.isNearest num den (F64.roundMag num den)

/-- R18: the sum of two finite values is their exact sum, rounded once to nearest, ties to even, with the sum's
sign; an exact zero is −0.0 only when both operands are negative. An infinity plus anything but a NaN or the opposite
infinity is that infinity; opposite infinities, and a NaN, give a NaN. -/
def Obligations.AddRoundsTheExactSum : Prop :=
  ∀ a b : Word,
    (F64.magBits a < F64.infBits → F64.magBits b < F64.infBits →
      F64.isNearest (F64.valueOf a + F64.valueOf b).natAbs 1 (F64.magBits (F64.add a b)) ∧
      (F64.valueOf a + F64.valueOf b ≠ 0 → F64.sign (F64.add a b) = decide (F64.valueOf a + F64.valueOf b < 0)) ∧
      (F64.valueOf a + F64.valueOf b = 0 → F64.sign (F64.add a b) = (F64.sign a && F64.sign b))) ∧
    (F64.magBits a = F64.infBits → F64.magBits b < F64.infBits → F64.add a b = a ∧ F64.add b a = a) ∧
    (F64.magBits a = F64.infBits → F64.magBits b = F64.infBits →
      (F64.sign a = F64.sign b → F64.add a b = a) ∧
      (F64.sign a ≠ F64.sign b → F64.isNaN (F64.add a b) = true)) ∧
    (F64.infBits < F64.magBits a ∨ F64.infBits < F64.magBits b → F64.isNaN (F64.add a b) = true)

/-- R18: the quotient of a finite value by a finite nonzero one is the exact quotient, rounded once to nearest, ties
to even. An infinity by a finite value is an infinity and a finite value by an infinity a zero, a nonzero value by a
zero is an infinity, each with the exclusive or of the signs; infinity by infinity, zero by zero, and a NaN, give a
NaN. And `f64_of_nat(n)` is the exact value of an integer n < 2^53. -/
def Obligations.DivRoundsTheExactQuotient : Prop :=
  (∀ a b : Word,
    (F64.magBits a < F64.infBits → F64.magBits b < F64.infBits → F64.magBits b ≠ 0 →
      F64.isNearest (F64.unitsOfMag (F64.magBits a) * 2 ^ 1074) (F64.unitsOfMag (F64.magBits b))
        (F64.magBits (F64.div a b)) ∧
      F64.sign (F64.div a b) = (F64.sign a != F64.sign b)) ∧
    (F64.magBits a = F64.infBits ∧ F64.magBits b < F64.infBits ∨
        F64.magBits a < F64.infBits ∧ F64.magBits a ≠ 0 ∧ F64.magBits b = 0 →
      F64.magBits (F64.div a b) = F64.infBits ∧ F64.sign (F64.div a b) = (F64.sign a != F64.sign b)) ∧
    (F64.magBits a < F64.infBits → F64.magBits b = F64.infBits →
      F64.magBits (F64.div a b) = 0 ∧ F64.sign (F64.div a b) = (F64.sign a != F64.sign b)) ∧
    (F64.magBits a = F64.infBits ∧ F64.magBits b = F64.infBits ∨ F64.magBits a = 0 ∧ F64.magBits b = 0 ∨
        F64.infBits < F64.magBits a ∨ F64.infBits < F64.magBits b →
      F64.isNaN (F64.div a b) = true)) ∧
  (∀ n : Nat, n < 2 ^ 53 →
    F64.magBits (F64.ofNat n) < F64.infBits ∧ F64.sign (F64.ofNat n) = false ∧
    F64.valueOf (F64.ofNat n) = (n : Int) * 2 ^ 1074)

/-- R18: `f64_ge` is false when either operand is NaN, and otherwise compares the values; the two zeros are
equal, and an infinity stands beyond every finite value. -/
def Obligations.GreaterOrEqualIsOrdered : Prop :=
  ∀ a b : Word, F64.ge a b = true ↔
    F64.magBits a ≤ F64.infBits ∧ F64.magBits b ≤ F64.infBits ∧ F64.valueOf b ≤ F64.valueOf a

/-! ## The whole machine -/

/-- Reset meets the invariant, in every well-formed build. -/
def Obligations.ResetMeetsTheInvariant : Prop := ∀ p : Params, p.WellFormed → (State.resetWith p).Inv

/-- R29, R33, R34, R38 to R42, R109, R110, R129, R200: every step of either model keeps the invariant. The phases are
the model's encoding (log entry 8), and that no register changes while `rst` is asserted is its reading (log entry 6). -/
def Obligations.StepKeepsTheInvariant : Prop := ∀ s t : State, s.Inv → step s = .next t → t.Inv

/-- R184, R213: a state that meets the invariant never stops: every step from it answers a next state. -/
def Obligations.InvariantStatesNeverStop : Prop := ∀ s : State, s.Inv → ∃ t, step s = .next t

/-- R36, R37, R53: the build parameters are constant; DATA changes only by a host write to DATA; the history
changes only by a command that is TM.REC; all but by a hardware reset. That no step changes `grain`, and that
TM.REC writes at its dispatch, are the model's choices (log entries 7 and 8). -/
def Obligations.StateChangesOnlyByItsWriters : Prop :=
  ∀ s t : State, step s = .next t →
    t.params = s.params ∧ t.grain = s.grain ∧
    (s.noReset →
      (t.data ≠ s.data → ∃ v rest, s.pending = .write 1 v :: rest ∧ t.data = v) ∧
      (t.slots ≠ s.slots ∨ t.cursor ≠ s.cursor ∨ t.fill ≠ s.fill →
        (∃ v rest, s.pending = .write 0 v :: rest ∧ decode (v.setWidth 16) = .ok .tmRec) ∨
        (s.seq.phase = .dispatch ∧ decode s.seq.cmd = .ok .tmRec)))

/-- R31, R34, R129: ROM and ROMV change only, hardware reset apart, to a value that passed ValidateRom, with
ROMV = 1; a failed OW.RDROM leaves them as they were. -/
def Obligations.RomChangesOnlyToAValidatedValue : Prop :=
  ∀ s t : State, step s = .next t → s.noReset →
    (t.rom = s.rom ∧ t.status.romv = s.status.romv) ∨
    (validateRom s.params t.rom = .ok () ∧ t.status.romv = true ∧ t.result = t.rom ∧ t.status.err = 0x0#4)

/-- R171, R203, R205: while the host keeps its obligations no fault is recorded. -/
def Obligations.ContractKeepsTheRunUnfaulted : Prop :=
  ∀ s t : State, s.onContract → (∀ e ∈ s.pending.head?, e.keepsContract s = true) → step s = .next t →
    t.onContract

/-- R41, R201: the hidden fields of the sequencer and TIMER are never read before a command initialises them. Whatever
they hold when a command begins, a command of the atomic model has the same outcome; and a run of the machine, from an
idle block, or from an accepted command whose word and latched DATA are given, goes through states that agree on
everything but those fields. That the phases are the model's encoding is log entry 8. -/
def Obligations.HiddenFieldsAreNeverRead : Prop :=
  (∀ (i : Instr) (s : State) (q : Sequencer) (τ : Micros) (t : State), exec i s = .next t →
    ∃ t', exec i (s.withHidden q τ) = .next t' ∧ t'.agrees t) ∧
  (∀ (n : Nat) (s : State) (q : Sequencer) (τ : Micros) (t : State), q.phase = s.seq.phase →
    s.seq.phase = .idle ∨ (s.seq.phase = .dispatch ∧ q.cmd = s.seq.cmd ∧ q.sample = s.seq.sample) →
    runSteps n s = .next t →
    ∃ t', runSteps n (s.withHidden q τ) = .next t' ∧ t'.agrees t)

/-- R174, R41, R212: the cycle-level sequencer refines the atomic command: accepted and left alone, any command
word is completed within the ticks of R213 and one action for each Wait, and the machine is then in the very
state in which the atomic model's one step leaves it. The constant bounds the moves of this model's sequencer
that are no ticks, a choice of the model (log entry 8); that the hidden fields of the two end states are equal too rests
on the idle values that the model chose (log entry 1). -/
def Obligations.SequencerRefinesTheAtomicCommand : Prop :=
  ∀ (s : State) (w : CmdWord), s.params.WellFormed → s.rst = false → s.pending = [] → s.status.busy = false →
    ∃ n, n ≤ s.params.tRstl.toNat + s.params.tMsp.toNat +
          s.params.nPresPoll.toNat * (s.params.tPresPoll.toNat + 1) + s.params.tRstrec.toNat +
          72 * (s.params.tSlot.toNat + s.params.tRec.toNat) + 300 ∧
      runSteps n (accept w s) = execWord w s
end

