-- ==== Sys2Proof/Laws/State.lean ====
section
/-! SUPPORT. What each shared update leaves in each field, true by `rfl`, so that no later proof unfolds a
record update. -/

namespace Sys2Proof

/-- The conditions of R13, one by one. -/
theorem Params.wellFormed_iff (p : Params) : p.WellFormed ↔
    1 ≤ p.nPresPoll.toNat ∧ p.tLow1.toNat < p.tSlot.toNat ∧ p.tLow0.toNat < p.tSlot.toNat ∧
      p.tRdl.toNat + p.tRds.toNat ≤ p.tSlot.toNat ∧ 1 ≤ p.histN.toNat := by
  simp [Params.WellFormed, Params.wellFormed, and_assoc]

end Sys2Proof

namespace Sys2Proof.Machine

/-- In a well-formed build a step is the next event. -/
theorem step_eq_serve {s : State} (h : s.params.WellFormed) : step s = serve s := if_pos h

/-- In a well-formed build a command is its effect between acceptance and completion. -/
theorem runCommand_eq {s : State} (h : s.params.WellFormed) (i : Instr) (effect : State → Effect) :
    runCommand i effect s = finish (effect (accept (encode i) s)) := if_pos h

/-- A command that answers a next state has a well-formed build, and its effect did not stop the machine. -/
theorem runCommand_next {s t : State} {i : Instr} {effect : State → Effect} (h : runCommand i effect s = .next t) :
    s.params.WellFormed ∧ ∃ u o, effect (accept (encode i) s) = .ok (u, o) ∧ t = complete o u := by
  unfold runCommand at h
  split at h
  · refine ⟨‹_›, ?_⟩
    unfold finish at h
    split at h
    · next r he => exact ⟨r.1, r.2, he, by simpa using h.symm⟩
    · cases h
  · cases h

/-! ## Line primitives -/

@[simp] theorem driveLow_lineDrv (b : Bus) : (driveLow b).lineDrv = true := rfl
@[simp] theorem driveLow_timer (b : Bus) : (driveLow b).timer = b.timer := rfl
@[simp] theorem driveLow_env (b : Bus) : (driveLow b).env = b.env := rfl
@[simp] theorem driveLow_sampled (b : Bus) : (driveLow b).sampled = b.sampled := rfl
@[simp] theorem driveLow_trace (b : Bus) : (driveLow b).trace = b.trace ++ [.driveLow] := rfl

@[simp] theorem release_lineDrv (b : Bus) : (release b).lineDrv = false := rfl
@[simp] theorem release_timer (b : Bus) : (release b).timer = b.timer := rfl
@[simp] theorem release_env (b : Bus) : (release b).env = b.env := rfl
@[simp] theorem release_sampled (b : Bus) : (release b).sampled = b.sampled := rfl
@[simp] theorem release_trace (b : Bus) : (release b).trace = b.trace ++ [.release] := rfl

@[simp] theorem loadTimer_lineDrv (n : Micros) (b : Bus) : (loadTimer n b).lineDrv = b.lineDrv := rfl
@[simp] theorem loadTimer_timer (n : Micros) (b : Bus) : (loadTimer n b).timer = n := rfl
@[simp] theorem loadTimer_env (n : Micros) (b : Bus) : (loadTimer n b).env = b.env := rfl
@[simp] theorem loadTimer_sampled (n : Micros) (b : Bus) : (loadTimer n b).sampled = b.sampled := rfl
@[simp] theorem loadTimer_trace (n : Micros) (b : Bus) : (loadTimer n b).trace = b.trace := rfl

@[simp] theorem tick_lineDrv (b : Bus) : (tick b).lineDrv = b.lineDrv := rfl
@[simp] theorem tick_timer (b : Bus) : (tick b).timer = b.timer - 1#32 := rfl
@[simp] theorem tick_env (b : Bus) : (tick b).env = b.env := rfl
@[simp] theorem tick_sampled (b : Bus) : (tick b).sampled = b.sampled := rfl
@[simp] theorem tick_trace (b : Bus) : (tick b).trace = b.trace := rfl

@[simp] theorem endWait_lineDrv (n : Micros) (b : Bus) : (endWait n b).lineDrv = b.lineDrv := rfl
@[simp] theorem endWait_timer (n : Micros) (b : Bus) : (endWait n b).timer = 0#32 := rfl
@[simp] theorem endWait_env (n : Micros) (b : Bus) : (endWait n b).env = b.env := rfl
@[simp] theorem endWait_sampled (n : Micros) (b : Bus) : (endWait n b).sampled = b.sampled := rfl
@[simp] theorem endWait_trace (n : Micros) (b : Bus) : (endWait n b).trace = b.trace ++ [.wait n] := rfl

@[simp] theorem wait_lineDrv (n : Micros) (b : Bus) : (wait n b).lineDrv = b.lineDrv := rfl
@[simp] theorem wait_timer (n : Micros) (b : Bus) : (wait n b).timer = 0#32 := rfl
@[simp] theorem wait_env (n : Micros) (b : Bus) : (wait n b).env = b.env := rfl
@[simp] theorem wait_sampled (n : Micros) (b : Bus) : (wait n b).sampled = b.sampled := rfl
@[simp] theorem wait_trace (n : Micros) (b : Bus) : (wait n b).trace = b.trace ++ [.wait n] := rfl

@[simp] theorem sample_level (b : Bus) : (sample b).1 = b.answer 0 := rfl
@[simp] theorem sample_lineDrv (b : Bus) : (sample b).2.lineDrv = b.lineDrv := rfl
@[simp] theorem sample_timer (b : Bus) : (sample b).2.timer = b.timer := rfl
@[simp] theorem sample_env (b : Bus) : (sample b).2.env = b.env.tail := rfl
@[simp] theorem sample_sampled (b : Bus) : (sample b).2.sampled = b.sampled + 1 := rfl
@[simp] theorem sample_trace (b : Bus) : (sample b).2.trace = b.trace ++ [.sample (b.answer 0)] := rfl

@[simp] theorem after_lineDrv (b : Bus) (n : Nat) (t : List LineAction) : (b.after n t).lineDrv = false := rfl
@[simp] theorem after_timer (b : Bus) (n : Nat) (t : List LineAction) : (b.after n t).timer = 0#32 := rfl
@[simp] theorem after_env (b : Bus) (n : Nat) (t : List LineAction) : (b.after n t).env = b.env.drop n := rfl
@[simp] theorem after_sampled (b : Bus) (n : Nat) (t : List LineAction) : (b.after n t).sampled = b.sampled + n := rfl
@[simp] theorem after_trace (b : Bus) (n : Nat) (t : List LineAction) : (b.after n t).trace = b.trace ++ t := rfl

/-! ## Acceptance -/

@[simp] theorem accept_params (w : CmdWord) (s : State) : (accept w s).params = s.params := rfl
@[simp] theorem accept_data (w : CmdWord) (s : State) : (accept w s).data = s.data := rfl
@[simp] theorem accept_result (w : CmdWord) (s : State) : (accept w s).result = s.result := rfl
@[simp] theorem accept_status (w : CmdWord) (s : State) :
    (accept w s).status = { s.status with busy := true, done := false } := rfl
@[simp] theorem accept_rom (w : CmdWord) (s : State) : (accept w s).rom = s.rom := rfl
@[simp] theorem accept_fill (w : CmdWord) (s : State) : (accept w s).fill = s.fill := rfl
@[simp] theorem accept_cursor (w : CmdWord) (s : State) : (accept w s).cursor = s.cursor := rfl
@[simp] theorem accept_slots (w : CmdWord) (s : State) : (accept w s).slots = s.slots := rfl
@[simp] theorem accept_seq (w : CmdWord) (s : State) : (accept w s).seq =
    { Sequencer.idle with phase := .dispatch, cmd := w, sample := s.data } := rfl
@[simp] theorem accept_bus (w : CmdWord) (s : State) : (accept w s).bus = s.bus := rfl
@[simp] theorem accept_nanDraws (w : CmdWord) (s : State) : (accept w s).nanDraws = s.nanDraws := rfl
@[simp] theorem accept_rst (w : CmdWord) (s : State) : (accept w s).rst = s.rst := rfl
@[simp] theorem accept_grain (w : CmdWord) (s : State) : (accept w s).grain = s.grain := rfl
@[simp] theorem accept_pending (w : CmdWord) (s : State) : (accept w s).pending = s.pending := rfl
@[simp] theorem accept_reads (w : CmdWord) (s : State) : (accept w s).reads = s.reads := rfl

/-! ## Fault recording -/

@[simp] theorem recordFault_params (f : FaultCode) (s : State) : (recordFault f s).params = s.params := rfl
@[simp] theorem recordFault_data (f : FaultCode) (s : State) : (recordFault f s).data = s.data := rfl
@[simp] theorem recordFault_result (f : FaultCode) (s : State) : (recordFault f s).result = s.result := rfl
@[simp] theorem recordFault_rom (f : FaultCode) (s : State) : (recordFault f s).rom = s.rom := rfl
@[simp] theorem recordFault_fill (f : FaultCode) (s : State) : (recordFault f s).fill = s.fill := rfl
@[simp] theorem recordFault_cursor (f : FaultCode) (s : State) : (recordFault f s).cursor = s.cursor := rfl
@[simp] theorem recordFault_slots (f : FaultCode) (s : State) : (recordFault f s).slots = s.slots := rfl
@[simp] theorem recordFault_seq (f : FaultCode) (s : State) : (recordFault f s).seq = s.seq := rfl
@[simp] theorem recordFault_bus (f : FaultCode) (s : State) : (recordFault f s).bus = s.bus := rfl
@[simp] theorem recordFault_rst (f : FaultCode) (s : State) : (recordFault f s).rst = s.rst := rfl
@[simp] theorem recordFault_grain (f : FaultCode) (s : State) : (recordFault f s).grain = s.grain := rfl
@[simp] theorem recordFault_pending (f : FaultCode) (s : State) : (recordFault f s).pending = s.pending := rfl
@[simp] theorem recordFault_fault (f : FaultCode) (s : State) : (recordFault f s).status.fault = true := rfl
@[simp] theorem recordFault_fcause (f : FaultCode) (s : State) : (recordFault f s).status.fcause =
    if s.status.fault then s.status.fcause else f.code := rfl

/-! ## Completion -/

/-- Completion of a command that ended Ok, R175. -/
theorem complete_ok (s : State) : complete .ok s =
    { s with status := { s.status with err := 0x0#4, busy := false, done := true }, seq := Sequencer.idle } := rfl

/-- Completion of a protocol error, R175: nothing is recorded in FAULT. -/
theorem complete_proto (c : ProtoCode) (s : State) : complete (.proto c) s =
    { s with status := { s.status with err := c.code, busy := false, done := true }, seq := Sequencer.idle } := rfl

/-- Completion of a fault, R172 and R175. -/
theorem complete_fault (f : FaultCode) (s : State) : complete (.fault f) s =
    { s with status := s.status.endedFault f.code, seq := Sequencer.idle } := rfl

@[simp] theorem complete_params (o : CmdOutcome) (s : State) : (complete o s).params = s.params := by cases o <;> rfl
@[simp] theorem complete_data (o : CmdOutcome) (s : State) : (complete o s).data = s.data := by cases o <;> rfl
@[simp] theorem complete_result (o : CmdOutcome) (s : State) : (complete o s).result = s.result := by cases o <;> rfl
@[simp] theorem complete_rom (o : CmdOutcome) (s : State) : (complete o s).rom = s.rom := by cases o <;> rfl
@[simp] theorem complete_fill (o : CmdOutcome) (s : State) : (complete o s).fill = s.fill := by cases o <;> rfl
@[simp] theorem complete_cursor (o : CmdOutcome) (s : State) : (complete o s).cursor = s.cursor := by cases o <;> rfl
@[simp] theorem complete_slots (o : CmdOutcome) (s : State) : (complete o s).slots = s.slots := by cases o <;> rfl
@[simp] theorem complete_seq (o : CmdOutcome) (s : State) : (complete o s).seq = Sequencer.idle := by cases o <;> rfl
@[simp] theorem complete_bus (o : CmdOutcome) (s : State) : (complete o s).bus = s.bus := by cases o <;> rfl
@[simp] theorem complete_nanDraws (o : CmdOutcome) (s : State) : (complete o s).nanDraws = s.nanDraws := by
  cases o <;> rfl
@[simp] theorem complete_rst (o : CmdOutcome) (s : State) : (complete o s).rst = s.rst := by cases o <;> rfl
@[simp] theorem complete_grain (o : CmdOutcome) (s : State) : (complete o s).grain = s.grain := by cases o <;> rfl
@[simp] theorem complete_pending (o : CmdOutcome) (s : State) : (complete o s).pending = s.pending := by
  cases o <;> rfl
@[simp] theorem complete_reads (o : CmdOutcome) (s : State) : (complete o s).reads = s.reads := by cases o <;> rfl
@[simp] theorem complete_busy (o : CmdOutcome) (s : State) : (complete o s).status.busy = false := by cases o <;> rfl
@[simp] theorem complete_done (o : CmdOutcome) (s : State) : (complete o s).status.done = true := by cases o <;> rfl
@[simp] theorem complete_err (o : CmdOutcome) (s : State) : (complete o s).status.err = o.code := by cases o <;> rfl
@[simp] theorem complete_txn (o : CmdOutcome) (s : State) : (complete o s).status.txn = s.status.txn := by
  cases o <;> rfl
@[simp] theorem complete_ready (o : CmdOutcome) (s : State) : (complete o s).status.ready = s.status.ready := by
  cases o <;> rfl
@[simp] theorem complete_romv (o : CmdOutcome) (s : State) : (complete o s).status.romv = s.status.romv := by
  cases o <;> rfl

/-! ## Host reads, phases, the word presented -/

@[simp] theorem hostRead_params (i : Nat) (s : State) : (hostRead i s).params = s.params := rfl
@[simp] theorem hostRead_status (i : Nat) (s : State) : (hostRead i s).status = s.status := rfl
@[simp] theorem hostRead_seq (i : Nat) (s : State) : (hostRead i s).seq = s.seq := rfl
@[simp] theorem hostRead_bus (i : Nat) (s : State) : (hostRead i s).bus = s.bus := rfl
@[simp] theorem hostRead_reads (i : Nat) (s : State) : (hostRead i s).reads = s.reads ++ [(i, regRead i s)] := rfl

@[simp] theorem enter_params (ph : Phase) (n : Micros) (b : Bus) (s : State) :
    (enter ph n b s).params = s.params := rfl
@[simp] theorem enter_status (ph : Phase) (n : Micros) (b : Bus) (s : State) :
    (enter ph n b s).status = s.status := rfl
@[simp] theorem enter_seq (ph : Phase) (n : Micros) (b : Bus) (s : State) :
    (enter ph n b s).seq = { s.seq with phase := ph } := rfl
@[simp] theorem enter_bus (ph : Phase) (n : Micros) (b : Bus) (s : State) :
    (enter ph n b s).bus = loadTimer n b := rfl
@[simp] theorem enter_pending (ph : Phase) (n : Micros) (b : Bus) (s : State) :
    (enter ph n b s).pending = s.pending := rfl

@[simp] theorem presentWord_params (w : CmdWord) (s : State) : (presentWord w s).params = s.params := rfl
@[simp] theorem presentWord_busy (w : CmdWord) (s : State) : (presentWord w s).status.busy = false := rfl
@[simp] theorem presentWord_rst (w : CmdWord) (s : State) : (presentWord w s).rst = false := rfl
@[simp] theorem presentWord_grain (w : CmdWord) (s : State) : (presentWord w s).grain = .atomic := rfl
@[simp] theorem presentWord_pending (w : CmdWord) (s : State) : (presentWord w s).pending =
    .write 0 (w.setWidth 64) :: s.pending := rfl

/-! ## Host events -/

/-- A hardware reset, field by field (R201, R202). -/
theorem hardReset_eq (s : State) : hardReset s =
    { params := s.params
      data := 0#64
      result := 0#64
      status := Status.reset
      rom := 0#64
      fill := 0#16
      cursor := 0#16
      slots := List.replicate s.params.histN.toNat none
      seq := Sequencer.idle
      bus := resetBus s.bus
      rst := s.rst
      nanDraws := s.nanDraws
      grain := s.grain
      pending := s.pending
      reads := s.reads } := rfl

@[simp] theorem resetBus_lineDrv (b : Bus) : (resetBus b).lineDrv = false := by
  unfold resetBus
  split
  · rfl
  · simpa using ‹¬b.lineDrv = true›

@[simp] theorem resetBus_env (b : Bus) : (resetBus b).env = b.env := by unfold resetBus; split <;> rfl

@[simp] theorem resetBus_trace (b : Bus) :
    (resetBus b).trace = b.trace ++ if b.lineDrv then [.release] else [] := by
  unfold resetBus
  split <;> simp [*]

end Sys2Proof.Machine
end

