-- ==== Sys2Proof/Laws/Monitor.lean ====
section
/-! SUPPORT. The thermal monitor: reading a full history, the average, and the free NaN. -/

namespace Sys2Proof.Machine

/-- Slots that are all written give their values, in order. -/
theorem readSlots_written (vs : List Word) (pre : List (Option Word)) :
    readSlots (pre ++ vs.map some) (List.range' pre.length vs.length) = .ok vs := by
  induction vs generalizing pre with
  | nil => simp [readSlots]
  | cons v vs ih =>
    have h := ih (pre ++ [some v])
    simp only [List.length_append, List.length_singleton, List.append_assoc, List.singleton_append] at h
    rw [List.length_cons, List.range'_succ, readSlots, List.map_cons, h]
    simp

/-- The average of a full history, R151. -/
theorem avg_full {s : State} {vs : List Word} (hl : vs.length = s.params.histN.toNat)
    (hs : s.slots = vs.map some) : avg s = .ok (mean vs) := by
  have h := readSlots_written vs []
  simp only [List.nil_append, List.length_nil] at h
  rw [avg, hs, ← hl, List.range_eq_range', h]

/-- A history of which every slot is written is a list of values. -/
theorem slots_of_full {slots : List (Option Word)} (h : ∀ i < slots.length, ∃ v, slots[i]? = some (some v)) :
    ∃ vs : List Word, slots = vs.map some := by
  induction slots with
  | nil => exact ⟨[], rfl⟩
  | cons x xs ih =>
    obtain ⟨v, hv⟩ := h 0 (by simp)
    obtain ⟨vs, rfl⟩ := ih fun i hi => by
      obtain ⟨w, hw⟩ := h (i + 1) (by simpa using hi)
      exact ⟨w, by simpa using hw⟩
    exact ⟨v :: vs, by simpa using hv⟩

/-- Free bits are taken to a NaN encoding, I7. -/
theorem isNaN_asNaN (x : Word) : F64.isNaN (F64.asNaN x) = true := by
  unfold F64.asNaN
  split
  · assumption
  · have hle : F64.quietNaN.toNat ≤ F64.magBits (x ||| F64.quietNaN) := by
      rw [F64.magBits, BitVec.toNat_or, Nat.or_mod_two_pow]
      have hq : F64.quietNaN.toNat % 2 ^ 63 = F64.quietNaN.toNat := by decide
      rw [hq]
      exact Nat.right_le_or
    have hinf : F64.infBits < F64.quietNaN.toNat := by decide
    exact decide_eq_true (Nat.lt_of_lt_of_le hinf hle)

/-- Every free value is a NaN that a NaN average may be returned as. -/
theorem avgBits_isNaN (n : Nat) {a : Word} (h : F64.isNaN a = true) : F64.isNaN (avgBits n a) = true := by
  rw [avgBits, if_pos h]
  exact isNaN_asNaN _

/-- An average that is no NaN is returned as it is. -/
theorem avgBits_number (n : Nat) {a : Word} (h : F64.isNaN a = false) : avgBits n a = a := by
  simp [avgBits, h]

end Sys2Proof.Machine
end

