-- ==== Sys2Proof/Laws/OneWire.lean ====
section
/-! SUPPORT. What each micro-operation of the bus driver does, once and in closed form: the samples it takes,
the trace it leaves, its outcome. Later proofs cite these and do not unfold the micro-operations. -/

namespace Sys2Proof.Machine

/-! ## Buses after line actions -/

/-- A bus that no micro-operation is using: released, no Wait running. -/
def Bus.quiet (b : Bus) : Prop := b.lineDrv = false ∧ b.timer = 0#32

@[simp] theorem after_quiet (b : Bus) (n : Nat) (t : List LineAction) : (b.after n t).quiet := ⟨rfl, rfl⟩

theorem after_nothing {b : Bus} (h : b.quiet) : b.after 0 [] = b := by
  obtain ⟨drv, timer, env, sampled, trace⟩ := b
  obtain ⟨rfl, rfl⟩ := h
  simp [Bus.after]

@[simp] theorem after_after (b : Bus) (n m : Nat) (t u : List LineAction) :
    (b.after n t).after m u = b.after (n + m) (t ++ u) := by
  simp [Bus.after, Nat.add_assoc]

/-- A whole Wait only lengthens the trace. -/
@[simp] theorem wait_after (b : Bus) (n : Nat) (t : List LineAction) (m : Micros) :
    wait m (b.after n t) = b.after n (t ++ [.wait m]) := by
  simp [wait, endWait, loadTimer, Bus.after]

/-- After `n` samples the environment goes on where it was. -/
@[simp] theorem answer_after (b : Bus) (n k : Nat) (t : List LineAction) :
    (b.after n t).answer k = b.answer (n + k) := by
  simp [Bus.answer, Bus.after, Nat.add_assoc]

theorem answer_congr {b c : Bus} (he : b.env = c.env) (hs : b.sampled = c.sampled) (k : Nat) :
    b.answer k = c.answer k := by
  simp [Bus.answer, he, hs]

theorem answer_low_or_high (b : Bus) (k : Nat) : b.answer k = .low ∨ b.answer k = .high := by
  cases b.answer k <;> simp

@[simp] theorem levelOf_bitOf (l : Level) : levelOf (bitOf l) = l := by cases l <;> rfl
@[simp] theorem bitOf_levelOf (v : Bool) : bitOf (levelOf v) = v := by cases v <;> rfl

/-! ## Reset and presence, R102 -/

/-- R102 up to and with the presence sample. -/
theorem presence_sample (p : Params) (b : Bus) :
    sample (wait p.tMsp (release (wait p.tRstl (driveLow b)))) =
      (b.answer 0, b.after 1 (resetHeadTrace p ++ [.sample (b.answer 0)])) := by
  simp [sample, wait, endWait, loadTimer, release, driveLow, Bus.answer, Bus.after, resetHeadTrace]

/-- One poll of R102. -/
theorem poll_sample (p : Params) {b : Bus} (h : b.lineDrv = false) :
    sample (wait p.tPresPoll b) = (b.answer 0, b.after 1 [.wait p.tPresPoll, .sample (b.answer 0)]) := by
  simp [sample, wait, endWait, loadTimer, Bus.answer, Bus.after, h]

/-- The polls end Ok at the first High, if one comes in time. -/
theorem pollRelease_ok (p : Params) {n k : Nat} (hk : k < n) {b : Bus} (hb : b.lineDrv = false)
    (hlow : ∀ i < k, b.answer i = .low) (hhigh : b.answer k = .high) :
    pollRelease p n b =
      (.ok (), b.after (k + 1) (lowPolls p k ++ [.wait p.tPresPoll, .sample .high, .wait p.tRstrec])) := by
  induction k generalizing n b with
  | zero =>
    obtain ⟨m, rfl⟩ : ∃ m, n = m + 1 := ⟨n - 1, by omega⟩
    rw [pollRelease, poll_sample p hb, hhigh]
    simp [lowPolls]
  | succ k ih =>
    obtain ⟨m, rfl⟩ : ∃ m, n = m + 1 := ⟨n - 1, by omega⟩
    have h0 : b.answer 0 = .low := hlow 0 (by omega)
    rw [pollRelease, poll_sample p hb, h0]
    simp only
    rw [ih (by omega) rfl (fun i hi => by rw [answer_after, Nat.add_comm]; exact hlow _ (by omega))
      (by rw [answer_after, Nat.add_comm]; exact hhigh)]
    simp [lowPolls, Nat.add_comm]

/-- The polls end BUS_CONTENTION if all of them read Low. -/
theorem pollRelease_stuck (p : Params) {n : Nat} {b : Bus} (hb : b.quiet) (hlow : ∀ i < n, b.answer i = .low) :
    pollRelease p n b = (.error .busContention, b.after n (lowPolls p n)) := by
  induction n generalizing b with
  | zero => simp [pollRelease, lowPolls, after_nothing hb]
  | succ n ih =>
    have h0 : b.answer 0 = .low := hlow 0 (by omega)
    rw [pollRelease, poll_sample p hb.1, h0]
    simp only
    rw [ih (after_quiet ..) (fun i hi => by rw [answer_after, Nat.add_comm]; exact hlow _ (by omega))]
    simp [lowPolls, Nat.add_comm]

/-- ResetPulse without presence. -/
theorem resetPulse_noPresence (p : Params) {b : Bus} (h : b.answer 0 = .high) :
    resetPulse p b = (.error .noPresence, b.after 1 (noPresenceTrace p)) := by
  simp [resetPulse, presence_sample, h, noPresenceTrace]

/-- ResetPulse that succeeds after `n` polls read Low. -/
theorem resetPulse_ok (p : Params) {b : Bus} {n : Nat} (h : b.answersPresence p n) :
    resetPulse p b = (.ok (), b.after (n + 2) (resetOkTrace p n)) := by
  obtain ⟨hn, hlow, hhigh⟩ := h
  have h0 := hlow 0 (by omega)
  rw [resetPulse, presence_sample, h0]
  simp only
  rw [pollRelease_ok p hn rfl (fun i hi => by rw [answer_after, Nat.add_comm]; exact hlow _ (by omega))
    (by rw [answer_after, Nat.add_comm]; exact hhigh)]
  simp [resetOkTrace, Nat.add_left_comm]

/-- ResetPulse with the line held low. -/
theorem resetPulse_stuck (p : Params) {b : Bus} (h : b.answersStuckLow p) :
    resetPulse p b = (.error .busContention, b.after (p.nPresPoll.toNat + 1) (stuckLowTrace p)) := by
  have h0 := h 0 (by omega)
  rw [resetPulse, presence_sample, h0]
  simp only
  rw [pollRelease_stuck p (after_quiet ..)
    (fun i hi => by rw [answer_after, Nat.add_comm]; exact h _ (by omega))]
  simp [stuckLowTrace, Nat.add_comm]

/-- Every environment answers a reset pulse in one of the three ways of R102. -/
theorem presence_cases (p : Params) (b : Bus) :
    b.answer 0 = .high ∨ (∃ n, b.answersPresence p n) ∨ b.answersStuckLow p := by
  rcases answer_low_or_high b 0 with h0 | h0
  · right
    by_cases h : ∃ k, k < p.nPresPoll.toNat ∧ b.answer (k + 1) = .high
    · left
      classical
      refine ⟨Nat.find h, (Nat.find_spec h).1, fun k hk => ?_, (Nat.find_spec h).2⟩
      cases k with
      | zero => exact h0
      | succ k =>
        have hmin := Nat.find_min h (m := k) (by omega)
        have hlt := (Nat.find_spec h).1
        rcases answer_low_or_high b (k + 1) with hl | hh
        · exact hl
        · exact absurd ⟨by omega, hh⟩ hmin
    · right
      intro k hk
      cases k with
      | zero => exact h0
      | succ k =>
        rcases answer_low_or_high b (k + 1) with hl | hh
        · exact hl
        · exact absurd ⟨k, by omega, hh⟩ h
  · exact .inl h0

/-! ## Slots, R103 to R105 -/

theorem write1_sample (p : Params) (b : Bus) :
    sample (wait (p.tSlot - p.tLow1) (release (wait p.tLow1 (driveLow b)))) =
      (b.answer 0, b.after 1 [.driveLow, .wait p.tLow1, .release, .wait (p.tSlot - p.tLow1),
        .sample (b.answer 0)]) := by
  simp [sample, wait, endWait, loadTimer, release, driveLow, Bus.answer, Bus.after]

theorem writeSlot1_high (p : Params) {b : Bus} (h : b.answer 0 = .high) :
    writeSlot1 p b = (.ok (), b.after 1 (write1Trace p)) := by
  rw [writeSlot1, write1_sample, h]
  simp [write1Trace]

theorem writeSlot1_low (p : Params) {b : Bus} (h : b.answer 0 = .low) :
    writeSlot1 p b = (.error .busContention, b.after 1 (write1FailTrace p)) := by
  rw [writeSlot1, write1_sample, h]
  simp [write1FailTrace]

theorem writeSlot0_eq (p : Params) (b : Bus) : writeSlot0 p b = (.ok (), b.after 0 (write0Trace p)) := by
  simp [writeSlot0, wait, endWait, loadTimer, release, driveLow, Bus.after, write0Trace]

theorem readSlot_eq (p : Params) (b : Bus) :
    readSlot p b = (bitOf (b.answer 0), b.after 1 (readSlotTrace p (b.answer 0))) := by
  simp [readSlot, sample, wait, endWait, loadTimer, release, driveLow, Bus.answer, Bus.after, readSlotTrace]

/-! ## Bytes, R106 and R107 -/

/-- Bits that all pass their check: each write-1 slot takes one sample, each write-0 slot none. -/
theorem writeBits_ok (p : Params) (v : Byte) (ks : List Nat) {b : Bus} (hb : b.quiet ∨ ks ≠ [])
    (h : b.answersHigh 0 (checksOf v ks)) :
    writeBits p v ks b = (.ok (), b.after (checksOf v ks) (writeBitsTrace p v ks)) := by
  induction ks generalizing b with
  | nil => simp [writeBits, checksOf, writeBitsTrace, after_nothing (hb.resolve_right (by simp))]
  | cons k ks ih =>
    by_cases hk : v.getLsbD k
    · have hc : checksOf v (k :: ks) = checksOf v ks + 1 := by simp [checksOf, hk]
      have h0 : b.answer 0 = .high := by simpa using h 0 (by omega)
      rw [writeBits, writeSlot, if_pos hk, writeSlot1_high p h0]
      simp only
      rw [ih (.inl (after_quiet ..)) (fun i hi => by
        rw [answer_after]
        have := h (i + 1) (by omega)
        simpa [Nat.add_comm] using this)]
      simp [hc, writeBitsTrace, hk, Nat.add_comm]
    · have hc : checksOf v (k :: ks) = checksOf v ks := by simp [checksOf, hk]
      rw [writeBits, writeSlot, if_neg hk, writeSlot0_eq]
      simp only
      rw [ih (.inl (after_quiet ..)) (fun i hi => by
        rw [answer_after]
        simpa using h i (by omega))]
      simp [hc, writeBitsTrace, hk]

/-- Bits up to a write-1 slot whose check reads Low: no bit after it is sent. -/
theorem writeBits_fail (p : Params) (v : Byte) (pre : List Nat) (k : Nat) (post : List Nat) {b : Bus}
    (h : b.answersHigh 0 (checksOf v pre)) (hk : v.getLsbD k = true)
    (hlow : b.answer (checksOf v pre) = .low) :
    writeBits p v (pre ++ k :: post) b =
      (.error .busContention, b.after (checksOf v pre + 1) (writeBitsTrace p v pre ++ write1FailTrace p)) := by
  induction pre generalizing b with
  | nil =>
    have h0 : b.answer 0 = .low := by simpa [checksOf] using hlow
    simp [writeBits, writeSlot, hk, writeSlot1_low p h0, checksOf, writeBitsTrace]
  | cons j pre ih =>
    by_cases hj : v.getLsbD j
    · have hc : checksOf v (j :: pre) = checksOf v pre + 1 := by simp [checksOf, hj]
      have h0 : b.answer 0 = .high := by simpa using h 0 (by omega)
      rw [List.cons_append, writeBits, writeSlot, if_pos hj, writeSlot1_high p h0]
      simp only
      rw [ih (fun i hi => by
        rw [answer_after]
        have := h (i + 1) (by omega)
        simpa [Nat.add_comm] using this)
        (by rw [answer_after, Nat.add_comm, ← hc]; exact hlow)]
      simp [hc, writeBitsTrace, hj, Nat.add_comm]
    · have hc : checksOf v (j :: pre) = checksOf v pre := by simp [checksOf, hj]
      rw [List.cons_append, writeBits, writeSlot, if_neg hj, writeSlot0_eq]
      simp only
      rw [ih (fun i hi => by
        rw [answer_after]
        simpa using h i (by omega))
        (by rw [answer_after, Nat.zero_add, ← hc]; exact hlow)]
      simp [hc, writeBitsTrace, hj]

/-- The eight bit numbers, parted at one of them. -/
theorem range_eight_split {k : Nat} (hk : k < 8) :
    List.range 8 = List.range k ++ k :: List.range' (k + 1) (7 - k) := by
  interval_cases k <;> rfl

/-! ## The head of OW.RDROM and OW.RDPWR -/

/-- The reset pulse and the command byte succeed. -/
theorem resetAndWrite_ok {p : Params} {v : Byte} {b : Bus} {n : Nat} (h : b.answersPresence p n)
    (hh : b.answersHigh (n + 2) (checksOf v (List.range 8))) :
    resetAndWrite p v b = (.ok (), b.after (n + 2 + checksOf v (List.range 8))
      (resetOkTrace p n ++ writeBitsTrace p v (List.range 8))) := by
  rw [resetAndWrite, resetPulse_ok _ h]
  simp only [writeByte]
  rw [writeBits_ok _ _ _ (.inl (after_quiet ..)) (fun i hi => by rw [answer_after]; simpa using hh i hi)]
  simp

/-- The reset pulse succeeds and the command byte fails at its bit `k`. -/
theorem resetAndWrite_fail {p : Params} {v : Byte} {b : Bus} {n k : Nat} (h : b.answersPresence p n)
    (hk : k < 8) (hv : v.getLsbD k = true) (hh : b.answersHigh (n + 2) (checksOf v (List.range k)))
    (hl : b.answer (n + 2 + checksOf v (List.range k)) = .low) :
    resetAndWrite p v b = (.error .busContention, b.after (n + 2 + (checksOf v (List.range k) + 1))
      (resetOkTrace p n ++ (writeBitsTrace p v (List.range k) ++ write1FailTrace p))) := by
  rw [resetAndWrite, resetPulse_ok _ h]
  simp only [writeByte]
  rw [range_eight_split hk, writeBits_fail _ _ _ _ _
    (fun i hi => by rw [answer_after]; simpa using hh i hi) hv (by rw [answer_after]; exact hl)]
  simp

/-- Every environment lets a byte's checks all pass, or fails a first one. -/
theorem checks_cases (b : Bus) (at_ : Nat) (v : Byte) :
    b.answersHigh at_ (checksOf v (List.range 8)) ∨
    ∃ k < 8, v.getLsbD k = true ∧ b.answersHigh at_ (checksOf v (List.range k)) ∧
      b.answer (at_ + checksOf v (List.range k)) = .low := by
  have key : ∀ m, b.answersHigh at_ (checksOf v (List.range m)) ∨
      ∃ k < m, v.getLsbD k = true ∧ b.answersHigh at_ (checksOf v (List.range k)) ∧
        b.answer (at_ + checksOf v (List.range k)) = .low := by
    intro m
    induction m with
    | zero => exact .inl fun k hk => absurd hk (by simp [checksOf])
    | succ m ih =>
      rcases ih with hall | ⟨k, hk, h⟩
      · by_cases hv : v.getLsbD m = true
        · have hc : checksOf v (List.range (m + 1)) = checksOf v (List.range m) + 1 := by
            simp [checksOf, List.range_succ, hv]
          rcases answer_low_or_high b (at_ + checksOf v (List.range m)) with hl | hh
          · exact .inr ⟨m, by omega, hv, hall, hl⟩
          · refine .inl fun k hk => ?_
            rcases Nat.lt_or_ge k (checksOf v (List.range m)) with hlt | hge
            · exact hall k hlt
            · rw [show k = checksOf v (List.range m) by omega]
              exact hh
        · refine .inl ?_
          have hc : checksOf v (List.range (m + 1)) = checksOf v (List.range m) := by
            simp [checksOf, List.range_succ, hv]
          rwa [hc]
      · exact .inr ⟨k, by omega, h⟩
  exact key 8

/-! ## Reading bytes -/

/-- The levels the environment answers to the next `n` samples. -/
def Bus.answers (b : Bus) (n : Nat) : List Level := (List.range n).map b.answer

/-- Reading bits: the k-th sample is bit k. -/
theorem readBits_eq (p : Params) (ks : List Nat) (r : Byte) {b : Bus} (hb : b.quiet ∨ ks ≠ []) :
    readBits p ks r b =
      ((ks.zip (b.answers ks.length)).foldl (fun r kl => setBit r kl.1 (bitOf kl.2)) r,
        b.after ks.length (readTrace p (b.answers ks.length))) := by
  induction ks generalizing r b with
  | nil => simp [readBits, Bus.answers, readTrace, after_nothing (hb.resolve_right (by simp))]
  | cons k ks ih =>
    have hs : b.answers (ks.length + 1) =
        b.answer 0 :: (b.after 1 (readSlotTrace p (b.answer 0))).answers ks.length := by
      simp [Bus.answers, List.range_succ_eq_map, Function.comp_def, Nat.add_comm]
    rw [readBits, readSlot_eq]
    simp only
    rw [ih _ (.inl (after_quiet ..)), List.length_cons, hs]
    simp [readTrace, Nat.add_comm]

theorem answers_of_levels {b : Bus} {ls : List Level} (h : b.answersLevels 0 ls) : b.answers ls.length = ls := by
  apply List.ext_getElem
  · simp [Bus.answers]
  · intro k h1 h2
    simpa [Bus.answers] using h k h2

@[simp] theorem levelsOfByte_length (r : Byte) : (levelsOfByte r).length = 8 := by simp [levelsOfByte]
@[simp] theorem levelsOfRom_length (r : Word) : (levelsOfRom r).length = 64 := by simp [levelsOfRom]

/-- Setting the eight bits of a byte one by one gives the byte. -/
theorem byte_of_bits (r : Byte) :
    ((List.range 8).zip (levelsOfByte r)).foldl (fun r kl => setBit r kl.1 (bitOf kl.2)) 0x00#8 = r := by
  revert r
  decide +kernel

/-- ReadByte, when the environment answers the bits of `r`. -/
theorem readByte_levels (p : Params) (r : Byte) {b : Bus}
    (h : b.answersLevels 0 (levelsOfByte r)) :
    readByte p b = (r, b.after 8 (readTrace p (levelsOfByte r))) := by
  have ha := answers_of_levels h
  rw [levelsOfByte_length] at ha
  rw [readByte, readBits_eq p _ _ (.inr (by simp))]
  simp only [List.length_range, ha, byte_of_bits]

/-- Every environment answers eight read slots with the bits of one byte. -/
theorem levels_of_byte (b : Bus) : ∃ r, b.answersLevels 0 (levelsOfByte r) := by
  refine ⟨(BitVec.ofFnLE fun k : Fin 8 => bitOf (b.answer k)), fun k hk => ?_⟩
  simp only [levelsOfByte_length] at hk
  simp [levelsOfByte, hk]

end Sys2Proof.Machine
end

