-- ==== Sys2Proof/Laws/Rom.lean ====
section
/-! SUPPORT. The 64-bit ROM readout (41_onewire_commands.md R126): bytes of a word, and what the 64 read
slots of OW.RDROM receive. -/

namespace Sys2Proof.Machine

/-- Bit `i` after a byte was set. -/
theorem setByte_getLsbD (r : Word) (k : Nat) (v : Byte) (i : Nat) (hi : i < 64) :
    (setByte r k v).getLsbD i = if 8 * k ≤ i ∧ i < 8 * k + 8 then v.getLsbD (i - 8 * k) else r.getLsbD i := by
  have hff : ∀ j, (0xFF#64).getLsbD j = decide (j < 8) := by
    intro j
    by_cases hj : j < 64
    · interval_cases j <;> rfl
    · rw [BitVec.getLsbD_of_ge _ _ (by omega)]; simp; omega
  simp only [setByte, BitVec.getLsbD_or, BitVec.getLsbD_and, BitVec.getLsbD_not, BitVec.getLsbD_shiftLeft,
    BitVec.getLsbD_setWidth, hi, hff]
  by_cases h1 : i < 8 * k
  · simp [h1]
  · by_cases h2 : i < 8 * k + 8
    · have : i - 8 * k < 8 := by omega
      simp [h1, h2, this, show 8 * k ≤ i by omega]; omega
    · have h3 : ¬ i - 8 * k < 8 := by omega
      simp [h1, h2, h3, BitVec.getLsbD_of_ge v (i - 8 * k) (by omega)]

/-- The levels that carry the bits of `r` from bit `a` on. -/
def levelsFrom (r : Word) (a n : Nat) : List Level := (List.range' a n).map fun k => levelOf (r.getLsbD k)

@[simp] theorem levelsFrom_length (r : Word) (a n : Nat) : (levelsFrom r a n).length = n := by simp [levelsFrom]

theorem levelsOfRom_eq (r : Word) : levelsOfRom r = levelsFrom r 0 64 := by
  simp [levelsOfRom, levelsFrom, List.range_eq_range']

theorem levelsFrom_add (r : Word) (a m n : Nat) :
    levelsFrom r a (m + n) = levelsFrom r a m ++ levelsFrom r (a + m) n := by
  simp [levelsFrom, ← List.map_append, List.range'_append_1]

theorem levelsOfByte_byteOf (r : Word) (k : Nat) : levelsOfByte (byteOf r k) = levelsFrom r (8 * k) 8 := by
  apply List.ext_getElem
  · simp
  · intro i h1 h2
    simp only [levelsOfByte_length] at h1
    simp [levelsOfByte, levelsFrom, byteOf, h1]

theorem answersLevels_append {b : Bus} {at_ : Nat} {ls ms : List Level} :
    b.answersLevels at_ (ls ++ ms) ↔ b.answersLevels at_ ls ∧ b.answersLevels (at_ + ls.length) ms := by
  constructor
  · intro h
    refine ⟨fun k hk => ?_, fun k hk => ?_⟩
    · have := h k (by simp; omega)
      rwa [List.getElem_append_left hk] at this
    · have := h (ls.length + k) (by simp; omega)
      simpa [Nat.add_assoc] using this
  · rintro ⟨h1, h2⟩ k hk
    by_cases hlt : k < ls.length
    · rw [List.getElem_append_left hlt]
      exact h1 k hlt
    · have := h2 (k - ls.length) (by simp at hk; omega)
      rw [List.getElem_append_right (by omega), ← this]
      congr 1
      omega

theorem answersLevels_after {b : Bus} {n at_ : Nat} {t : List LineAction} {ls : List Level} :
    (b.after n t).answersLevels at_ ls ↔ b.answersLevels (n + at_) ls := by
  simp [Bus.answersLevels, Nat.add_assoc]

theorem readTrace_append (p : Params) (ls ms : List Level) :
    readTrace p (ls ++ ms) = readTrace p ls ++ readTrace p ms := by
  simp [readTrace]

/-- Reading bytes, when the environment answers the bits of `r` from byte `m` on. -/
theorem readBytes_levels (p : Params) (r : Word) (m n : Nat) (acc : Word) {b : Bus} (hb : b.quiet ∨ n ≠ 0)
    (h : b.answersLevels 0 (levelsFrom r (8 * m) (8 * n))) :
    readBytes p (List.range' m n) acc b =
      ((List.range' m n).foldl (fun acc k => setByte acc k (byteOf r k)) acc,
        b.after (8 * n) (readTrace p (levelsFrom r (8 * m) (8 * n)))) := by
  induction n generalizing m acc b with
  | zero => simp [readBytes, levelsFrom, readTrace, after_nothing (hb.resolve_right (by simp))]
  | succ n ih =>
    have hsplit : levelsFrom r (8 * m) (8 * (n + 1)) =
        levelsOfByte (byteOf r m) ++ levelsFrom r (8 * (m + 1)) (8 * n) := by
      rw [levelsOfByte_byteOf, Nat.mul_succ, Nat.add_comm (8 * n), levelsFrom_add, Nat.mul_succ]
    rw [hsplit, answersLevels_append] at h
    rw [List.range'_succ, readBytes, readByte_levels p _ h.1]
    simp only
    rw [ih (m + 1) _ (.inl (after_quiet ..)) (answersLevels_after.2 (by simpa using h.2)), hsplit, readTrace_append]
    simp [Nat.mul_succ, Nat.add_comm]

/-- Joining bytes of `r` into `acc`: bits `8m` to `8(m+n)` become those of `r`. -/
theorem bytes_joined (r : Word) (m n : Nat) (acc : Word) (i : Nat) (hi : i < 64) :
    ((List.range' m n).foldl (fun acc k => setByte acc k (byteOf r k)) acc).getLsbD i =
      if 8 * m ≤ i ∧ i < 8 * (m + n) then r.getLsbD i else acc.getLsbD i := by
  induction n generalizing m acc with
  | zero => simp
  | succ n ih =>
    rw [List.range'_succ, List.foldl_cons, ih, setByte_getLsbD _ _ _ _ hi]
    by_cases h : 8 * m ≤ i ∧ i < 8 * m + 8
    · have h1 : ¬(8 * (m + 1) ≤ i) := by omega
      have h2 : i - 8 * m < 8 := by omega
      have h3 : 8 * m + (i - 8 * m) = i := by omega
      have h4 : i < 8 * (m + (n + 1)) := by omega
      simp [h1, h, h2, h3, h4, byteOf]
    · have h1 : (8 * (m + 1) ≤ i ∧ i < 8 * (m + 1 + n)) ↔ (8 * m ≤ i ∧ i < 8 * (m + (n + 1))) := by omega
      simp only [h, if_false, h1]

/-- Joining the eight bytes of a word one by one gives the word. -/
theorem word_of_bytes (r : Word) :
    (List.range' 0 8).foldl (fun acc k => setByte acc k (byteOf r k)) 0#64 = r := by
  apply BitVec.eq_of_getLsbD_eq
  intro i hi
  rw [bytes_joined _ _ _ _ _ hi]
  simp [show i < 8 * (0 + 8) by omega]

/-- The readout of R126, when the environment answers the bits of `r`. -/
theorem readRomBits_levels (p : Params) (r : Word) {b : Bus}
    (h : b.answersLevels 0 (levelsOfRom r)) :
    readRomBits p b = (r, b.after 64 (readTrace p (levelsOfRom r))) := by
  rw [levelsOfRom_eq] at h ⊢
  rw [readRomBits, List.range_eq_range', readBytes_levels p r 0 8 _ (.inr (by simp)) h, word_of_bytes]

/-! ## Validation, R122 -/

theorem validateRom_crc {p : Params} {r : Word} (h : crc8 (romPayload r) ≠ romCrc r) :
    validateRom p r = .error .crc := if_pos h

theorem validateRom_family {p : Params} {r : Word} (h : crc8 (romPayload r) = romCrc r)
    (hf : romFamily r ≠ p.familyCode) : validateRom p r = .error .unexpectedFamily := by
  rw [validateRom, if_neg (not_not.2 h), if_pos hf]

theorem validateRom_ok {p : Params} {r : Word} (h : crc8 (romPayload r) = romCrc r)
    (hf : romFamily r = p.familyCode) : validateRom p r = .ok () := by
  rw [validateRom, if_neg (not_not.2 h), if_neg (not_not.2 hf)]

/-- A value that validates has a matching CRC byte and the expected family code. -/
theorem validateRom_ok_iff {p : Params} {r : Word} :
    validateRom p r = .ok () ↔ crc8 (romPayload r) = romCrc r ∧ romFamily r = p.familyCode := by
  refine ⟨fun h => ?_, fun ⟨h, hf⟩ => validateRom_ok h hf⟩
  by_cases hc : crc8 (romPayload r) = romCrc r
  · by_cases hf : romFamily r = p.familyCode
    · exact ⟨hc, hf⟩
    · rw [validateRom_family hc hf] at h; cases h
  · rw [validateRom_crc hc] at h; cases h

/-- Every environment answers 64 read slots with the bits of one word. -/
theorem levels_of_rom (b : Bus) (at_ : Nat) : ∃ r, b.answersLevels at_ (levelsOfRom r) := by
  refine ⟨(BitVec.ofFnLE fun k : Fin 64 => bitOf (b.answer (at_ + k))), fun k hk => ?_⟩
  simp only [levelsOfRom_length] at hk
  simp [levelsOfRom, hk]

end Sys2Proof.Machine
end

