-- ==== Sys2Proof/Laws/Commands.lean ====
section
/-! SUPPORT. What a command can do, said once: the line actions of each micro-operation (their samples, their
trace, their time), and the ways a command ends. Later proofs about every command split these cases and unfold
no effect. -/

namespace Sys2Proof.Machine

/-! ## Traces -/

@[simp] theorem traceTime_append (t u : List LineAction) : traceTime (t ++ u) = traceTime t + traceTime u := by
  induction t with
  | nil => simp [traceTime]
  | cons a t ih => cases a <;> simp [traceTime, ih, Nat.add_assoc]

theorem lineAfter_append (t u : List LineAction) (d : Bool) :
    lineAfter (t ++ u) d = (lineAfter t d).bind (lineAfter u) := by
  induction t generalizing d with
  | nil => simp [lineAfter]
  | cons a t ih =>
    cases a with
    | driveLow => simp [lineAfter, ih]
    | release => simp [lineAfter, ih]
    | wait n => simp [lineAfter, ih]
    | sample l => cases d <;> simp [lineAfter, ih]

/-! ## Line actions of a micro-operation -/

/-- From the bus `b`, line actions that started with DriveLow, sampled only a released line, took at most `m`
microseconds and left the line released have led to `c`. -/
def Bus.acts (b c : Bus) (m : Nat) : Prop :=
  ∃ n t, c = b.after n t ∧ (∀ d, lineAfter t d = some false) ∧ traceTime t ≤ m

theorem Bus.acts.trans {b c d : Bus} {m n : Nat} (h : b.acts c m) (h' : c.acts d n) : b.acts d (m + n) := by
  obtain ⟨k, t, rfl, ht, hm⟩ := h
  obtain ⟨k', t', rfl, ht', hn⟩ := h'
  refine ⟨k + k', t ++ t', by simp, fun d => ?_, ?_⟩
  · simp [lineAfter_append, ht, ht']
  · rw [traceTime_append]; omega

theorem Bus.acts.mono {b c : Bus} {m n : Nat} (h : b.acts c m) (hmn : m ≤ n) : b.acts c n := by
  obtain ⟨k, t, hc, ht, hm⟩ := h
  exact ⟨k, t, hc, ht, hm.trans hmn⟩

/-- The longest a reset pulse can take (R212, RST_OK at the last poll). -/
def resetBound (p : Params) : Nat :=
  p.tRstl.toNat + p.tMsp.toNat + p.nPresPoll.toNat * p.tPresPoll.toNat + p.tRstrec.toNat

/-- SLOT of R212. -/
def slotBound (p : Params) : Nat := p.tSlot.toNat + p.tRec.toNat

theorem lowPolls_time (p : Params) (n : Nat) : traceTime (lowPolls p n) = n * p.tPresPoll.toNat := by
  induction n with
  | zero => simp [lowPolls, traceTime]
  | succ n ih => simp [lowPolls, traceTime, ih, Nat.succ_mul, Nat.add_comm]

theorem lowPolls_line (p : Params) (n : Nat) : lineAfter (lowPolls p n) false = some false := by
  induction n with
  | zero => rfl
  | succ n ih => simpa [lowPolls, lineAfter] using ih

/-- ResetPulse, whatever the environment answers. -/
theorem resetPulse_acts (p : Params) (b : Bus) : b.acts (resetPulse p b).2 (resetBound p) := by
  rcases presence_cases p b with h | ⟨n, h⟩ | h
  · rw [resetPulse_noPresence p h]
    refine ⟨_, _, rfl, fun d => rfl, ?_⟩
    simp [noPresenceTrace, resetHeadTrace, traceTime, resetBound]; omega
  · rw [resetPulse_ok p h]
    refine ⟨_, _, rfl, fun d => ?_, ?_⟩
    · simp [resetOkTrace, resetHeadTrace, lineAfter, lineAfter_append, lowPolls_line]
    · have := Nat.mul_le_mul_right p.tPresPoll.toNat (Nat.succ_le_of_lt h.1)
      rw [Nat.succ_mul] at this
      simp [resetOkTrace, resetHeadTrace, traceTime, lowPolls_time, resetBound]; omega
  · rw [resetPulse_stuck p h]
    refine ⟨_, _, rfl, fun d => ?_, ?_⟩
    · simp [stuckLowTrace, resetHeadTrace, lineAfter, lowPolls_line]
    · simp [stuckLowTrace, resetHeadTrace, traceTime, lowPolls_time, resetBound]; omega

/-! ### Slots -/

theorem sub_toNat {a b : Micros} (h : b.toNat ≤ a.toNat) : (a - b).toNat = a.toNat - b.toNat :=
  BitVec.toNat_sub_of_le h

/-- A completed write-1 slot lasts SLOT (R108). -/
theorem write1Trace_time {p : Params} (hp : p.WellFormed) : traceTime (write1Trace p) = slotBound p := by
  obtain ⟨-, h, -⟩ := (Params.wellFormed_iff p).1 hp
  simp [write1Trace, traceTime, slotBound, sub_toNat h.le]; omega

/-- A failed write-1 slot lasts T_SLOT (R103). -/
theorem write1FailTrace_time {p : Params} (hp : p.WellFormed) : traceTime (write1FailTrace p) = p.tSlot.toNat := by
  obtain ⟨-, h, -⟩ := (Params.wellFormed_iff p).1 hp
  simp [write1FailTrace, traceTime, sub_toNat h.le]; omega

/-- A write-0 slot lasts SLOT (R108). -/
theorem write0Trace_time {p : Params} (hp : p.WellFormed) : traceTime (write0Trace p) = slotBound p := by
  obtain ⟨-, -, h, -⟩ := (Params.wellFormed_iff p).1 hp
  simp [write0Trace, traceTime, slotBound, sub_toNat h.le]; omega

/-- A read slot lasts SLOT (R108). -/
theorem readSlotTrace_time {p : Params} (hp : p.WellFormed) (l : Level) :
    traceTime (readSlotTrace p l) = slotBound p := by
  obtain ⟨-, -, -, h, -⟩ := (Params.wellFormed_iff p).1 hp
  have h1 := sub_toNat (a := p.tSlot) (b := p.tRdl) (by omega)
  have h2 := sub_toNat (a := p.tSlot - p.tRdl) (b := p.tRds) (by omega)
  simp [readSlotTrace, traceTime, slotBound, h1, h2]; omega

theorem writeSlot_acts {p : Params} (hp : p.WellFormed) (v : Bool) (b : Bus) :
    b.acts (writeSlot p v b).2 (slotBound p) := by
  unfold writeSlot
  split
  · rcases answer_low_or_high b 0 with h | h
    · rw [writeSlot1_low p h]
      exact ⟨_, _, rfl, fun d => rfl, by rw [write1FailTrace_time hp]; simp [slotBound]⟩
    · rw [writeSlot1_high p h]
      exact ⟨_, _, rfl, fun d => rfl, (write1Trace_time hp).le⟩
  · rw [writeSlot0_eq]
    exact ⟨_, _, rfl, fun d => rfl, (write0Trace_time hp).le⟩

theorem readSlot_acts {p : Params} (hp : p.WellFormed) (b : Bus) : b.acts (readSlot p b).2 (slotBound p) := by
  rw [readSlot_eq]
  exact ⟨_, _, rfl, fun d => rfl, (readSlotTrace_time hp _).le⟩

/-- The slots of some bits of a byte, at least one. -/
theorem writeBits_acts {p : Params} (hp : p.WellFormed) (v : Byte) (k : Nat) (ks : List Nat) (b : Bus) :
    b.acts (writeBits p v (k :: ks) b).2 ((ks.length + 1) * slotBound p) := by
  induction ks generalizing k b with
  | nil =>
    have h := writeSlot_acts hp (v.getLsbD k) b
    rw [writeBits]
    split <;> next heq => rw [heq] at h; simpa [writeBits] using h
  | cons j ks ih =>
    have h := writeSlot_acts hp (v.getLsbD k) b
    rw [writeBits]
    split <;> next heq =>
      rw [heq] at h
      first
        | exact (h.trans (ih j _)).mono (by rw [List.length_cons]; linarith [Nat.succ_mul (ks.length + 1) (slotBound p)])
        | exact h.mono (Nat.le_mul_of_pos_left _ (by omega))

theorem writeByte_acts {p : Params} (hp : p.WellFormed) (v : Byte) (b : Bus) :
    b.acts (writeByte p v b).2 (8 * slotBound p) := writeBits_acts hp v 0 [1, 2, 3, 4, 5, 6, 7] b

/-- Read slots, at least one. -/
theorem readBits_acts {p : Params} (hp : p.WellFormed) (k : Nat) (ks : List Nat) (r : Byte) (b : Bus) :
    b.acts (readBits p (k :: ks) r b).2 ((ks.length + 1) * slotBound p) := by
  induction ks generalizing k r b with
  | nil => simpa [readBits] using readSlot_acts hp b
  | cons j ks ih =>
    rw [readBits]
    exact ((readSlot_acts hp b).trans (ih j _ _)).mono
      (by rw [List.length_cons]; linarith [Nat.succ_mul (ks.length + 1) (slotBound p)])

theorem readByte_acts {p : Params} (hp : p.WellFormed) (b : Bus) :
    b.acts (readByte p b).2 (8 * slotBound p) := readBits_acts hp 0 [1, 2, 3, 4, 5, 6, 7] 0#8 b

theorem readBytes_acts {p : Params} (hp : p.WellFormed) (k : Nat) (ks : List Nat) (r : Word) (b : Bus) :
    b.acts (readBytes p (k :: ks) r b).2 ((ks.length + 1) * (8 * slotBound p)) := by
  induction ks generalizing k r b with
  | nil => simpa [readBytes] using readByte_acts hp b
  | cons j ks ih =>
    rw [readBytes]
    exact ((readByte_acts hp b).trans (ih j _ _)).mono
      (by rw [List.length_cons]; linarith [Nat.succ_mul (ks.length + 1) (8 * slotBound p)])

theorem readRomBits_acts {p : Params} (hp : p.WellFormed) (b : Bus) :
    b.acts (readRomBits p b).2 (64 * slotBound p) :=
  (readBytes_acts hp 0 [1, 2, 3, 4, 5, 6, 7] 0#64 b).mono (by simp; omega)

theorem resetAndWrite_acts {p : Params} (hp : p.WellFormed) (v : Byte) (b : Bus) :
    b.acts (resetAndWrite p v b).2 (resetBound p + 8 * slotBound p) := by
  have h := resetPulse_acts p b
  unfold resetAndWrite
  split <;> next heq =>
    rw [heq] at h
    first
      | exact h.trans (writeByte_acts hp v _)
      | exact h.mono (by omega)

/-! ## The ways a command ends -/

/-- From `s`, in which the command `i` has been accepted and may have acted on the line, its rule ends it in the
state `u` with the outcome `o`: one case per `return` of 41_onewire_commands.md and 42_thermal_monitor.md. -/
inductive Ends (i : Instr) (s : State) : State → CmdOutcome → Prop where
  | noTransaction (h : (∃ v, i = .owWrb v) ∨ i = .owRdb) (hb : s.status.txn = false) :
      Ends i s s (.fault .noTransaction)
  | notReady (h : i = .tmAvg) (hf : s.fill ≠ s.params.histN) : Ends i s s (.fault .notReady)
  | proto (c : ProtoCode) (b : Bus)
      (h : i = .owReset ∨ (∃ v, i = .owWrb v) ∨ i = .owRdrom ∨ i = .owRdpwr) :
      Ends i s { s with bus := b, status := { s.status with txn := false } } (.proto c)
  | owReset (b : Bus) (h : i = .owReset) :
      Ends i s { s with bus := b, status := { s.status with txn := true } } .ok
  | owWrb (v : Byte) (b : Bus) (h : i = .owWrb v) : Ends i s { s with bus := b } .ok
  | owRdb (r : Byte) (b : Bus) (h : i = .owRdb) :
      Ends i s { s with bus := b, result := r.setWidth 64 } .ok
  | owRdrom (r : Word) (b : Bus) (h : i = .owRdrom) (hv : validateRom s.params r = .ok ()) :
      Ends i s { s with
        bus := b, rom := r, result := r,
        status := { s.status with txn := false, romv := true } } .ok
  | owRdpwr (v : Bool) (b : Bus) (h : i = .owRdpwr) :
      Ends i s { s with bus := b, result := zext1 v, status := { s.status with txn := false } } .ok
  | tmRec (h : i = .tmRec) :
      Ends i s { s with
        slots := s.slots.set s.cursor.toNat (some s.seq.sample),
        cursor := nextCursor s.params s.cursor,
        fill := nextFill s.params s.fill,
        status := { s.status with ready := readyFlag s.params (nextFill s.params s.fill) } } .ok
  | tmRdy (h : i = .tmRdy) : Ends i s { s with result := zext1 (s.fill == s.params.histN) } .ok
  | tmAvg (r : Word) (n : Nat) (h : i = .tmAvg) (hf : s.fill = s.params.histN) :
      Ends i s { s with result := r, nanDraws := n } .ok
  | tmAlrm (a v : Bool) (h : i = .tmAlrm a) : Ends i s { s with result := zext1 v } .ok

/-- The effect of each command. -/
def effectOf : Instr → State → Effect
  | .owReset => owResetEffect
  | .owWrb v => owWrbEffect v
  | .owRdb => owRdbEffect
  | .owRdrom => owRdromEffect
  | .owRdpwr => owRdpwrEffect
  | .tmRec => tmRecEffect
  | .tmRdy => tmRdyEffect
  | .tmAvg => tmAvgEffect
  | .tmAlrm a => tmAlrmEffect a

/-- Every meaning is its effect between acceptance and completion. -/
theorem exec_eq_runCommand (i : Instr) (s : State) : exec i s = runCommand i (effectOf i) s := by
  cases i <;> rfl

/-- The monitor's commands, which do not touch the line. -/
def onMonitor : Instr → Bool
  | .owReset => false
  | .owWrb _ => false
  | .owRdb => false
  | .owRdrom => false
  | .owRdpwr => false
  | .tmRec => true
  | .tmRdy => true
  | .tmAvg => true
  | .tmAlrm _ => true

/-- What an end can leave of the bus: as it was, after a monitor command or a fault (R177), or after line actions
within the bound of R213. -/
def busEnd (i : Instr) (o : CmdOutcome) (s u : State) : Prop :=
  (u.bus = s.bus ∧ (onMonitor i = true ∨ ∃ f, o = .fault f)) ∨
    s.bus.acts u.bus (resetBound s.params + 72 * slotBound s.params)

@[simp] theorem endProto_outcome (c : ProtoCode) (s : State) : (endProto c s).2 = .proto c := rfl
@[simp] theorem endOwReset_outcome (s : State) : (endOwReset s).2 = .ok := rfl
@[simp] theorem endOwWrb_outcome (s : State) : (endOwWrb s).2 = .ok := rfl
@[simp] theorem endOwRdb_outcome (r : Byte) (s : State) : (endOwRdb r s).2 = .ok := rfl
@[simp] theorem endOwRdpwr_outcome (v : Bool) (s : State) : (endOwRdpwr v s).2 = .ok := rfl

/-- A ROM readout is no fault of the block, whatever was read. -/
theorem endOwRdrom_outcome (r : Word) (s : State) (f : FaultCode) : (endOwRdrom r s).2 ≠ .fault f := by
  unfold endOwRdrom
  split <;> simp

/-- What OW.RDROM ends with after its 64 read slots. -/
theorem endOwRdrom_ends {s u : State} {r : Word} {o : CmdOutcome} (b : Bus)
    (h : endOwRdrom r { s with bus := b } = (u, o)) : Ends .owRdrom s u o ∧ u.bus = b := by
  unfold endOwRdrom at h
  split at h <;> cases h
  · exact ⟨.proto _ b (by simp), rfl⟩
  · exact ⟨.owRdrom r b rfl ‹_›, rfl⟩

/-- Each effect that does not stop the machine ends in one of the ways of `Ends`. -/
theorem effect_ends {i : Instr} {s u : State} {o : CmdOutcome} (hp : s.params.WellFormed)
    (h : effectOf i s = .ok (u, o)) : Ends i s u o ∧ busEnd i o s u := by
  cases i with
  | owReset =>
    have ha := resetPulse_acts s.params s.bus
    simp only [effectOf, owResetEffect] at h
    split at h <;> next heq =>
      rw [heq] at ha
      cases h
      first
        | exact ⟨.owReset _ rfl, .inr (ha.mono (by omega))⟩
        | exact ⟨.proto _ _ (by simp), .inr (ha.mono (by omega))⟩
  | owWrb v =>
    have ha := writeByte_acts hp v s.bus
    simp only [effectOf, owWrbEffect] at h
    split at h
    · split at h <;> next heq =>
        rw [heq] at ha
        cases h
        first
          | exact ⟨.owWrb v _ rfl, .inr (ha.mono (by omega))⟩
          | exact ⟨.proto _ _ (by simp), .inr (ha.mono (by omega))⟩
    · cases h
      exact ⟨.noTransaction (.inl ⟨v, rfl⟩) (Bool.eq_false_iff.2 ‹_›), .inl ⟨rfl, .inr ⟨_, rfl⟩⟩⟩
  | owRdb =>
    have ha := readByte_acts hp s.bus
    simp only [effectOf, owRdbEffect] at h
    split at h
    · cases h
      exact ⟨.owRdb _ _ rfl, .inr (ha.mono (by omega))⟩
    · cases h
      exact ⟨.noTransaction (.inr rfl) (Bool.eq_false_iff.2 ‹_›), .inl ⟨rfl, .inr ⟨_, rfl⟩⟩⟩
  | owRdrom =>
    have ha := resetAndWrite_acts hp s.params.cmdReadRom s.bus
    simp only [effectOf, owRdromEffect] at h
    split at h
    · next c b heq =>
      rw [heq] at ha
      cases h
      exact ⟨.proto c b (by simp), .inr (ha.mono (by omega))⟩
    · next b heq =>
      rw [heq] at ha
      obtain ⟨he, hb⟩ := endOwRdrom_ends _ (Except.ok.inj h)
      exact ⟨he, .inr (by rw [hb]; exact (ha.trans (readRomBits_acts hp _)).mono (by omega))⟩
  | owRdpwr =>
    have ha := resetAndWrite_acts hp s.params.cmdReadPower s.bus
    simp only [effectOf, owRdpwrEffect] at h
    split at h
    · next c b heq =>
      rw [heq] at ha
      cases h
      exact ⟨.proto c b (by simp), .inr (ha.mono (by omega))⟩
    · next b heq =>
      rw [heq] at ha
      cases h
      exact ⟨.owRdpwr _ _ rfl, .inr ((ha.trans (readSlot_acts hp _)).mono (by omega))⟩
  | tmRec => cases h; exact ⟨.tmRec rfl, .inl ⟨rfl, .inl rfl⟩⟩
  | tmRdy => cases h; exact ⟨.tmRdy rfl, .inl ⟨rfl, .inl rfl⟩⟩
  | tmAvg =>
    simp only [effectOf, tmAvgEffect] at h
    split at h
    · cases h; exact ⟨.notReady rfl ‹_›, .inl ⟨rfl, .inl rfl⟩⟩
    · split at h <;> cases h
      exact ⟨.tmAvg _ _ rfl (not_not.1 ‹_›), .inl ⟨rfl, .inl rfl⟩⟩
  | tmAlrm a =>
    simp only [effectOf, tmAlrmEffect] at h
    split at h <;> cases h
    exact ⟨.tmAlrm a _ rfl, .inl ⟨rfl, .inl rfl⟩⟩

/-- Everything a command can do, if it answers a next state. -/
theorem exec_ends {i : Instr} {s t : State} (h : exec i s = .next t) : s.params.WellFormed ∧
    ∃ u o, Ends i (accept (encode i) s) u o ∧ busEnd i o s u ∧ t = complete o u := by
  rw [exec_eq_runCommand] at h
  obtain ⟨hp, u, o, he, rfl⟩ := runCommand_next h
  obtain ⟨h1, h2⟩ := effect_ends (s := accept (encode i) s) hp he
  exact ⟨hp, u, o, h1, h2, rfl⟩

end Sys2Proof.Machine
end

