-- ==== Sys2Proof/Laws/Float64.lean ====
section
/-! SUPPORT. The parts of an encoding, and the arithmetic on NaNs: the small laws of Machine/Float64.lean. -/

namespace Sys2Proof.Machine.F64

@[simp] theorem sign_pack (neg : Bool) (mag : Nat) : sign (pack neg mag) = neg := by
  rw [sign, pack, BitVec.msb_eq_getLsbD_last, BitVec.getLsbD_append]
  simp

theorem magBits_pack (neg : Bool) {mag : Nat} (h : mag < 2 ^ 63) : magBits (pack neg mag) = mag := by
  simp only [magBits, pack, BitVec.toNat_append, BitVec.toNat_ofNat, BitVec.toNat_ofBool]
  rw [Nat.mod_eq_of_lt h, Nat.shiftLeft_eq, Nat.mul_comm, ← Nat.two_pow_add_eq_or_of_lt h, Nat.mul_add_mod,
    Nat.mod_eq_of_lt h]

/-- An encoding is its sign and its magnitude bits. -/
theorem pack_parts (x : Word) : pack (sign x) (magBits x) = x := by
  apply BitVec.eq_of_toNat_eq
  have hx := x.isLt
  simp only [pack, BitVec.toNat_append, BitVec.toNat_ofNat, BitVec.toNat_ofBool, magBits, sign, Nat.mod_mod]
  rw [Nat.shiftLeft_eq, Nat.mul_comm,
    ← Nat.two_pow_add_eq_or_of_lt (Nat.mod_lt _ (by norm_num)), BitVec.msb_eq_decide]
  by_cases h : 2 ^ 63 ≤ x.toNat
  · rw [show decide (2 ^ (64 - 1) ≤ x.toNat) = true from decide_eq_true h]
    simp only [Bool.toNat_true]
    omega
  · rw [show decide (2 ^ (64 - 1) ≤ x.toNat) = false from decide_eq_false h]
    simp only [Bool.toNat_false]
    omega

/-- Rounding never leaves the magnitudes up to infinity. -/
theorem roundMag_le (num den : Nat) : roundMag num den ≤ infBits := Nat.min_le_right _ _

theorem magBits_pack_roundMag (neg : Bool) (num den : Nat) :
    magBits (pack neg (roundMag num den)) = roundMag num den :=
  magBits_pack neg (Nat.lt_of_le_of_lt (roundMag_le num den) (by decide))

theorem isNaN_quietNaN : isNaN quietNaN = true := by decide

/-- A NaN operand gives a NaN sum. -/
theorem add_nan {a b : Word} (h : isNaN a = true ∨ isNaN b = true) : add a b = quietNaN := by
  rw [add, if_pos (by simpa using h)]

/-- A NaN operand gives a NaN quotient. -/
theorem div_nan {a b : Word} (h : isNaN a = true ∨ isNaN b = true) : div a b = quietNaN := by
  rw [div]
  exact if_pos (by simpa using h)

/-- Two infinities of different signs have no sum. -/
theorem add_inf_opposite {a b : Word} (ha : isInf a = true) (hb : isInf b = true) (hs : sign a ≠ sign b) :
    add a b = quietNaN := by
  have hn : ∀ x : Word, isInf x = true → isNaN x = false := by
    intro x hx
    simp only [isInf, beq_iff_eq] at hx
    simp [isNaN, hx]
  simp [add, hn a ha, hn b hb, ha, hb, hs]

/-- The exact values of magnitudes are in the order of their bits. -/
theorem unitsOfMag_lt_succ (m : Nat) : unitsOfMag m < unitsOfMag (m + 1) := by
  unfold unitsOfMag
  have hp : (2 : Nat) ^ 52 = 4503599627370496 := by norm_num
  rw [hp]
  by_cases h1 : (m + 1) % 4503599627370496 = 0
  · have hm : m % 4503599627370496 = 4503599627370495 := by omega
    have he : (m + 1) / 4503599627370496 = m / 4503599627370496 + 1 := by omega
    rw [h1, hm, he]
    by_cases h0 : m / 4503599627370496 = 0
    · simp [h0]
    · obtain ⟨e, he⟩ : ∃ e, m / 4503599627370496 = e + 1 := ⟨_, (Nat.succ_pred_eq_of_ne_zero h0).symm⟩
      simp only [he]
      rw [if_neg (by omega), if_neg (by omega)]
      have := Nat.two_pow_pos e
      simp only [Nat.add_sub_cancel, Nat.pow_succ]
      omega
  · have hm : (m + 1) % 4503599627370496 = m % 4503599627370496 + 1 := by omega
    have he : (m + 1) / 4503599627370496 = m / 4503599627370496 := by omega
    rw [hm, he]
    split
    · omega
    · exact Nat.mul_lt_mul_of_pos_right (by omega) (Nat.two_pow_pos _)

theorem unitsOfMag_strictMono : StrictMono unitsOfMag := strictMono_nat_of_lt_succ unitsOfMag_lt_succ

end Sys2Proof.Machine.F64
end

