-- ==== Sys2Proof/Laws/Sequencer.lean ====
section
/-! SUPPORT. What one action of the cycle-level sequencer can do, said once: it goes on with its command, or it
ends it in one of the ways of `Ends`. -/

namespace Sys2Proof.Machine

/-- One action's line activity: what it appends to the trace, and the line it leaves, when the line was as the
phase says. -/
structure LineStep (s : State) (b : Bus) (low : Bool) : Prop where
  grows : ∃ t, b.trace = s.bus.trace ++ t ∧
    lineAfter t (s.seq.phase == .resetLow || s.seq.phase == .slotLow) = some low
  drives : s.bus.lineDrv = (s.seq.phase == .resetLow || s.seq.phase == .slotLow) → b.lineDrv = low

/-- What one action of the sequencer can do, if it answers a next state. -/
inductive Moves (s : State) : State → Prop where
  /-- An idle block does nothing. -/
  | idle (h : s.seq.phase = .idle) : Moves s s
  /-- The command goes on: only the bus and the sequencer change. -/
  | goesOn (b : Bus) (q : Sequencer) (h : s.seq.phase ≠ .idle) (hq : q.phase ≠ .idle) (hd : q.phase ≠ .dispatch)
      (hc : q.cmd = s.seq.cmd)
      (hl : LineStep s b (q.phase == .resetLow || q.phase == .slotLow))
      (hk : s.seq.coherent s.params → q.coherent s.params) :
      Moves s { s with bus := b, seq := q }
  /-- An illegal word ends at decode (R75). -/
  | illegal (h : s.seq.phase = .dispatch) (r : Reject) (hd : decode s.seq.cmd = .error r) :
      Moves s (complete (.fault .illegalCommand) s)
  /-- A precondition fails, or a monitor command runs, before any line action (R173, R177). -/
  | endsAtOnce (i : Instr) (u : State) (o : CmdOutcome) (h : s.seq.phase = .dispatch)
      (hd : decode s.seq.cmd = .ok i) (he : Ends i s u o) (hb : u.bus = s.bus) (hr : i ≠ .owReset) :
      Moves s (complete o u)
  /-- The command ends after its last line action. -/
  | ends (i : Instr) (u : State) (o : CmdOutcome) (h : s.seq.phase ≠ .idle) (hp : s.seq.phase ≠ .dispatch)
      (hd : s.seq.coherent s.params → decode s.seq.cmd = .ok i) (he : Ends i s u o) (hl : LineStep s u.bus false)
      (hr : i = .owReset → o = .ok → s.seq.phase = .resetRecovery ∧ decode s.seq.cmd = .ok .owReset)
      (hm : onMonitor i = false) (hf : ∀ f, o ≠ .fault f) :
      Moves s (complete o u)

/-! ## Bus changes -/

theorem LineStep.mk' {s : State} {b : Bus} {low : Bool} (t : List LineAction) (ht : b.trace = s.bus.trace ++ t)
    (hl : lineAfter t (s.seq.phase == .resetLow || s.seq.phase == .slotLow) = some low)
    (hd : s.bus.lineDrv = (s.seq.phase == .resetLow || s.seq.phase == .slotLow) → b.lineDrv = low) :
    LineStep s b low := ⟨⟨t, ht, hl⟩, hd⟩

/-- What follows the end of a command in `finish`. -/
theorem finish_next {e : Effect} {t : State} (h : finish e = .next t) :
    ∃ u o, e = .ok (u, o) ∧ t = complete o u := by
  unfold finish at h
  split at h
  · exact ⟨_, _, rfl, by cases h; rfl⟩
  · cases h

/-- A protocol error of the sequencer, whatever command it was running. -/
theorem proto_moves {s t : State} (c : ProtoCode) (b : Bus) (h : s.seq.phase ≠ .idle) (hp : s.seq.phase ≠ .dispatch)
    (hl : LineStep s b false)
    (hd : s.seq.coherent s.params → ∃ i, decode s.seq.cmd = .ok i ∧
      (i = .owReset ∨ (∃ v, i = .owWrb v) ∨ i = .owRdrom ∨ i = .owRdpwr))
    (ht : finish (.ok (endProto c { s with bus := b })) = .next t) : Moves s t := by
  cases ht
  by_cases hc : s.seq.coherent s.params
  · obtain ⟨i, hi, hb⟩ := hd hc
    exact .ends i _ _ h hp (fun _ => hi) (.proto c b hb) hl (fun _ ho => by cases ho)
      (by rcases hb with rfl | ⟨v, rfl⟩ | rfl | rfl <;> rfl) (by simp)
  · exact .ends .owReset _ _ h hp (fun h => absurd h hc) (.proto c b (.inl rfl)) hl (fun _ ho => by cases ho)
      rfl (by simp)

/-- The commands that send a reset pulse. -/
theorem pulses_cases {q : Sequencer} (h : pulses q = true) :
    decode q.cmd = .ok .owReset ∨ decode q.cmd = .ok .owRdrom ∨ decode q.cmd = .ok .owRdpwr := by
  unfold pulses at h
  split at h <;> simp_all

/-- The commands that write slots. -/
theorem transfers_writing {q : Sequencer} (h : transfers q = true) (hr : q.reading = false) :
    (∃ v, decode q.cmd = .ok (.owWrb v)) ∨ decode q.cmd = .ok .owRdrom ∨ decode q.cmd = .ok .owRdpwr := by
  unfold transfers at h
  split at h <;> simp_all

/-! ## One action -/

/-- The line is released but in the two phases of a low pulse. -/
theorem released_phase {ph : Phase} (h : ph ≠ .resetLow ∧ ph ≠ .slotLow) :
    (ph == .resetLow || ph == .slotLow) = false := by simp [h]

/-- A slot of a command that has such slots is started. -/
theorem startSlot_moves {s s' : State} (h : s.seq.phase ≠ .idle) (hs : s.seq.phase ≠ .resetLow ∧ s.seq.phase ≠ .slotLow)
    (t : List LineAction) (ht : s'.bus.trace = s.bus.trace ++ t) (hl : lineAfter t false = some false)
    (hc : s'.seq.cmd = s.seq.cmd)
    (hk : s.seq.coherent s.params → transfers s'.seq = true) (hs' : s' = { s with bus := s'.bus, seq := s'.seq }) :
    Moves s (startSlot s') := by
  have hlow := released_phase hs
  have key : startSlot s' = { s with
      bus := loadTimer (lowWidth s'.params s'.seq) (driveLow s'.bus)
      seq := { s'.seq with phase := .slotLow } } := by
    rw [hs']; rfl
  rw [key]
  refine .goesOn _ _ h (by simp) (by simp) hc (.mk' (t ++ [.driveLow]) ?_ ?_ fun _ => rfl) fun hco => hk hco
  · simp [ht]
  · rw [hlow, lineAfter_append, hl]; rfl

theorem dispatch_moves {s t : State} (hw : s.params.WellFormed) (hp : s.seq.phase = .dispatch)
    (h : dispatch s = .next t) : Moves s t := by
  have hne : s.seq.phase ≠ .idle := by simp [hp]
  have once : ∀ {i}, decode s.seq.cmd = .ok i → i ≠ .owReset →
      (∀ u o, effectOf i s = .ok (u, o) → u.bus = s.bus) → finish (effectOf i s) = .next t → Moves s t := by
    intro i hd hi hb hf
    obtain ⟨u, o, he, rfl⟩ := finish_next hf
    exact .endsAtOnce i u o hp hd (effect_ends hw he).1 (hb u o he) hi
  have noTxn : ∀ {i}, decode s.seq.cmd = .ok i → ((∃ v, i = .owWrb v) ∨ i = .owRdb) → s.status.txn = false →
      finish (.ok (s, .fault .noTransaction)) = .next t → Moves s t := by
    intro i hd hi hb hf
    cases hf
    exact .endsAtOnce i s _ hp hd (.noTransaction hi hb) rfl (by rcases hi with ⟨v, rfl⟩ | rfl <;> simp)
  have reset : ∀ {i}, decode s.seq.cmd = .ok i → i = .owReset ∨ i = .owRdrom ∨ i = .owRdpwr →
      Moves s (startReset s) := by
    intro i hd hi
    refine .goesOn _ _ hne (by simp) (by simp) rfl (.mk' [.driveLow] rfl ?_ fun _ => rfl) fun _ => ?_
    · simp [lineAfter]
    · rcases hi with rfl | rfl | rfl <;> simp [Sequencer.coherent, pulses, hd]
  have slot : ∀ s', s'.bus = s.bus → s'.seq.cmd = s.seq.cmd → transfers s'.seq = true →
      s' = { s with bus := s'.bus, seq := s'.seq } → Moves s (startSlot s') := by
    intro s' hb hc hk hs
    exact startSlot_moves hne (by simp [hp]) [] (by simp [hb]) rfl hc (fun _ => hk) hs
  unfold dispatch at h
  split at h
  · next r hd => cases h; exact .illegal hp r hd
  · next hd => cases h; exact reset hd (by simp)
  · next v hd =>
    split at h
    · cases h; exact slot _ rfl rfl (by simp [transfers, hd]) rfl
    · exact noTxn hd (.inl ⟨v, rfl⟩) (Bool.eq_false_iff.2 ‹_›) h
  · next hd =>
    split at h
    · cases h; exact slot _ rfl rfl (by simp [transfers, hd]) rfl
    · exact noTxn hd (.inr rfl) (Bool.eq_false_iff.2 ‹_›) h
  · next hd => cases h; exact reset hd (by simp)
  · next hd => cases h; exact reset hd (by simp)
  · next hd => exact once hd (by simp) (fun u o he => by cases he; rfl) h
  · next hd => exact once hd (by simp) (fun u o he => by cases he; rfl) h
  · next hd =>
    refine once hd (by simp) (fun u o he => ?_) h
    obtain ⟨he, -⟩ := effect_ends hw he
    cases he with
    | proto c b h => simp at h
    | owReset b h => cases h
    | owWrb v b h => cases h
    | owRdb r b h => cases h
    | owRdrom r b h => cases h
    | owRdpwr v b h => cases h
    | _ => rfl
  · next a hd =>
    refine once hd (by simp) (fun u o he => ?_) h
    obtain ⟨he, -⟩ := effect_ends hw he
    cases he with
    | proto c b h => simp at h
    | owReset b h => cases h
    | owWrb v b h => cases h
    | owRdb r b h => cases h
    | owRdrom r b h => cases h
    | owRdpwr v b h => cases h
    | _ => rfl

/-- A Wait ends: what follows it from a phase in which the line is released. -/
theorem after_wait_line {s : State} (hs : s.seq.phase ≠ .resetLow ∧ s.seq.phase ≠ .slotLow) (n : Micros) :
    LineStep s (endWait n s.bus) false :=
  .mk' [.wait n] rfl (by simp [hs, lineAfter]) fun h => h.trans (released_phase hs)

theorem after_sample_line {s : State} (hs : s.seq.phase ≠ .resetLow ∧ s.seq.phase ≠ .slotLow) (n : Micros) :
    LineStep s (sample (endWait n s.bus)).2 false :=
  .mk' [.wait n, .sample ((endWait n s.bus).answer 0)] (by simp) (by simp [hs, lineAfter]) fun h =>
    h.trans (released_phase hs)

theorem afterReset_moves {s t : State} (hp : s.seq.phase = .resetRecovery) (n : Micros)
    (h : afterReset { s with bus := endWait n s.bus } = .next t) : Moves s t := by
  have hs : s.seq.phase ≠ .resetLow ∧ s.seq.phase ≠ .slotLow := by simp [hp]
  have hne : s.seq.phase ≠ .idle := by simp [hp]
  unfold afterReset at h
  split at h
  · next hd =>
    cases h
    exact .ends .owReset _ _ hne (by simp [hp]) (fun _ => hd) (.owReset _ rfl) (after_wait_line hs n)
      (fun _ _ => ⟨hp, hd⟩) rfl (by simp)
  · next hd =>
    cases h
    exact startSlot_moves hne hs [.wait n] rfl rfl rfl (fun _ => by simp [transfers]; simp at hd; simp [hd]) rfl
  · next hd =>
    cases h
    exact startSlot_moves hne hs [.wait n] rfl rfl rfl (fun _ => by simp [transfers]; simp at hd; simp [hd]) rfl
  · cases h

theorem afterWrite_moves {s t : State} (hp : s.seq.phase = .slotRecovery) (n : Micros)
    (h : afterWrite { s with bus := endWait n s.bus } = .next t) : Moves s t := by
  have hs : s.seq.phase ≠ .resetLow ∧ s.seq.phase ≠ .slotLow := by simp [hp]
  have hne : s.seq.phase ≠ .idle := by simp [hp]
  unfold afterWrite at h
  split at h
  · next v hd =>
    cases h
    exact .ends (.owWrb v) _ _ hne (by simp [hp]) (fun _ => hd) (.owWrb v _ rfl) (after_wait_line hs n)
      (by simp) rfl (by simp)
  · next hd =>
    cases h
    exact startSlot_moves hne hs [.wait n] rfl rfl rfl (fun _ => by simp [transfers]; simp at hd; simp [hd]) rfl
  · next hd =>
    cases h
    exact startSlot_moves hne hs [.wait n] rfl rfl rfl (fun _ => by simp [transfers]; simp at hd; simp [hd]) rfl
  · cases h

theorem afterRead_moves {s t : State} (hp : s.seq.phase = .slotRecovery) (n : Micros)
    (h : afterRead { s with bus := endWait n s.bus } = .next t) : Moves s t := by
  have hs : s.seq.phase ≠ .resetLow ∧ s.seq.phase ≠ .slotLow := by simp [hp]
  have hne : s.seq.phase ≠ .idle := by simp [hp]
  unfold afterRead at h
  split at h
  · next hd =>
    cases h
    exact .ends .owRdb _ _ hne (by simp [hp]) (fun _ => hd) (.owRdb _ _ rfl) (after_wait_line hs n)
      (by simp) rfl (by simp)
  · next hd =>
    cases h
    unfold afterRomByte
    split
    · exact .goesOn _ _ hne (by simp) (by simp) rfl (after_wait_line hs n) fun _ => hd
    · exact startSlot_moves hne hs [.wait n] rfl rfl rfl (fun _ => by simp [transfers]; simp at hd; simp [hd]) rfl
  · next hd =>
    cases h
    exact .ends .owRdpwr _ _ hne (by simp [hp]) (fun _ => hd) (.owRdpwr _ _ rfl) (after_wait_line hs n)
      (by simp) rfl (by simp)
  · cases h

theorem advance_moves {s t : State} (hw : s.params.WellFormed) (h : advance s = .next t) : Moves s t := by
  unfold advance at h
  split at h
  · next hp => cases h; exact .idle hp
  · next hp => exact dispatch_moves hw hp h
  · next hp =>
    cases h
    exact .goesOn _ _ (by simp [hp]) (by simp) (by simp) rfl
      (.mk' [.wait s.params.tRstl, .release] (by simp) (by simp [lineAfter]) fun _ => rfl)
      (by simp [Sequencer.coherent, hp, pulses])
  · next hp =>
    have hl := after_sample_line (s := s) (by simp [hp]) s.params.tMsp
    unfold presenceSampled at h
    split at h
    · next b heq =>
      rw [heq] at hl
      refine proto_moves _ b (by simp [hp]) (by simp [hp]) hl (fun hc => ?_) h
      rcases pulses_cases (by simpa [Sequencer.coherent, hp] using hc) with hd | hd | hd <;> exact ⟨_, hd, by simp⟩
    · next b heq =>
      rw [heq] at hl
      cases h
      refine .goesOn _ _ (by simp [hp]) (by simp) (by simp) rfl ⟨hl.grows, hl.drives⟩ fun hc => ?_
      have := ((Params.wellFormed_iff _).1 hw).1
      have hc : pulses s.seq = true := by simpa [Sequencer.coherent, hp] using hc
      simp only [Sequencer.coherent]
      exact ⟨hc, this⟩
  · next hp =>
    have hl := after_sample_line (s := s) (by simp [hp]) s.params.tPresPoll
    unfold releasePolled at h
    split at h
    · next b heq =>
      rw [heq] at hl
      cases h
      refine .goesOn _ _ (by simp [hp]) (by simp) (by simp) rfl ⟨hl.grows, hl.drives⟩ fun hc => ?_
      simp only [Sequencer.coherent, hp] at hc
      exact hc.1
    · next b heq =>
      rw [heq] at hl
      split at h
      · refine proto_moves _ b (by simp [hp]) (by simp [hp]) hl (fun hc => ?_) h
        simp only [Sequencer.coherent, hp] at hc
        rcases pulses_cases hc.1 with hd | hd | hd <;> exact ⟨_, hd, by simp⟩
      · next hlast =>
        cases h
        refine .goesOn _ _ (by simp [hp]) (by simp) (by simp) rfl ⟨hl.grows, hl.drives⟩ fun hc => ?_
        simp only [Sequencer.coherent, hp] at hc
        simp only [Sequencer.coherent]
        refine ⟨hc.1, ?_⟩
        have hlt := hc.2
        have := s.params.nPresPoll.isLt
        have hne : (s.seq.pollcnt + 1#32).toNat ≠ s.params.nPresPoll.toNat := fun he => hlast (BitVec.eq_of_toNat_eq he)
        rw [BitVec.toNat_add] at hne ⊢
        simp at hne ⊢
        omega
  · next hp => exact afterReset_moves hp _ h
  · next hp =>
    cases h
    exact .goesOn _ _ (by simp [hp]) (by simp) (by simp) rfl
      (.mk' [.wait (lowWidth s.params s.seq), .release] (by simp) (by simp [lineAfter]) fun _ => rfl)
      (by simp [Sequencer.coherent, hp, transfers])
  · next hp =>
    have hl := after_sample_line (s := s) (by simp [hp]) (releaseWidth s.params s.seq)
    have hl' := after_wait_line (s := s) (by simp [hp]) (releaseWidth s.params s.seq)
    split at h
    · next hr =>
      unfold bitSampled at h
      split at h
      next l b heq =>
      rw [heq] at hl
      cases h
      refine .goesOn _ _ (by simp [hp]) (by simp) (by simp) rfl ⟨hl.grows, hl.drives⟩ fun hc => ?_
      simp only [Sequencer.coherent, hp] at hc
      simp only [Sequencer.coherent]
      exact ⟨hc, hr⟩
    · next hr =>
      split at h
      · unfold highChecked at h
        split at h
        · next b heq =>
          rw [heq] at hl
          refine proto_moves _ b (by simp [hp]) (by simp [hp]) hl (fun hc => ?_) h
          simp only [Sequencer.coherent, hp] at hc
          rcases transfers_writing hc (Bool.eq_false_iff.2 hr) with ⟨v, hd⟩ | hd | hd <;> exact ⟨_, hd, by simp⟩
        · next b heq =>
          rw [heq] at hl
          cases h
          refine .goesOn _ _ (by simp [hp]) (by simp) (by simp) rfl ⟨hl.grows, hl.drives⟩ fun hc => ?_
          simp only [Sequencer.coherent, hp] at hc
          exact hc
      · cases h
        refine .goesOn _ _ (by simp [hp]) (by simp) (by simp) rfl ⟨hl'.grows, hl'.drives⟩ fun hc => ?_
        simp only [Sequencer.coherent, hp] at hc
        exact hc
  · next hp =>
    have hl' := after_wait_line (s := s) (by simp [hp]) (readRemainder s.params)
    cases h
    refine .goesOn _ _ (by simp [hp]) (by simp) (by simp) rfl ⟨hl'.grows, hl'.drives⟩ fun hc => ?_
    simp only [Sequencer.coherent, hp] at hc
    exact hc.1
  · next hp =>
    unfold afterSlot at h
    split at h
    · split at h
      · exact afterRead_moves hp _ h
      · exact afterWrite_moves hp _ h
    · cases h
      exact startSlot_moves (by simp [hp]) (by simp [hp]) [.wait s.params.tRec] rfl rfl rfl
        (fun hc => by simp only [Sequencer.coherent, hp] at hc; exact hc) rfl
  · next hp =>
    split at h
    · next hd =>
      cases h
      obtain ⟨he, hb⟩ := endOwRdrom_ends (s := s) (u := (endOwRdrom s.seq.romacc s).1)
        (o := (endOwRdrom s.seq.romacc s).2) s.bus rfl
      refine .ends .owRdrom _ _ (by simp [hp]) (by simp [hp]) (fun _ => hd) he ?_ (by simp) rfl
        (endOwRdrom_outcome _ _)
      rw [hb]
      exact .mk' [] (by simp) (by simp [hp, lineAfter]) fun h => h.trans (released_phase (by simp [hp]))
    · cases h

end Sys2Proof.Machine
end

