-- ==== Sys2Proof/Laws/Step.lean ====
section
/-! SUPPORT. What one step of the machine can do, said once: one case per kind of event. Every invariant of the
machine is proved from these cases, and none unfolds `step`. -/

namespace Sys2Proof.Machine

/-- The state with another pending list and other recorded reads: what an event leaves of the outside world. -/
def State.outside (s : State) (ps : List Event) (rs : List (Nat × Word)) : State :=
  { s with pending := ps, reads := rs }

@[simp] theorem outside_params (s : State) (ps rs) : (s.outside ps rs).params = s.params := rfl
@[simp] theorem outside_data (s : State) (ps rs) : (s.outside ps rs).data = s.data := rfl
@[simp] theorem outside_result (s : State) (ps rs) : (s.outside ps rs).result = s.result := rfl
@[simp] theorem outside_status (s : State) (ps rs) : (s.outside ps rs).status = s.status := rfl
@[simp] theorem outside_rom (s : State) (ps rs) : (s.outside ps rs).rom = s.rom := rfl
@[simp] theorem outside_fill (s : State) (ps rs) : (s.outside ps rs).fill = s.fill := rfl
@[simp] theorem outside_cursor (s : State) (ps rs) : (s.outside ps rs).cursor = s.cursor := rfl
@[simp] theorem outside_slots (s : State) (ps rs) : (s.outside ps rs).slots = s.slots := rfl
@[simp] theorem outside_seq (s : State) (ps rs) : (s.outside ps rs).seq = s.seq := rfl
@[simp] theorem outside_bus (s : State) (ps rs) : (s.outside ps rs).bus = s.bus := rfl
@[simp] theorem outside_rst (s : State) (ps rs) : (s.outside ps rs).rst = s.rst := rfl
@[simp] theorem outside_grain (s : State) (ps rs) : (s.outside ps rs).grain = s.grain := rfl

/-- What one step can do, if it answers a next state. `ps` and `rs` are the events and reads it leaves. -/
inductive Steps (s : State) : State → Prop where
  /-- A host read, a host write that is ignored, the last read of WAITDONE, time that passes while `rst` is asserted,
  or `rst` driven low when it was low. -/
  | outside (ps rs) (h : s.noReset ∨ s.rst = false) : Steps s (s.outside ps rs)
  /-- A host write to DATA. -/
  | data (ps rs) (v : Word) (h : s.pending = .write 1 v :: ps) (hr : s.rst = false) :
      Steps s { s.outside ps rs with data := v }
  /-- A hardware reset: `rst` is asserted, or deasserted after it was. -/
  | reset (ps rs) (l : Bool) (h : s.pending = .rst l :: ps) :
      Steps s { hardReset (s.outside ps rs) with rst := l }
  /-- A CMD write to a busy block. -/
  | overrun (ps rs) (v : Word) (h : s.pending = .write 0 v :: ps) (hb : s.status.busy = true)
      (hr : s.rst = false) :
      Steps s (recordFault .overrun (s.outside ps rs))
  /-- A CMD write accepted by the cycle-level model. -/
  | accepted (ps rs) (v : Word) (h : s.pending = .write 0 v :: ps) (hb : s.status.busy = false)
      (hr : s.rst = false) :
      Steps s (accept (v.setWidth 16) (s.outside ps rs))
  /-- A CMD write of no command in the atomic model. -/
  | illegal (ps rs) (v : Word) (r : Reject) (h : s.pending = .write 0 v :: ps) (hb : s.status.busy = false)
      (hr : s.rst = false) (hd : decode (v.setWidth 16) = .error r) :
      Steps s (rejectWord (v.setWidth 16) (s.outside ps rs))
  /-- A CMD write of a command in the atomic model. -/
  | command (ps rs) (v : Word) (i : Instr) (t : State) (h : s.pending = .write 0 v :: ps)
      (hb : s.status.busy = false) (hr : s.rst = false) (hd : decode (v.setWidth 16) = .ok i)
      (he : exec i (s.outside ps rs) = .next t) : Steps s t
  /-- A tick of a running Wait. -/
  | tick (ps rs) (h : s.noReset) (hr : s.rst = false) (hw : s.seq.phase.waits = true) (ht : s.bus.timer ≠ 0#32) :
      Steps s { s.outside ps rs with bus := tick s.bus }
  /-- An action of the sequencer. -/
  | moves (ps rs) (t : State) (h : s.noReset) (hr : s.rst = false) (hm : Moves (s.outside ps rs) t) : Steps s t

theorem elapse_steps {s t : State} {ps rs} (hw : s.params.WellFormed) (hp : s.noReset)
    (h : elapse (s.outside ps rs) = .next t) : Steps s t := by
  unfold elapse at h
  split at h
  · cases h; exact .outside ps rs (.inl hp)
  · next hr =>
    have hr : s.rst = false := Bool.eq_false_iff.2 hr
    split at h
    · next hc => cases h; exact .tick ps rs hp hr hc.1 hc.2
    · exact .moves ps rs t hp hr (advance_moves hw h)

theorem step_steps {s t : State} (h : step s = .next t) : s.params.WellFormed ∧ Steps s t := by
  unfold step at h
  split at h
  · next hw =>
    refine ⟨hw, ?_⟩
    unfold serve at h
    split at h
    · next hp => exact elapse_steps (ps := s.pending) (rs := s.reads) hw (by simp [State.noReset, hp]) h
    · next e rest hp =>
      cases e with
      | write i v =>
        simp only [perform, hostWrite] at h
        split at h
        · cases h; exact .outside rest s.reads (.inl (by simp [State.noReset, hp]))
        · next hr =>
          have hr : s.rst = false := Bool.eq_false_iff.2 hr
          unfold writeRegister at h
          split at h
          · unfold onCmdWrite at h
            split at h
            · next hb => cases h; exact .overrun rest s.reads v hp hb hr
            · next hb =>
              have hb : s.status.busy = false := Bool.eq_false_iff.2 hb
              split at h
              · unfold execWord at h
                split at h
                · next i hd => exact .command rest s.reads v i t hp hb hr hd h
                · next r hd => cases h; exact .illegal rest s.reads v r hp hb hr hd
              · cases h; exact .accepted rest s.reads v hp hb hr
          · cases h; exact .data rest s.reads v hp hr
          · cases h; exact .outside rest s.reads (.inr hr)
      | read i => cases h; exact .outside rest _ (.inl (by simp [State.noReset, hp]))
      | waitDone =>
        simp only [perform, hostWaitDone] at h
        split at h
        · cases h; exact .outside rest _ (.inl (by simp [State.noReset, hp]))
        · exact elapse_steps hw (by simp [State.noReset, hp]) h
      | rst l =>
        simp only [perform, driveRst] at h
        split at h
        · cases h; exact .reset rest s.reads l hp
        · next hl => cases h; exact .outside rest s.reads (.inr (by simp at hl; exact hl.2))
      | elapse => exact elapse_steps (ps := rest) (rs := s.reads) hw (by simp [State.noReset, hp]) h
  · cases h

end Sys2Proof.Machine
end

