-- ==== Sys2Proof/Laws/Hidden.lean ====
section
/-! SUPPORT. The hidden fields of the sequencer and TIMER (R41, R43, R201): two states that differ only in those that
the current phase has not initialised are twins, and every step takes twins to twins. -/

open Sys2Proof Sys2Proof.Machine

namespace Sys2Proof.Machine

/-- The fields of the sequencer that the current phase has initialised are equal. -/
def SameLive (a b : Sequencer) (ta tb : Micros) : Prop :=
  match a.phase with
  | .idle => True
  | .dispatch => a.cmd = b.cmd ∧ a.sample = b.sample
  | .resetLow => a.cmd = b.cmd ∧ ta = tb
  | .resetWait => a.cmd = b.cmd ∧ ta = tb
  | .presencePoll => a.cmd = b.cmd ∧ ta = tb ∧ a.pollcnt = b.pollcnt
  | .resetRecovery => a.cmd = b.cmd ∧ ta = tb
  | .validate => a.cmd = b.cmd ∧ a.romacc = b.romacc
  | .slotLow | .slotRelease | .slotSample | .slotRecovery =>
    a.cmd = b.cmd ∧ ta = tb ∧ a.reading = b.reading ∧ a.bitcnt = b.bitcnt ∧ a.shift = b.shift ∧
    (a.reading = true → decode a.cmd = .ok .owRdrom → a.bytecnt = b.bytecnt ∧ a.romacc = b.romacc)

/-- Two states that differ at most in what the sequencer has not initialised. -/
def Twins (s t : State) : Prop := s.agrees t ∧ SameLive s.seq t.seq s.bus.timer t.bus.timer

/-- Outcomes that are both next states which are twins, or the same stop. -/
inductive Alike : Host.Outcome State Fault Refusal → Host.Outcome State Fault Refusal → Prop where
  | next {s t} (h : Twins s t) : Alike (.next s) (.next t)
  | fault (f) : Alike (.fault f) (.fault f)
  | refused (r) : Alike (.refused r) (.refused r)

/-- Completion forgets the hidden fields. -/
theorem alike_complete (o : CmdOutcome) (s : State) (q : Sequencer) (τ : Micros) :
    Alike (.next (complete o s)) (.next (complete o (s.withHidden q τ))) := by
  cases o <;> exact .next ⟨⟨rfl, rfl⟩, trivial⟩

/-- Next states that are twins, part by part. -/
theorem Alike.mk {s t : State} (hp : s.seq.phase = t.seq.phase) (hw : s.withHidden t.seq t.bus.timer = t)
    (hl : SameLive s.seq t.seq s.bus.timer t.bus.timer) : Alike (.next s) (.next t) := .next ⟨⟨hp, hw⟩, hl⟩

/-- A choice on conditions that agree. -/
theorem Alike.ite {c c' : Prop} {hc : Decidable c} {hc' : Decidable c'} {x y x' y'} (h : c ↔ c')
    (hx : Alike x x') (hy : Alike y y') : Alike (@ite _ c hc x y) (@ite _ c' hc' x' y') := by
  by_cases k : c
  · rw [if_pos k, if_pos (h.1 k)]; exact hx
  · rw [if_neg k, if_neg (fun k' => k (h.2 k'))]; exact hy

/-- A command whose effects leave twins ends in twins. -/
theorem finish_ok_alike {s t : State} (o : CmdOutcome) (hw : s.withHidden t.seq t.bus.timer = t) :
    Alike (finish (.ok (s, o))) (finish (.ok (t, o))) := by
  rw [← hw]; exact alike_complete o s _ _

/-- One move of the block reads only what its phase has initialised. -/
theorem advance_alike (s : State) (q : Sequencer) (τ : Micros) (hp : s.seq.phase = q.phase)
    (hl : SameLive s.seq q s.bus.timer τ) : Alike (advance s) (advance (s.withHidden q τ)) := by
  obtain ⟨params, data, result, status, rom, fill, cursor, slots, seq, ⟨ld, tm, env, sampled, trace⟩, rst, nd,
    grain, pending, reads⟩ := s
  obtain ⟨ph, cmd, smp, reading, bitcnt, bytecnt, shift, romacc, pollcnt⟩ := seq
  obtain ⟨ph', cmd', smp', reading', bitcnt', bytecnt', shift', romacc', pollcnt'⟩ := q
  obtain rfl : ph = ph' := hp
  cases ph
  case idle => refine .mk ?_ ?_ ?_; exacts [rfl, rfl, trivial]
  case dispatch =>
    obtain ⟨rfl, rfl⟩ : cmd = cmd' ∧ smp = smp' := hl
    simp only [advance, dispatch, State.withHidden]
    rcases hd : decode cmd with r | i
    · dsimp only; exact finish_ok_alike _ (by rfl)
    · cases i with
      | owReset =>
        dsimp only; refine .mk ?_ ?_ ?_
        exacts [rfl, rfl, ⟨rfl, rfl⟩]
      | owRdrom =>
        dsimp only; refine .mk ?_ ?_ ?_
        exacts [rfl, rfl, ⟨rfl, rfl⟩]
      | owRdpwr =>
        dsimp only; refine .mk ?_ ?_ ?_
        exacts [rfl, rfl, ⟨rfl, rfl⟩]
      | owWrb v =>
        by_cases ht : status.txn = true <;> simp only [ht, if_true, if_false, Bool.false_eq_true]
        · refine .mk ?_ ?_ ?_
          exacts [rfl, rfl, ⟨rfl, rfl, rfl, rfl, rfl, fun h => nomatch h⟩]
        · exact finish_ok_alike _ (by rfl)
      | owRdb =>
        by_cases ht : status.txn = true <;> simp only [ht, if_true, if_false, Bool.false_eq_true]
        · refine .mk ?_ ?_ ?_
          exacts [rfl, rfl, ⟨rfl, rfl, rfl, rfl, rfl, fun _ h => absurd (hd.symm.trans h) (by simp)⟩]
        · exact finish_ok_alike _ (by rfl)
      | tmRec => dsimp only; exact finish_ok_alike _ (by rfl)
      | tmRdy => dsimp only; exact finish_ok_alike _ (by rfl)
      | tmAvg =>
        simp only [tmAvgEffect, avg]
        split
        · exact finish_ok_alike _ (by rfl)
        · rcases readSlots slots (List.range params.histN.toNat) with f | vs
          · exact .fault f
          · exact finish_ok_alike _ (by rfl)
      | tmAlrm a =>
        simp only [tmAlrmEffect, shouldAlarm, avg]
        split_ifs
        · exact finish_ok_alike _ (by rfl)
        · exact finish_ok_alike _ (by rfl)
        · rcases readSlots slots (List.range params.histN.toNat) with f | vs
          · exact .fault f
          · exact finish_ok_alike _ (by rfl)
  case resetLow =>
    obtain ⟨rfl, rfl⟩ : cmd = cmd' ∧ tm = τ := hl
    refine .mk ?_ ?_ ?_
    exacts [rfl, rfl, ⟨rfl, rfl⟩]
  case resetWait =>
    obtain ⟨rfl, rfl⟩ : cmd = cmd' ∧ tm = τ := hl
    simp only [advance, State.withHidden]
    rcases sample (endWait params.tMsp ⟨ld, tm, env, sampled, trace⟩) with ⟨_ | _, b⟩
    · dsimp only [presenceSampled, releasePolled]; refine .mk ?_ ?_ ?_; exacts [rfl, rfl, ⟨rfl, rfl, rfl⟩]
    · exact finish_ok_alike _ (by rfl)
  case presencePoll =>
    obtain ⟨rfl, rfl, rfl⟩ : cmd = cmd' ∧ tm = τ ∧ pollcnt = pollcnt' := hl
    simp only [advance, State.withHidden]
    rcases sample (endWait params.tPresPoll ⟨ld, tm, env, sampled, trace⟩) with ⟨_ | _, b⟩
    · simp only [releasePolled]
      split
      · exact finish_ok_alike _ (by rfl)
      · refine .mk ?_ ?_ ?_
        exacts [rfl, rfl, ⟨rfl, rfl, rfl⟩]
    · refine .mk ?_ ?_ ?_
      exacts [rfl, rfl, ⟨rfl, rfl⟩]
  case resetRecovery =>
    obtain ⟨rfl, rfl⟩ : cmd = cmd' ∧ tm = τ := hl
    simp only [advance, afterReset, State.withHidden]
    rcases hd : decode cmd with r | i
    · dsimp only; exact .fault _
    · cases i with
      | owReset => dsimp only; exact finish_ok_alike _ (by rfl)
      | owRdrom =>
        dsimp only; refine .mk ?_ ?_ ?_
        exacts [rfl, rfl, ⟨rfl, rfl, rfl, rfl, rfl, fun h => nomatch h⟩]
      | owRdpwr =>
        dsimp only; refine .mk ?_ ?_ ?_
        exacts [rfl, rfl, ⟨rfl, rfl, rfl, rfl, rfl, fun h => nomatch h⟩]
      | _ => dsimp only; exact .fault _
  case validate =>
    obtain ⟨rfl, rfl⟩ : cmd = cmd' ∧ romacc = romacc' := hl
    simp only [advance, State.withHidden]
    rcases hd : decode cmd with r | i
    · dsimp only; exact .fault _
    · cases i with
      | owRdrom =>
        simp only [endOwRdrom]
        cases validateRom params romacc <;> exact finish_ok_alike _ (by rfl)
      | _ => dsimp only; exact .fault _
  case slotLow =>
    obtain ⟨rfl, rfl, rfl, rfl, rfl, h⟩ : cmd = cmd' ∧ tm = τ ∧ reading = reading' ∧ bitcnt = bitcnt' ∧
      shift = shift' ∧ _ := hl
    refine .mk ?_ ?_ ?_
    exacts [rfl, rfl, ⟨rfl, rfl, rfl, rfl, rfl, h⟩]
  case slotSample =>
    obtain ⟨rfl, rfl, rfl, rfl, rfl, h⟩ : cmd = cmd' ∧ tm = τ ∧ reading = reading' ∧ bitcnt = bitcnt' ∧
      shift = shift' ∧ _ := hl
    refine .mk ?_ ?_ ?_
    exacts [rfl, rfl, ⟨rfl, rfl, rfl, rfl, rfl, h⟩]
  case slotRelease =>
    obtain ⟨rfl, rfl, rfl, rfl, rfl, h⟩ : cmd = cmd' ∧ tm = τ ∧ reading = reading' ∧ bitcnt = bitcnt' ∧
      shift = shift' ∧ _ := hl
    simp only [advance, State.withHidden, currentBit, releaseWidth]
    rcases reading with _ | _ <;> simp only [if_true, if_false, Bool.false_eq_true]
    rotate_left
    · rcases sample (endWait _ ⟨ld, tm, env, sampled, trace⟩) with ⟨l, b⟩
      refine .mk ?_ ?_ ?_
      exacts [rfl, rfl, ⟨rfl, rfl, rfl, rfl, rfl, h⟩]
    · by_cases hb : shift.getLsbD bitcnt.toNat = true <;> simp only [hb, if_true, if_false, Bool.false_eq_true]
      · rcases sample (endWait _ ⟨ld, tm, env, sampled, trace⟩) with ⟨_ | _, b⟩
        · exact finish_ok_alike _ (by rfl)
        · refine .mk ?_ ?_ ?_
          exacts [rfl, rfl, ⟨rfl, rfl, rfl, rfl, rfl, h⟩]
      · refine .mk ?_ ?_ ?_
        exacts [rfl, rfl, ⟨rfl, rfl, rfl, rfl, rfl, h⟩]
  case slotRecovery =>
    obtain ⟨rfl, rfl, rfl, rfl, rfl, h⟩ : cmd = cmd' ∧ tm = τ ∧ reading = reading' ∧ bitcnt = bitcnt' ∧
      shift = shift' ∧ _ := hl
    simp only [advance, State.withHidden, afterSlot]
    have hL : lastBit ⟨.slotRecovery, cmd, smp', reading, bitcnt, bytecnt', shift, romacc', pollcnt'⟩ =
      lastBit ⟨.slotRecovery, cmd, smp, reading, bitcnt, bytecnt, shift, romacc, pollcnt⟩ := by cases reading <;> rfl
    refine .ite (by rw [hL]) ?_ ?_
    · cases reading
      · simp only [afterWrite, Bool.false_eq_true, if_false]
        rcases hd : decode cmd with r | i
        · dsimp only; exact .fault _
        · cases i with
          | owWrb v => dsimp only; exact finish_ok_alike _ (by rfl)
          | owRdrom =>
            dsimp only; refine .mk ?_ ?_ ?_
            exacts [rfl, rfl, ⟨rfl, rfl, rfl, rfl, rfl, fun _ _ => ⟨rfl, rfl⟩⟩]
          | owRdpwr =>
            dsimp only; refine .mk ?_ ?_ ?_
            exacts [rfl, rfl, ⟨rfl, rfl, rfl, rfl, rfl, fun _ h => absurd (hd.symm.trans h) (by simp)⟩]
          | _ => dsimp only; exact .fault _
      · simp only [afterRead, if_true]
        rcases hd : decode cmd with r | i
        · dsimp only; exact .fault _
        · cases i with
          | owRdb => dsimp only; exact finish_ok_alike _ (by rfl)
          | owRdpwr => dsimp only; exact finish_ok_alike _ (by rfl)
          | owRdrom =>
            obtain ⟨rfl, rfl⟩ : bytecnt = bytecnt' ∧ romacc = romacc' := h rfl hd
            by_cases h7 : bytecnt = 7#3 <;> simp only [afterRomByte, h7, if_true, if_false]
            · refine .mk ?_ ?_ ?_
              exacts [rfl, rfl, ⟨rfl, rfl⟩]
            · refine .mk ?_ ?_ ?_
              exacts [rfl, rfl, ⟨rfl, rfl, rfl, rfl, rfl, fun _ _ => ⟨rfl, rfl⟩⟩]
          | _ => dsimp only; exact .fault _
    · refine .mk ?_ ?_ ?_
      exacts [rfl, rfl, ⟨rfl, rfl, rfl, rfl, rfl, h⟩]

/-! ## Whole commands: TIMER is loaded before it is read -/

theorem resetPulse_timer (p : Params) (b : Bus) (τ : Micros) :
    resetPulse p { b with timer := τ } = resetPulse p b := rfl

theorem writeByte_timer (p : Params) (v : Byte) (b : Bus) (τ : Micros) :
    writeByte p v { b with timer := τ } = writeByte p v b := by
  simp only [writeByte, writeBits, List.range, List.range.loop]
  cases v.getLsbD 0 <;> rfl

theorem readByte_timer (p : Params) (b : Bus) (τ : Micros) :
    readByte p { b with timer := τ } = readByte p b := rfl

theorem resetAndWrite_timer (p : Params) (v : Byte) (b : Bus) (τ : Micros) :
    resetAndWrite p v { b with timer := τ } = resetAndWrite p v b := rfl

theorem finish_refl (e : Effect) : Alike (finish e) (finish e) := by
  rcases e with f | ⟨s, o⟩
  · exact .fault f
  · exact finish_ok_alike _ rfl

/-- The effect of a bus command that starts with a reset pulse does not depend on TIMER. -/
theorem owRdromEffect_timer (s : State) (τ : Micros) :
    owRdromEffect { s with bus := { s.bus with timer := τ } } = owRdromEffect s := by
  simp only [owRdromEffect, resetAndWrite_timer]

theorem owRdpwrEffect_timer (s : State) (τ : Micros) :
    owRdpwrEffect { s with bus := { s.bus with timer := τ } } = owRdpwrEffect s := by
  simp only [owRdpwrEffect, resetAndWrite_timer]

theorem owResetEffect_timer (s : State) (τ : Micros) :
    owResetEffect { s with bus := { s.bus with timer := τ } } = owResetEffect s := by
  simp only [owResetEffect, resetPulse_timer]

/-- No command's effect reads the TIMER it finds. -/
theorem effect_alike (i : Instr) (s : State) (τ : Micros) :
    Alike (finish (effectOf i s)) (finish (effectOf i { s with bus := { s.bus with timer := τ } })) := by
  cases i with
  | owReset => simp only [effectOf, owResetEffect_timer]; exact finish_refl _
  | owRdrom => simp only [effectOf, owRdromEffect_timer]; exact finish_refl _
  | owRdpwr => simp only [effectOf, owRdpwrEffect_timer]; exact finish_refl _
  | owWrb v =>
    by_cases ht : s.status.txn = true <;>
      simp only [effectOf, owWrbEffect, ht, writeByte_timer, if_true, if_false, Bool.false_eq_true]
    · exact finish_refl _
    · refine finish_ok_alike _ ?_; rfl
  | owRdb =>
    by_cases ht : s.status.txn = true <;>
      simp only [effectOf, owRdbEffect, ht, readByte_timer, if_true, if_false, Bool.false_eq_true]
    · exact finish_refl _
    · refine finish_ok_alike _ ?_; rfl
  | tmRec => refine finish_ok_alike _ ?_; rfl
  | tmRdy => refine finish_ok_alike _ ?_; rfl
  | tmAvg =>
    by_cases hf : s.fill = s.params.histN <;>
      simp only [effectOf, tmAvgEffect, avg, ne_eq, hf, not_true_eq_false, not_false_eq_true, if_true, if_false]
    · rcases readSlots s.slots (List.range s.params.histN.toNat) with f | vs
      · exact .fault f
      · refine finish_ok_alike _ ?_; rfl
    · refine finish_ok_alike _ ?_; rfl
  | tmAlrm a =>
    by_cases hf : s.fill = s.params.histN <;> cases a <;>
      simp only [effectOf, tmAlrmEffect, shouldAlarm, avg, ne_eq, hf, not_true_eq_false, not_false_eq_true,
        if_true, if_false, Bool.false_eq_true]
    · rcases readSlots s.slots (List.range s.params.histN.toNat) with f | vs
      · exact .fault f
      · refine finish_ok_alike _ ?_; rfl
    all_goals refine finish_ok_alike _ ?_; rfl

/-- A command of the atomic model takes states that differ only in hidden fields and TIMER to twins. -/
theorem exec_alike (i : Instr) (s : State) (q : Sequencer) (τ : Micros) :
    Alike (exec i s) (exec i (s.withHidden q τ)) := by
  rw [exec_eq_runCommand, exec_eq_runCommand]
  exact .ite Iff.rfl (effect_alike i (accept (encode i) s) τ) (.refused _)

/-! ## Steps -/

theorem onCmdWrite_alike (w : CmdWord) (s : State) (q : Sequencer) (τ : Micros) (hp : s.seq.phase = q.phase)
    (hl : SameLive s.seq q s.bus.timer τ) : Alike (onCmdWrite w s) (onCmdWrite w (s.withHidden q τ)) := by
  refine .ite Iff.rfl ?_ ?_
  · exact .mk hp rfl hl
  · show Alike (match s.grain with | .atomic => _ | .cycle => _) (match s.grain with | .atomic => _ | .cycle => _)
    cases s.grain with
    | atomic =>
      dsimp only [execWord]
      rcases decode w with r | i
      · exact finish_ok_alike (s := accept w s) _ (by rfl)
      · exact exec_alike i s q τ
    | cycle => refine .mk ?_ ?_ ?_; exacts [rfl, rfl, ⟨rfl, rfl⟩]

theorem elapse_alike (s : State) (q : Sequencer) (τ : Micros) (hp : s.seq.phase = q.phase)
    (hl : SameLive s.seq q s.bus.timer τ) : Alike (elapse s) (elapse (s.withHidden q τ)) := by
  refine .ite Iff.rfl (.mk hp rfl hl) ?_
  by_cases hw : s.seq.phase.waits = true
  · obtain rfl : s.bus.timer = τ := by
      revert hl hw; unfold SameLive
      cases s.seq.phase <;> simp (config := {contextual := true}) [Phase.waits]
    refine .ite (by show (s.seq.phase.waits = true ∧ _) ↔ (q.phase.waits = true ∧ _); rw [hp]; rfl) ?_
      (advance_alike s q _ hp hl)
    refine .mk hp rfl ?_
    revert hl; unfold SameLive; dsimp only [State.withHidden]
    cases s.seq.phase <;> simp (config := {contextual := true})
  · rw [if_neg (fun h => hw h.1), if_neg (fun h => hw (by rw [hp]; exact h.1))]
    exact advance_alike s q _ hp hl

theorem driveRst_alike (level : Bool) (s : State) (q : Sequencer) (τ : Micros) (hp : s.seq.phase = q.phase)
    (hl : SameLive s.seq q s.bus.timer τ) :
    Alike (.next (driveRst level s)) (.next (driveRst level (s.withHidden q τ))) := by
  unfold driveRst
  by_cases h : (level || s.rst) = true
  · rw [if_pos h, if_pos (show (level || (s.withHidden q τ).rst) = true from h)]
    refine .mk rfl ?_ trivial
    cases hd : s.bus.lineDrv <;> simp [State.withHidden, hardReset, resetBus, hd, release]
  · rw [if_neg h, if_neg (show ¬ (level || (s.withHidden q τ).rst) = true from h)]
    exact .mk hp rfl hl

theorem serve_alike (s : State) (q : Sequencer) (τ : Micros) (hp : s.seq.phase = q.phase)
    (hl : SameLive s.seq q s.bus.timer τ) : Alike (serve s) (serve (s.withHidden q τ)) := by
  show Alike (match s.pending with | [] => _ | e :: rest => _) (match s.pending with | [] => _ | e :: rest => _)
  rcases hs : s.pending with _ | ⟨e, rest⟩
  · exact elapse_alike s q τ hp hl
  · dsimp only
    cases e with
    | write i v =>
      refine .ite Iff.rfl (.mk hp rfl hl) ?_
      rcases i with _ | _ | i
      · exact onCmdWrite_alike _ { s with pending := rest } q τ hp hl
      · exact .mk hp rfl hl
      · exact .mk hp rfl hl
    | read i => exact .mk hp rfl hl
    | waitDone =>
      refine .ite Iff.rfl (.mk hp rfl hl) ?_
      exact elapse_alike _ q τ hp hl
    | rst level => exact driveRst_alike level { s with pending := rest } q τ hp hl
    | elapse => exact elapse_alike { s with pending := rest } q τ hp hl

/-- Every step takes twins to twins, or stops them alike. -/
theorem step_alike {s t : State} (h : Twins s t) : Alike (step s) (step t) := by
  obtain ⟨⟨hp, hw⟩, hl⟩ := h
  rw [← hw]
  exact .ite Iff.rfl (serve_alike s _ _ hp hl) (.refused _)

end Sys2Proof.Machine
end

