-- ==== Sys2Proof/Laws/PerInstr.lean ====
section
/-! SUPPORT. What holds of every command as syntax, one lemma per constructor: the word the encoder writes decodes
to the command it was written for (30_encoding.md R72, R75, R77). -/

namespace Sys2Proof

@[simp] theorem opcOf_cmdWord (opc imm : Byte) : opcOf (cmdWord opc imm) = opc := by
  apply BitVec.eq_of_getLsbD_eq
  intro i hi
  rw [opcOf, BitVec.getLsbD_extractLsb', cmdWord, BitVec.getLsbD_append]
  simp [hi]

@[simp] theorem immOf_cmdWord (opc imm : Byte) : immOf (cmdWord opc imm) = imm := by
  apply BitVec.eq_of_getLsbD_eq
  intro i hi
  rw [immOf, BitVec.getLsbD_extractLsb', cmdWord, BitVec.getLsbD_append]
  simp [hi]

/-- A command word is its two fields. -/
theorem cmdWord_fields (w : CmdWord) : cmdWord (opcOf w) (immOf w) = w := by
  apply BitVec.eq_of_getLsbD_eq
  intro i hi
  rw [cmdWord, BitVec.getLsbD_append, opcOf, immOf, BitVec.getLsbD_extractLsb', BitVec.getLsbD_extractLsb']
  by_cases h : i < 8
  · simp [h]
  · simp [h, show i - 8 < 8 by omega, show 8 + (i - 8) = i by omega]

namespace Laws.RoundTrip

/-- The word of a command decodes to it, and to nothing else. -/
def Statement (i : Instr) : Prop := decode (encode i) = .ok i

theorem owReset : Statement .owReset := rfl

theorem owWrb (b : Byte) : Statement (.owWrb b) := by
  simp [Statement, decode, encode, decodeFields, Instr.mnemonic, Mnemonic.opc, Instr.imm]

theorem owRdb : Statement .owRdb := rfl

theorem owRdrom : Statement .owRdrom := rfl

theorem owRdpwr : Statement .owRdpwr := rfl

theorem tmRec : Statement .tmRec := rfl

theorem tmRdy : Statement .tmRdy := rfl

theorem tmAvg : Statement .tmAvg := rfl

theorem tmAlrm (a : Bool) : Statement (.tmAlrm a) := by cases a <;> rfl

end Laws.RoundTrip

end Sys2Proof
end

