-- ==== Sys2Proof/Laws/Run.lean ====
section
/-! SUPPORT. Runs of several steps: how they are put together, and a Wait of the cycle-level sequencer as one
stretch of a run. -/

namespace Sys2Proof.Machine

/-- One step of the host's run, for any machine. -/
theorem run_next {M : Host.Core} {n : Nat} {s t : M.State} (h : M.step s = .next t) :
    M.run (n + 1) s = M.run n t := by
  rw [Host.Core.run, h]

theorem run_fault {M : Host.Core} {n : Nat} {s : M.State} {f : M.Fault} (h : M.step s = .fault f) :
    M.run (n + 1) s = .fault f := by
  rw [Host.Core.run, h]

theorem run_refused {M : Host.Core} {n : Nat} {s : M.State} {r : M.Refusal} (h : M.step s = .refused r) :
    M.run (n + 1) s = .refused r := by
  rw [Host.Core.run, h]

/-- The host's run of the machine is `runSteps`. -/
theorem core_run_eq (n : Nat) (s : State) : Sys2Proof.core.run n s = runSteps n s := by
  induction n generalizing s with
  | zero => rfl
  | succ n ih =>
    rw [runSteps]
    cases hs : step s with
    | next t => exact (run_next (M := Sys2Proof.core) hs).trans (ih t)
    | fault f => exact run_fault (M := Sys2Proof.core) hs
    | refused r => exact run_refused (M := Sys2Proof.core) hs

theorem runSteps_add (m n : Nat) {s t : State} (h : runSteps m s = .next t) : runSteps (m + n) s = runSteps n t := by
  induction m generalizing s with
  | zero => cases h; simp
  | succ m ih =>
    rw [Nat.succ_add, runSteps]
    rw [runSteps] at h
    split at h
    · next s' hs => exact ih h
    · cases h
    · cases h

/-- Within `n` steps, `s` comes to the outcome `o`. -/
def Leads (n : Nat) (s : State) (o : Host.Outcome State Fault Refusal) : Prop := ∃ k ≤ n, runSteps k s = o

theorem Leads.refl (s : State) (n : Nat) : Leads n s (.next s) := ⟨0, by omega, rfl⟩

theorem Leads.trans {m n : Nat} {s t : State} {o : Host.Outcome State Fault Refusal} (h : Leads m s (.next t))
    (h' : Leads n t o) : Leads (m + n) s o := by
  obtain ⟨k, hk, h⟩ := h
  obtain ⟨l, hl, h'⟩ := h'
  exact ⟨k + l, by omega, (runSteps_add k l h).trans h'⟩

theorem Leads.mono {m n : Nat} {s : State} {o : Host.Outcome State Fault Refusal} (h : Leads m s o) (hmn : m ≤ n) :
    Leads n s o := by
  obtain ⟨k, hk, h⟩ := h
  exact ⟨k, by omega, h⟩

/-- A state that the outside world leaves alone, of a well-formed build. -/
def Alone (s : State) : Prop := s.params.WellFormed ∧ s.pending = [] ∧ s.rst = false

/-- Out of reset, time passes as a tick or an action. -/
theorem elapse_eq {s : State} (h : s.rst = false) : elapse s =
    if s.seq.phase.waits ∧ s.bus.timer ≠ 0#32 then .next { s with bus := tick s.bus } else advance s :=
  if_neg (Bool.eq_false_iff.1 h)

/-- Left alone, the machine takes ticks and actions only. -/
theorem step_alone {s : State} (h : Alone s) : step s = elapse s := by
  rw [step_eq_serve h.1, serve, h.2.1]

theorem leads_step {s : State} (h : Alone s) : Leads 1 s (elapse s) := by
  refine ⟨1, le_rfl, ?_⟩
  rw [runSteps, step_alone h]
  cases elapse s <;> rfl

/-- An action takes one step when no Wait is running. -/
theorem leads_action {s : State} (h : Alone s) (hw : s.seq.phase.waits = false ∨ s.bus.timer = 0#32) :
    Leads 1 s (advance s) := by
  have := leads_step h
  rwa [elapse_eq h.2.2, if_neg (by rcases hw with hw | hw <;> simp [hw])] at this

/-- A Wait runs out, tick by tick, and its action follows. -/
theorem leads_wait {s : State} (h : Alone s) (hw : s.seq.phase.waits = true) :
    Leads (s.bus.timer.toNat + 1) s (advance { s with bus := { s.bus with timer := 0#32 } }) := by
  have ticks : ∀ n, ∀ s : State, Alone s → s.seq.phase.waits = true → s.bus.timer.toNat = n →
      Leads n s (.next { s with bus := { s.bus with timer := 0#32 } }) := by
    intro n
    induction n with
    | zero =>
      intro s h hw hn
      rw [← show s.bus.timer = 0#32 from BitVec.eq_of_toNat_eq hn]
      exact Leads.refl s 0
    | succ n ih =>
      intro s h hw hn
      have h0 : s.bus.timer ≠ 0#32 := by rintro h0; rw [h0] at hn; simp at hn
      have h1 := leads_step h
      rw [elapse_eq h.2.2, if_pos ⟨hw, h0⟩] at h1
      have ht : (s.bus.timer - 1#32).toNat = n := by
        rw [BitVec.toNat_sub_of_le (by simp [BitVec.le_def]; omega)]; simp [hn]
      have := h1.trans (ih { s with bus := tick s.bus } h hw ht)
      rwa [Nat.add_comm] at this
  exact (ticks _ s h hw rfl).trans (leads_action (s := { s with bus := { s.bus with timer := 0#32 } }) h (.inr rfl))

/-- A phase is entered, its Wait runs out, and its action follows. -/
theorem leads_phase (s : State) (ph : Phase) (n : Micros) (b : Bus) (h : Alone s) (hw : ph.waits = true) :
    Leads (n.toNat + 1) (enter ph n b s)
      (advance { s with bus := { b with timer := 0#32 }, seq := { s.seq with phase := ph } }) :=
  leads_wait (s := enter ph n b s) h hw

/-! ## Slots -/

/-- A slot's low pulse. -/
theorem startSlot_leads (s : State) (h : Alone s) :
    Leads ((lowWidth s.params s.seq).toNat + 1) (startSlot s)
      (.next (enter .slotRelease (releaseWidth s.params s.seq)
        (release (endWait (lowWidth s.params s.seq) (driveLow s.bus))) s)) :=
  leads_phase s .slotLow (lowWidth s.params s.seq) (driveLow s.bus) h rfl

/-- A slot's recovery. -/
theorem recovery_leads (s : State) (h : Alone s) (b : Bus) :
    Leads (s.params.tRec.toNat + 1) (enter .slotRecovery s.params.tRec b s)
      (afterSlot { s with bus := endWait s.params.tRec b, seq := { s.seq with phase := .slotRecovery } }) :=
  leads_phase s .slotRecovery s.params.tRec b h rfl

/-- A write slot, and what follows it: the next thing to do, or the end of the command. -/
theorem writeSlot_leads (s : State) (h : Alone s) (hr : s.seq.reading = false) :
    Leads (slotBound s.params + 3) (startSlot s)
      (match writeSlot s.params (currentBit s.seq) s.bus with
       | (.ok (), b) => afterSlot { s with bus := b, seq := { s.seq with phase := .slotRecovery } }
       | (.error c, b) => finish (.ok (endProto c { s with bus := b }))) := by
  obtain ⟨-, hl1, hl0, -, -⟩ := (Params.wellFormed_iff _).1 h.1
  have e1 := sub_toNat hl1.le
  have e0 := sub_toNat hl0.le
  have first := startSlot_leads s h
  have second := leads_phase s .slotRelease (releaseWidth s.params s.seq)
    (release (endWait (lowWidth s.params s.seq) (driveLow s.bus))) h rfl
  have hcur : ∀ q : Sequencer, currentBit { q with phase := .slotRelease } = currentBit q := fun _ => rfl
  cases hc : currentBit s.seq
  · have w1 : lowWidth s.params s.seq = s.params.tLow0 := by simp [lowWidth, hr, hc]
    have w2 : releaseWidth s.params s.seq = s.params.tSlot - s.params.tLow0 := by simp [releaseWidth, hr, hc]
    have hadv : ∀ b, advance { s with bus := b, seq := { s.seq with phase := .slotRelease } } =
        .next (enter .slotRecovery s.params.tRec (endWait (releaseWidth s.params s.seq) b) s) := by
      intro b
      exact (if_neg (Bool.eq_false_iff.1 hr)).trans (if_neg (Bool.eq_false_iff.1 hc))
    rw [hadv] at second
    rw [w1, w2] at first second
    refine ((first.trans second).trans (recovery_leads s h _)).mono ?_
    simp only [slotBound]; omega
  · have w1 : lowWidth s.params s.seq = s.params.tLow1 := by simp [lowWidth, hr, hc]
    have w2 : releaseWidth s.params s.seq = s.params.tSlot - s.params.tLow1 := by simp [releaseWidth, hr, hc]
    have hadv : ∀ b, advance { s with bus := b, seq := { s.seq with phase := .slotRelease } } =
        highChecked { s with bus := b, seq := { s.seq with phase := .slotRelease } }
          (sample (endWait (releaseWidth s.params s.seq) b)) := by
      intro b
      exact (if_neg (Bool.eq_false_iff.1 hr)).trans (if_pos hc)
    rw [hadv] at second
    rw [w1, w2] at first second
    have both := first.trans second
    simp only [writeSlot, writeSlot1, if_true]
    show Leads _ _ (match (match sample (endWait (s.params.tSlot - s.params.tLow1)
        (release (endWait s.params.tLow1 (driveLow s.bus)))) with
       | (.low, b) => ((.error .busContention, b) : LineOutcome × Bus)
       | (.high, b) => (.ok (), wait s.params.tRec b)) with | (.ok (), b) => _ | (.error c, b) => _)
    change Leads _ _ (highChecked _ (sample (endWait (s.params.tSlot - s.params.tLow1)
      (release (endWait s.params.tLow1 (driveLow s.bus)))))) at both
    revert both
    generalize sample (endWait (s.params.tSlot - s.params.tLow1)
      (release (endWait s.params.tLow1 (driveLow s.bus)))) = lb
    obtain ⟨l, b⟩ := lb
    intro both
    cases l with
    | low => exact both.mono (by simp only [slotBound]; omega)
    | high =>
      refine (both.trans (recovery_leads s h b)).mono ?_
      simp only [slotBound]; omega

/-- A read slot, and what follows it. -/
theorem readSlot_leads (s : State) (h : Alone s) (hr : s.seq.reading = true) :
    Leads (slotBound s.params + 4) (startSlot s)
      (afterSlot { s with
        bus := (readSlot s.params s.bus).2
        seq := { s.seq with
          phase := .slotRecovery
          shift := setBit s.seq.shift s.seq.bitcnt.toNat (readSlot s.params s.bus).1 } }) := by
  obtain ⟨-, -, -, hrd, -⟩ := (Params.wellFormed_iff _).1 h.1
  have h1 := sub_toNat (a := s.params.tSlot) (b := s.params.tRdl) (by omega)
  have h2 := sub_toNat (a := s.params.tSlot - s.params.tRdl) (b := s.params.tRds) (by omega)
  have first := startSlot_leads s h
  have second := leads_phase s .slotRelease (releaseWidth s.params s.seq)
    (release (endWait (lowWidth s.params s.seq) (driveLow s.bus))) h rfl
  have w1 : lowWidth s.params s.seq = s.params.tRdl := by simp [lowWidth, hr]
  have w2 : releaseWidth s.params s.seq = s.params.tRds := by simp [releaseWidth, hr]
  have hadv : ∀ b, advance { s with bus := b, seq := { s.seq with phase := .slotRelease } } =
      bitSampled { s with bus := b, seq := { s.seq with phase := .slotRelease } }
        (sample (endWait (releaseWidth s.params s.seq) b)) := by
    intro b
    exact if_pos hr
  rw [hadv] at second
  rw [w1, w2] at first second
  have both := first.trans second
  change Leads _ _ (bitSampled _
    (sample (endWait s.params.tRds (release (endWait s.params.tRdl (driveLow s.bus)))))) at both
  have hread : readSlot s.params s.bus =
      (bitOf (sample (endWait s.params.tRds (release (endWait s.params.tRdl (driveLow s.bus))))).1,
        endWait s.params.tRec (endWait (readRemainder s.params)
          (sample (endWait s.params.tRds (release (endWait s.params.tRdl (driveLow s.bus))))).2)) := rfl
  rw [hread]
  clear hread
  revert both
  generalize sample (endWait s.params.tRds (release (endWait s.params.tRdl (driveLow s.bus)))) = lb
  obtain ⟨l, b⟩ := lb
  intro both
  let s' : State := { s with seq := { s.seq with shift := setBit s.seq.shift s.seq.bitcnt.toNat (bitOf l) } }
  have third : Leads ((readRemainder s.params).toNat + 1) (enter .slotSample (readRemainder s.params) b s')
      (.next (enter .slotRecovery s.params.tRec (endWait (readRemainder s.params) b) s')) :=
    leads_phase s' .slotSample _ b h rfl
  refine ((both.trans third).trans (recovery_leads s' h _)).mono ?_
  have hrec : s'.params.tRec = s.params.tRec := rfl
  simp only [slotBound, readRemainder, hrec]; omega

/-! ## Bits and bytes -/

/-- Not the last bit: the next slot starts. -/
theorem afterSlot_next {s : State} (h : s.seq.bitcnt ≠ lastBit s.seq) :
    afterSlot s = .next (startSlot { s with seq := { s.seq with bitcnt := s.seq.bitcnt + 1#3 } }) := if_neg h

theorem afterSlot_lastRead {s : State} (hb : s.seq.bitcnt = lastBit s.seq) (hr : s.seq.reading = true) :
    afterSlot s = afterRead s := by
  rw [afterSlot, if_pos hb, if_pos hr]

theorem afterSlot_lastWrite {s : State} (hb : s.seq.bitcnt = lastBit s.seq) (hr : s.seq.reading = false) :
    afterSlot s = afterWrite s := by
  rw [afterSlot, if_pos hb, if_neg (Bool.eq_false_iff.1 hr)]

theorem bit_succ {k m : Nat} (h : k + (m + 1) = 7) :
    BitVec.ofNat 3 k ≠ 7#3 ∧ BitVec.ofNat 3 k + 1#3 = BitVec.ofNat 3 (k + 1) ∧ (BitVec.ofNat 3 k).toNat = k := by
  have : k < 7 := by omega
  interval_cases k <;> decide

/-- The slots of bits `k` to 7 of a byte. -/
theorem writeBits_leads (v : Byte) (m k : Nat) (hk : k + m = 7) (s : State) (h : Alone s)
    (hr : s.seq.reading = false) (hb : s.seq.bitcnt = BitVec.ofNat 3 k) (hv : s.seq.shift = v) :
    Leads ((m + 1) * (slotBound s.params + 3)) (startSlot s)
      (match writeBits s.params v (List.range' k (m + 1)) s.bus with
       | (.ok (), b) => afterWrite { s with bus := b, seq := { s.seq with phase := .slotRecovery, bitcnt := 7#3 } }
       | (.error c, b) => finish (.ok (endProto c { s with bus := b }))) := by
  induction m generalizing k s with
  | zero =>
    have hk : k = 7 := by omega
    subst hk
    have hl := writeSlot_leads s h hr
    have hcur : currentBit s.seq = v.getLsbD 7 := by simp [currentBit, hb, hv]
    rw [hcur] at hl
    simp only [List.range', writeBits]
    revert hl
    generalize writeSlot s.params (v.getLsbD 7) s.bus = r
    obtain ⟨(c | u), b⟩ := r <;> intro hl
    · refine Leads.mono hl ?_
      omega
    · have hb7 : s.seq.bitcnt = 7#3 := hb
      have hlast : ({ s.seq with phase := .slotRecovery } : Sequencer).bitcnt =
          lastBit { s.seq with phase := .slotRecovery } := by
        simp [lastBit, hr, hb7]
      simp only at hl ⊢
      rw [afterSlot_lastWrite] at hl
      · rw [← hb7]
        refine Leads.mono hl ?_
        omega
      · exact hlast
      · exact hr
  | succ m ih =>
    obtain ⟨h7, hsucc, htn⟩ := bit_succ hk
    have hl := writeSlot_leads s h hr
    have hcur : currentBit s.seq = v.getLsbD k := by rw [currentBit, hb, hv, htn]
    rw [hcur] at hl
    rw [List.range'_succ, writeBits]
    revert hl
    generalize writeSlot s.params (v.getLsbD k) s.bus = r
    obtain ⟨(c | u), b⟩ := r <;> intro hl
    · exact hl.mono (Nat.le_mul_of_pos_left _ (by omega))
    · simp only at hl ⊢
      rw [afterSlot_next (by simp only [lastBit, hr, hb]; exact h7)] at hl
      have := ih (k + 1) (by omega)
        { s with bus := b, seq := { s.seq with phase := .slotRecovery, bitcnt := s.seq.bitcnt + 1#3 } } h hr
        (by simp only [hb, hsucc]) hv
      refine (hl.trans this).mono ?_
      simp only [Nat.succ_mul]; omega

/-- A transfer of any command but OW.RDPWR ends with bit 7. -/
theorem lastBit_byte {q : Sequencer} (hd : decode q.cmd ≠ .ok .owRdpwr) : lastBit q = 7#3 := by
  unfold lastBit
  split
  · next h1 h2 => exact absurd h2 hd
  · rfl

/-- OW.RDPWR reads one bit. -/
theorem lastBit_one {q : Sequencer} (hr : q.reading = true) (hd : decode q.cmd = .ok .owRdpwr) : lastBit q = 0#3 := by
  simp only [lastBit, hr, hd]

/-- The read slots of bits `k` to 7 of a byte. -/
theorem readBits_leads (m k : Nat) (hk : k + m = 7) (s : State) (h : Alone s)
    (hr : s.seq.reading = true) (hd : decode s.seq.cmd ≠ .ok .owRdpwr) (hb : s.seq.bitcnt = BitVec.ofNat 3 k) :
    Leads ((m + 1) * (slotBound s.params + 4)) (startSlot s)
      (afterRead { s with
        bus := (readBits s.params (List.range' k (m + 1)) s.seq.shift s.bus).2
        seq := { s.seq with
          phase := .slotRecovery
          bitcnt := 7#3
          shift := (readBits s.params (List.range' k (m + 1)) s.seq.shift s.bus).1 } }) := by
  induction m generalizing k s with
  | zero =>
    have hl := readSlot_leads s h hr
    have hk : k = 7 := by omega
    subst hk
    have hb7 : s.seq.bitcnt = 7#3 := hb
    have ht7 : s.seq.bitcnt.toNat = 7 := by rw [hb7]; rfl
    rw [Nat.zero_add, Nat.one_mul]
    rw [afterSlot_lastRead, ht7] at hl
    · rw [← hb7]
      exact hl
    · exact hb7.trans (lastBit_byte hd).symm
    · exact hr
  | succ m ih =>
    obtain ⟨h7, hsucc, htn⟩ := bit_succ hk
    have hl := readSlot_leads s h hr
    rw [afterSlot_next] at hl
    rotate_left
    · exact fun he => h7 (hb.symm.trans (he.trans (lastBit_byte hd)))
    rw [List.range'_succ, readBits]
    have := ih (k + 1) (by omega) { s with
      bus := (readSlot s.params s.bus).2
      seq := { s.seq with
        phase := .slotRecovery
        bitcnt := s.seq.bitcnt + 1#3
        shift := setBit s.seq.shift s.seq.bitcnt.toNat (readSlot s.params s.bus).1 } } h hr hd
      (by simp only [hb, hsucc])
    simp only [hb, htn] at this hl ⊢
    refine (hl.trans this).mono ?_
    simp only [Nat.succ_mul]; omega

/-- OW.RDPWR's one read slot. -/
theorem readOne_leads (s : State) (h : Alone s)
    (hr : s.seq.reading = true) (hd : decode s.seq.cmd = .ok .owRdpwr) (hb : s.seq.bitcnt = 0#3)
    (hs : s.seq.shift = 0#8) :
    Leads (slotBound s.params + 4) (startSlot s)
      (finish (.ok (endOwRdpwr (readSlot s.params s.bus).1 { s with bus := (readSlot s.params s.bus).2 }))) := by
  have hl := readSlot_leads s h hr
  rw [afterSlot_lastRead] at hl
  rotate_left
  · exact hb.trans (lastBit_one hr hd).symm
  · exact hr
  unfold afterRead at hl
  simp only [hd, hs, hb] at hl
  revert hl
  generalize readSlot s.params s.bus = r
  obtain ⟨v, b⟩ := r
  intro hl
  have e : (setBit 0#8 (0#3).toNat v).getLsbD 0 = v := by cases v <;> decide
  simp only [finish, endOwRdpwr, complete, e] at hl ⊢
  exact hl

/-- The end of OW.RDROM does not depend on the sequencer. -/
theorem finish_rdrom_seq (r : Word) (s : State) (q : Sequencer) :
    finish (.ok (endOwRdrom r { s with seq := q })) = finish (.ok (endOwRdrom r s)) := by
  unfold endOwRdrom
  dsimp only
  split <;> rfl

/-- The bytes `k` to 7 of the ROM readout, then the validation. -/
theorem readBytes_leads (m k : Nat) (hk : k + m = 7) (s : State) (h : Alone s)
    (hr : s.seq.reading = true) (hd : decode s.seq.cmd = .ok .owRdrom) (hb : s.seq.bitcnt = 0#3)
    (hs : s.seq.shift = 0#8) (hby : s.seq.bytecnt = BitVec.ofNat 3 k) :
    Leads ((m + 1) * (8 * (slotBound s.params + 4)) + 1) (startSlot s)
      (finish (.ok (endOwRdrom (readBytes s.params (List.range' k (m + 1)) s.seq.romacc s.bus).1
        { s with bus := (readBytes s.params (List.range' k (m + 1)) s.seq.romacc s.bus).2 }))) := by
  have hrom : ∀ t : State, decode t.seq.cmd = .ok .owRdrom → afterRead t = .next (afterRomByte t) := by
    intro t ht; unfold afterRead; rw [ht]
  induction m generalizing k s with
  | zero =>
    have hl := readBits_leads 7 0 rfl s h hr (by simp [hd]) hb
    have hread : readBits s.params (List.range' 0 (7 + 1)) s.seq.shift s.bus = readByte s.params s.bus := by
      rw [hs]; rfl
    rw [hread, hrom] at hl
    rotate_left
    · exact hd
    have hk : k = 7 := by omega
    subst hk
    have hby7 : s.seq.bytecnt = 7#3 := hby
    unfold afterRomByte at hl
    rw [if_pos hby7] at hl
    have hh := hl.trans (leads_action h (.inl rfl))
    simp only [advance, hd, hby7] at hh
    have e := finish_rdrom_seq (setByte s.seq.romacc 7 (readByte s.params s.bus).1)
      { s with bus := (readByte s.params s.bus).2 }
    refine Leads.mono (Eq.mp (congrArg (Leads _ _) (e _)) hh) ?_
    omega
  | succ m ih =>
    have hl := readBits_leads 7 0 rfl s h hr (by simp [hd]) hb
    have hread : readBits s.params (List.range' 0 (7 + 1)) s.seq.shift s.bus = readByte s.params s.bus := by
      rw [hs]; rfl
    rw [hread, hrom] at hl
    rotate_left
    · exact hd
    obtain ⟨h7, hsucc, htn⟩ := bit_succ hk
    unfold afterRomByte at hl
    rw [if_neg (by simp only [hby]; exact h7)] at hl
    rw [List.range'_succ, readBytes]
    have := ih (k + 1) (by omega) { s with
      bus := (readByte s.params s.bus).2
      seq := { s.seq with
        phase := .slotRecovery
        reading := true
        bitcnt := 0#3
        shift := 0#8
        bytecnt := s.seq.bytecnt + 1#3
        romacc := setByte s.seq.romacc k (readByte s.params s.bus).1 } } h rfl hd rfl rfl
      (by simp only [hby, hsucc])
    unfold startReading at hl
    simp only [hby, htn] at this hl ⊢
    refine Leads.mono (Eq.mp (congrArg (Leads _ _) (finish_rdrom_seq _ _ _)) (hl.trans this)) ?_
    simp only [Nat.succ_mul]; omega

/-! ## Reset pulses -/

/-- The polls of a reset pulse, `n` of them left. -/
theorem pollRelease_leads (n : Nat) (hn : 0 < n) (b : Bus) (s : State) (h : Alone s)
    (hp : s.seq.pollcnt.toNat + n = s.params.nPresPoll.toNat) :
    ∃ pc, Leads (n * (s.params.tPresPoll.toNat + 1) + s.params.tRstrec.toNat + 1)
      (enter .presencePoll s.params.tPresPoll b s)
      (match pollRelease s.params n b with
       | (.ok (), b) => afterReset { s with bus := b, seq := { s.seq with phase := .resetRecovery, pollcnt := pc } }
       | (.error c, b) => finish (.ok (endProto c { s with bus := b }))) := by
  induction n generalizing s b with
  | zero => omega
  | succ n ih =>
    have hlt := s.params.nPresPoll.isLt
    have hpc : (s.seq.pollcnt + 1#32).toNat = s.seq.pollcnt.toNat + 1 := by
      rw [BitVec.toNat_add]; simp; omega
    have first := leads_phase s .presencePoll s.params.tPresPoll b h rfl
    simp only [advance] at first
    change Leads _ _ (releasePolled _ (sample (wait s.params.tPresPoll b))) at first
    rw [pollRelease]
    revert first
    generalize sample (wait s.params.tPresPoll b) = lb
    obtain ⟨l, b⟩ := lb
    intro first
    cases l with
    | high =>
      refine ⟨s.seq.pollcnt + 1#32, ?_⟩
      simp only [releasePolled] at first
      have second := leads_phase { s with seq := { s.seq with pollcnt := s.seq.pollcnt + 1#32 } }
        .resetRecovery s.params.tRstrec b h rfl
      refine (first.trans second).mono ?_
      have := Nat.zero_le (n * (s.params.tPresPoll.toNat + 1))
      rw [Nat.succ_mul]; omega
    | low =>
      simp only [releasePolled] at first
      split at first
      · next hlast =>
        have h0 : n = 0 := by
          have := congrArg BitVec.toNat hlast
          omega
        subst h0
        refine ⟨0#32, ?_⟩
        simp only [pollRelease]
        refine Leads.mono first ?_
        omega
      · next hlast =>
        have hn : 0 < n := by
          rcases Nat.eq_zero_or_pos n with h0 | h0
          · exact absurd (BitVec.eq_of_toNat_eq (by omega)) hlast
          · exact h0
        obtain ⟨pc, hl⟩ := ih hn b { s with seq := { s.seq with pollcnt := s.seq.pollcnt + 1#32 } } h
          (by simp only [hpc]; omega)
        refine ⟨pc, (first.trans hl).mono ?_⟩
        rw [Nat.succ_mul]
        dsimp only
        omega

/-- A reset pulse. -/
theorem startReset_leads (s : State) (h : Alone s) :
    ∃ pc, Leads (resetBound s.params + s.params.nPresPoll.toNat + 3) (startReset s)
      (match resetPulse s.params s.bus with
       | (.ok (), b) => afterReset { s with bus := b, seq := { s.seq with phase := .resetRecovery, pollcnt := pc } }
       | (.error c, b) => finish (.ok (endProto c { s with bus := b }))) := by
  have hn := ((Params.wellFormed_iff _).1 h.1).1
  have first : Leads (s.params.tRstl.toNat + 1) (startReset s)
      (.next (enter .resetWait s.params.tMsp (release (wait s.params.tRstl (driveLow s.bus))) s)) :=
    leads_phase s .resetLow s.params.tRstl (driveLow s.bus) h rfl
  have second := leads_phase s .resetWait s.params.tMsp (release (wait s.params.tRstl (driveLow s.bus))) h rfl
  have both := first.trans second
  change Leads _ _ (presenceSampled _
    (sample (wait s.params.tMsp (release (wait s.params.tRstl (driveLow s.bus)))))) at both
  unfold resetPulse
  revert both
  generalize sample (wait s.params.tMsp (release (wait s.params.tRstl (driveLow s.bus)))) = lb
  obtain ⟨l, b⟩ := lb
  intro both
  cases l with
  | high => exact ⟨0#32, Leads.mono both (by simp only [resetBound]; omega)⟩
  | low =>
    simp only [presenceSampled] at both
    obtain ⟨pc, hl⟩ := pollRelease_leads _ hn b { s with seq := { s.seq with pollcnt := 0#32 } } h (by simp)
    refine ⟨pc, (both.trans hl).mono ?_⟩
    simp only [resetBound, Nat.mul_succ]; omega

/-- A byte's write slots. -/
theorem writeByte_leads (v : Byte) (s : State) (h : Alone s) :
    Leads (8 * (slotBound s.params + 3)) (startWriting v s)
      (match writeByte s.params v s.bus with
       | (.ok (), b) => afterWrite { s with
           bus := b
           seq := { s.seq with phase := .slotRecovery, reading := false, bitcnt := 7#3, shift := v } }
       | (.error c, b) => finish (.ok (endProto c { s with bus := b }))) :=
  writeBits_leads v 7 0 rfl { s with seq := { s.seq with reading := false, bitcnt := 0#3, shift := v } } h rfl rfl rfl

/-- The head of OW.RDROM and OW.RDPWR. -/
theorem resetAndWrite_leads (v : Byte) (s : State) (h : Alone s)
    (hd : (decode s.seq.cmd = .ok .owRdrom ∧ v = s.params.cmdReadRom) ∨
      (decode s.seq.cmd = .ok .owRdpwr ∧ v = s.params.cmdReadPower)) :
    ∃ pc, Leads (resetBound s.params + s.params.nPresPoll.toNat + 3 + 8 * (slotBound s.params + 3)) (startReset s)
      (match resetAndWrite s.params v s.bus with
       | (.ok (), b) => afterWrite { s with
           bus := b
           seq := { s.seq with phase := .slotRecovery, reading := false, bitcnt := 7#3, shift := v, pollcnt := pc } }
       | (.error c, b) => finish (.ok (endProto c { s with bus := b }))) := by
  obtain ⟨pc, hl⟩ := startReset_leads s h
  refine ⟨pc, ?_⟩
  unfold resetAndWrite
  revert hl
  generalize resetPulse s.params s.bus = r
  obtain ⟨(c | u), b⟩ := r <;> intro hl
  · exact Leads.mono hl (by omega)
  · simp only at hl ⊢
    have hw := writeByte_leads v { s with bus := b, seq := { s.seq with phase := .resetRecovery, pollcnt := pc } } h
    refine Leads.trans (t := startWriting v
      { s with bus := b, seq := { s.seq with phase := .resetRecovery, pollcnt := pc } }) ?_ hw
    unfold afterReset at hl
    rcases hd with ⟨hd, rfl⟩ | ⟨hd, rfl⟩ <;> (simp only [hd] at hl; exact hl)

end Sys2Proof.Machine
end

