-- ==== Sys2Proof/Tests/Slice0.lean ====
section
/-! SUPPORT. Tests of one step each, whose expected results are the vectors of 95_test_vectors.md or the examples
of the rules, and a witness for the hypotheses of every obligation. -/

namespace Sys2Proof.Tests

open Sys2Proof Sys2Proof.Machine

/-! ## Helpers -/

/-- The machine after reset whose environment will answer these levels. -/
def fresh (env : List Level) : State := { State.reset with bus := { Bus.reset with env := env } }

/-- The same with an open transaction. -/
def opened (env : List Level) : State :=
  { fresh env with status := { Status.reset with txn := true } }

/-- What the host does next. -/
def host (es : List Event) (s : State) : State := { s with pending := es }

/-- The default build with a history of `n` slots. -/
def withSlots (n : HistIndex) : Params := { Params.default with histN := n }

/-- A full history of three slots, which the cursor has gone round once. -/
def full3 (a b c : Word) : State :=
  { State.resetWith (withSlots 3#16) with
    slots := [some a, some b, some c]
    fill := 3#16
    cursor := 1#16
    status := { Status.reset with ready := true } }

/-- The state an outcome gives, for reading a field of it. -/
def after (o : Host.Outcome State Fault Refusal) : State :=
  match o with
  | .next s => s
  | .fault _ => State.reset
  | .refused _ => State.reset

/-- Whether an outcome is a next state. -/
def isNext (o : Host.Outcome State Fault Refusal) : Bool :=
  match o with
  | .next _ => true
  | .fault _ => false
  | .refused _ => false

theorem next_after {o : Host.Outcome State Fault Refusal} (h : isNext o = true) : o = .next (after o) := by
  cases o with
  | next s => rfl
  | fault f => simp [isNext] at h
  | refused r => simp [isNext] at h

/-- The machine after reset, `rst` being asserted. -/
def held (es : List Event) : State := { State.reset with rst := true, pending := es }

/-- A busy block of the cycle-level model in the given phase of a command. -/
def running (word : CmdWord) (ph : Phase) : State :=
  { State.reset with
    grain := .cycle
    status := { Status.reset with busy := true }
    seq := { Sequencer.idle with phase := ph, cmd := word } }

/-! ## WellFormed -/

theorem test_default_build : Params.default.wellFormed = true := by decide
theorem test_build_without_poll : { Params.default with nPresPoll := 0#32 }.wellFormed = false := by decide
theorem test_build_long_low1 : { Params.default with tLow1 := 65#32 }.wellFormed = false := by decide
theorem test_build_long_low0 : { Params.default with tLow0 := 65#32 }.wellFormed = false := by decide
theorem test_build_late_sample : { Params.default with tRds := 60#32 }.wellFormed = false := by decide
theorem test_build_last_sample : { Params.default with tRds := 59#32 }.wellFormed = true := by decide
theorem test_build_sum_does_not_wrap : { Params.default with tRds := 0xFFFFFFFF#32 }.wellFormed = false := by decide
theorem test_build_without_slot : (withSlots 0#16).wellFormed = false := by decide
theorem test_build_most_slots : (withSlots 65535#16).wellFormed = true := by decide

theorem test_line_byte_missing : (AsmLine.command .owWrb none).wellFormed = false := by decide
theorem test_line_byte_too_large : (AsmLine.command .owWrb (some 256)).wellFormed = false := by decide
theorem test_line_flag_missing : (AsmLine.command .tmAlrm none).wellFormed = false := by decide
theorem test_line_flag_too_large : (AsmLine.command .tmAlrm (some 2)).wellFormed = false := by decide
theorem test_line_operand_extra : [Mnemonic.owReset, .owRdb, .owRdrom, .owRdpwr, .tmRec, .tmRdy, .tmAvg].all
    (fun m => !(AsmLine.command m (some 0)).wellFormed) = true := by decide
theorem test_line_value_too_large : (AsmLine.wr .data (2 ^ 64)).wellFormed = false := by decide
theorem test_line_ill_formed_stands_for_nothing : assemble (.command .owWrb (some 256)) = none := by decide

/-! ## Decoding: words written out from R72, and the table of 95_test_vectors.md -/

theorem test_decode_owReset : decode 0b0000000100000000#16 = .ok .owReset := by decide
theorem test_decode_owWrb : decode 0b0000001000110011#16 = .ok (.owWrb 0x33#8) := by decide
theorem test_decode_owWrb_ff : decode 0b0000001011111111#16 = .ok (.owWrb 0xFF#8) := by decide
theorem test_decode_owRdb : decode 0b0000001100000000#16 = .ok .owRdb := by decide
theorem test_decode_owRdrom : decode 0b0000010000000000#16 = .ok .owRdrom := by decide
theorem test_decode_owRdpwr : decode 0b0000010100000000#16 = .ok .owRdpwr := by decide
theorem test_decode_tmRec : decode 0b0001000100000000#16 = .ok .tmRec := by decide
theorem test_decode_tmRdy : decode 0b0001001000000000#16 = .ok .tmRdy := by decide
theorem test_decode_tmAvg : decode 0b0001001100000000#16 = .ok .tmAvg := by decide
theorem test_decode_tmAlrm_0 : decode 0b0001010000000000#16 = .ok (.tmAlrm false) := by decide
theorem test_decode_tmAlrm_1 : decode 0b0001010000000001#16 = .ok (.tmAlrm true) := by decide

theorem test_decode_reserved_imm :
    decode 0x0101#16 = .error (.reservedImm 0x01#8 0x01#8) ∧
    decode 0x1402#16 = .error (.reservedImm 0x14#8 0x02#8) := by decide

theorem test_decode_illegal :
    decode 0x0000#16 = .error (.illegalOpcode 0x00#8) ∧ decode 0x0600#16 = .error (.illegalOpcode 0x06#8) ∧
    decode 0x1000#16 = .error (.illegalOpcode 0x10#8) ∧ decode 0x1500#16 = .error (.illegalOpcode 0x15#8) ∧
    decode 0xFFFF#16 = .error (.illegalOpcode 0xFF#8) := by decide

/-- R77's two examples. -/
theorem test_encode : encode (.owWrb 0x33#8) = 0x0233#16 ∧ encode (.tmAlrm true) = 0x1401#16 := by decide

theorem test_table_word : decodeTableWord 16 0x0233 = some (.owWrb 0x33#8) ∧ decodeTableWord 16 0x0600 = none := by
  decide

/-- `OW.WRB 0x33 ; a byte`, and the registers' spelling. -/
theorem test_parse_line :
    parseLine ['O','W','.','W','R','B',' ','0','x','3','3',' ',';',' ','a'] = some (.command .owWrb (some 0x33)) ∧
    parseLine ['W','R',' ','D','A','T','A',',',' ','1','0'] = some (.wr .data 10) ∧
    parseLine ['R','D',' ','R','O','M'] = some (.rd .rom) ∧ parseLine ['o','w'] = none := by decide

/-- R78: `TM.RECF 60.0` writes 0x404E000000000000, then TM.REC (program P3). -/
theorem test_recf : assemble (.tmRecf ⟨false, 600, -1⟩) =
    some [.write 1 0x404E000000000000#64, .write 0 0x1100#64] := by decide +kernel

/-! ## Register reads: V-REG-1, V-REG-2 -/

theorem test_reset_reads :
    regRead 0 State.reset = 0#64 ∧ regRead 3 State.reset = 0#64 ∧ regRead 4 State.reset = 0#64 ∧
    regRead 5 State.reset = 0#64 ∧ regRead 6 State.reset = 0x000000B43328000A#64 ∧
    regRead 7 State.reset = 0x404E000000000000#64 ∧ regRead 8 State.reset = 0#64 := by decide

theorem test_write_status_ignored :
    after (step (host [.write 3 0xFFFFFFFFFFFFFFFF#64] State.reset)) = State.reset := by decide +kernel

/-- R57: eight little-endian lanes are one write, fewer are none. -/
theorem test_write_lanes :
    writeLanes 1 [0x01#8, 0x02#8, 0x03#8, 0x04#8, 0x05#8, 0x06#8, 0x07#8, 0x08#8] =
      some (.write 1 0x0807060504030201#64) ∧
    writeLanes 1 [0x01#8, 0x02#8] = none := by decide

/-! ## CRC-8: V-CRC-1, V-CRC-2, V-CRC-4, V-CRC-7 -/

theorem test_crc_check_value :
    crc8 [0x31#8, 0x32#8, 0x33#8, 0x34#8, 0x35#8, 0x36#8, 0x37#8, 0x38#8, 0x39#8] = 0xA1#8 := by decide +kernel
theorem test_crc_bytes : crc8 (romPayload 0xA200000001B81C02#64) = 0xA2#8 ∧
    crc8 (romPayload 0x9E06050403020128#64) = 0x9E#8 ∧
    crc8 (romPayload 0xFFFFFFFFFFFFFFFF#64) = 0x14#8 := by decide +kernel

theorem test_validateRom :
    validateRom Params.default 0x9E06050403020128#64 = .ok () ∧
    validateRom Params.default 0x7B06050403020110#64 = .error .unexpectedFamily ∧
    validateRom Params.default 0x9E06050403020129#64 = .error .crc ∧
    validateRom Params.default 0x0000000000000000#64 = .error .unexpectedFamily := by decide +kernel

/-! ## Bus commands -/

/-- V-OW-1: STATUS 0x06 and the trace RST_OK of R102's example. -/
theorem test_owReset_ok : (after (exec .owReset (fresh [.low, .high]))).status.word = 0x06#64 ∧
    (after (exec .owReset (fresh [.low, .high]))).bus.trace =
      [.driveLow, .wait 480#32, .release, .wait 70#32, .sample .low, .wait 10#32, .sample .high, .wait 400#32] := by
  decide +kernel

/-- V-OW-3 and V-SLOT-3: STATUS 0x202 after 24 polls, 790 microseconds. -/
theorem test_owReset_short :
    (after (exec .owReset (fresh (List.replicate 25 .low)))).status.word = 0x202#64 ∧
    traceTime (after (exec .owReset (fresh (List.replicate 25 .low)))).bus.trace = 790 := by decide +kernel

/-- V-OW-4: no transaction, trace empty, STATUS 0x9912. -/
theorem test_owWrb_no_transaction : (after (exec (.owWrb 0x33#8) (fresh []))).status.word = 0x9912#64 ∧
    (after (exec (.owWrb 0x33#8) (fresh []))).bus.trace = [] := by decide +kernel

/-- V-SLOT-9: WriteByte(0x04) against a device that answers every check Low: W0 W0 W1!. -/
theorem test_owWrb_contention : (after (exec (.owWrb 0x04#8) (opened [.low]))).status.word = 0x202#64 ∧
    traceTime (after (exec (.owWrb 0x04#8) (opened [.low]))).bus.trace = 205 := by decide +kernel

/-- V-SLOT-10: samples H,L,H,L,L,H,L,H give 0xA5. -/
theorem test_owRdb : (after (exec .owRdb (opened [.high, .low, .high, .low, .low, .high, .low, .high]))).result =
    0xA5#64 := by decide +kernel

/-- What a device of V-OW-7 answers to OW.RDROM: presence, release, four checks, its ROM bits. -/
def romEnv (r : Word) : List Level :=
  [.low, .high, .high, .high, .high, .high] ++ (List.range 64).map fun k => if r.getLsbD k then .high else .low

/-- V-OW-7: ROM is the value read, after 6000 microseconds. -/
theorem test_owRdrom_ok :
    (after (exec .owRdrom (fresh (romEnv 0x9E06050403020128#64)))).rom = 0x9E06050403020128#64 ∧
    traceTime (after (exec .owRdrom (fresh (romEnv 0x9E06050403020128#64)))).bus.trace = 6000 := by decide +kernel

/-- V-OW-9: a flipped bit is CRC. -/
theorem test_owRdrom_crc :
    (after (exec .owRdrom (fresh (romEnv 0x9E06050403020129#64)))).status.word = 0x302#64 := by decide +kernel

/-- V-OW-12: the slots of 0xB4 in the trace, RESULT 0, 1590 microseconds. -/
theorem test_owRdpwr : (after (exec .owRdpwr (fresh [.low, .high, .high, .high, .high, .high, .low]))).result = 0#64 ∧
    traceTime (after (exec .owRdpwr (fresh [.low, .high, .high, .high, .high, .high, .low]))).bus.trace = 1590 := by
  decide +kernel

/-- V-OW-13: the slot reads High, RESULT 1. -/
theorem test_owRdpwr_external :
    (after (exec .owRdpwr (fresh [.low, .high, .high, .high, .high, .high, .high]))).result = 1#64 := by
  decide +kernel

/-! ## Monitor commands -/

/-- R153's example: the tenth sample of ten makes the history ready and wraps the cursor. -/
theorem test_tmRec_wraps :
    (after (exec .tmRec { State.reset with data := 0x404E000000000000#64, fill := 9#16, cursor := 9#16 })).cursor =
      0#16 ∧
    (after (exec .tmRec { State.reset with data := 0x404E000000000000#64, fill := 9#16, cursor := 9#16 })).fill =
      10#16 ∧
    (after (exec .tmRec { State.reset with data := 0x404E000000000000#64, fill := 9#16, cursor := 9#16 })).status.ready
      = true := by decide +kernel

/-- V-TM-1. -/
theorem test_tmRdy : (after (exec .tmRdy State.reset)).result = 0#64 ∧
    (after (exec .tmRdy (full3 0#64 0#64 0#64))).result = 1#64 := by decide +kernel

/-- V-TM-9: slots 1.0, 0.1, 0.1 average to 0.4000000000000001, in slot order. -/
theorem test_tmAvg_order : (after (exec .tmAvg
    (full3 0x3FF0000000000000#64 0x3FB999999999999A#64 0x3FB999999999999A#64))).result = 0x3FD999999999999B#64 := by
  decide +kernel

/-- V-TM-2: not ready, STATUS 0x8812. -/
theorem test_tmAvg_not_ready : (after (exec .tmAvg State.reset)).status.word = 0x8812#64 := by decide +kernel

/-- V-TM-3 and V-TM-11: an average of 60.0 triggers, and so does +infinity, but not when attended. -/
theorem test_tmAlrm : (after (exec (.tmAlrm false)
      (full3 0x404E000000000000#64 0x404E000000000000#64 0x404E000000000000#64))).result = 1#64 ∧
    (after (exec (.tmAlrm true)
      (full3 0x404E000000000000#64 0x404E000000000000#64 0x404E000000000000#64))).result = 0#64 ∧
    (after (exec (.tmAlrm false)
      (full3 0x404E000000000000#64 0x404E000000000000#64 0x7FF0000000000000#64))).result = 1#64 := by decide +kernel

/-- V-TM-10: a NaN average gives NoTrigger. -/
theorem test_tmAlrm_nan : (after (exec (.tmAlrm false)
      (full3 0x404E000000000000#64 0x404E000000000000#64 0x7FF8000000000000#64))).result = 0#64 := by decide +kernel

/-! ## Faults, reset, the cycle-level model -/

/-- V-EX-1: a reserved IMM bit is found before the missing transaction. -/
theorem test_illegal_before_precondition :
    (after (step (host [.write 0 0x0301#64] State.reset))).status.word = 0xAA12#64 := by decide +kernel

/-- V-EX-2: FCAUSE keeps the first fault. -/
theorem test_first_cause : (after (exec (.owWrb 0x33#8) (after (exec .tmAvg State.reset)))).status.word = 0x8912#64 := by
  decide +kernel

/-- V-EX-5: a CMD write while BUSY = 1. -/
theorem test_overrun : (after (step (host [.write 0 0x0100#64] (running 0x0100#16 .resetLow)))).status =
    { Status.reset with busy := true, fault := true, fcause := 0xB#4 } := by decide +kernel

/-- R202: a reset during a low pulse releases the line and records it. -/
theorem test_reset_releases : (after (step { running 0x0100#16 .resetLow with
    pending := [.rst true], bus := { Bus.reset with lineDrv := true, trace := [.driveLow] } })).bus.trace =
    [.driveLow, .release] := by decide +kernel

/-- R200: a command written while `rst` is asserted does nothing to the line. -/
theorem test_reset_held : after (step (held [.write 0 0x0100#64])) = held [] := by decide +kernel

/-- R200: asserted, held over a CMD write, and deasserted, the block is idle with an empty trace. -/
theorem test_reset_sequence :
    after (runSteps 3 (host [.rst true, .write 0 0x0100#64, .rst false] State.reset)) = State.reset := by
  decide +kernel

/-- The word presented to the first step after reset runs. -/
theorem test_withFetchWord : step (State.reset.withFetchWord 16 0x1200) = exec .tmRdy State.reset := rfl

/-- Every row of the opcode table runs as the first command after reset, whatever the bus answers. -/
theorem test_rows_run_after_reset :
    [0x0100, 0x0200, 0x0300, 0x0400, 0x0500, 0x1100, 0x1200, 0x1300, 0x1400].all
      (fun w => isNext (step (State.reset.withFetchWord 16 w))) = true := by decide +kernel

/-! ## Witnesses: states and operands that meet the hypotheses of each obligation -/

/-- Presence with `n` polls Low, then the levels `ls`. -/
def present (n : Nat) (ls : List Level) : List Level := List.replicate (n + 1) .low ++ .high :: ls

/-- A faulted idle block. -/
def faulted : State := { State.reset with status := { Status.reset with fault := true, fcause := 0x8#4 } }

/-- A build whose history has one slot. -/
def oneSlot : State := State.resetWith (withSlots 1#16)

theorem witness_IllFormedBuildIsRefused : ∃ s : State,
    ¬ (1 ≤ s.params.nPresPoll.toNat ∧ s.params.tLow1.toNat < s.params.tSlot.toNat ∧
      s.params.tLow0.toNat < s.params.tSlot.toNat ∧ s.params.tRdl.toNat + s.params.tRds.toNat ≤ s.params.tSlot.toNat ∧
      1 ≤ s.params.histN.toNat ∧ s.params.histN.toNat ≤ 65535) :=
  ⟨State.resetWith { Params.default with tRds := 60#32 }, by decide⟩

theorem witness_ResetGivesTheResetValues : ∃ (p : Params) (s : State), s = State.resetWith p := ⟨withSlots 3#16, _, rfl⟩

theorem witness_HardwareResetAbortsTheCommand :
    (∃ (s : State) (rest : List Event), s.params.WellFormed ∧ s.pending = .rst true :: rest ∧ s.bus.lineDrv = true) ∧
    (∃ (s : State) (rest : List Event), s.params.WellFormed ∧ s.pending = .rst false :: rest ∧ s.rst = true) ∧
    (∃ (s : State) (rest : List Event), s.params.WellFormed ∧ s.pending = .rst false :: rest ∧ s.rst = false) :=
  ⟨⟨{ running 0x0100#16 .resetLow with
      pending := [.rst true, .read 3], bus := { Bus.reset with lineDrv := true } }, [.read 3], by decide⟩,
    ⟨held [.rst false], [], by decide⟩, ⟨host [.rst false] State.reset, [], by decide⟩⟩

theorem witness_HeldResetDoesNothing : (held []).params.WellFormed ∧ (held []).rst = true ∧ (held []).pending = [] ∧
    (held [.elapse]).pending = [.elapse] ∧
    (held [.write 0 0x0100#64]).pending = [.write 0 0x0100#64] := by decide

theorem witness_HostReadHasNoEffect : ∀ i ∈ [0, 1, 2, 3, 4, 5, 6, 7, 8], ∃ (s : State) (rest : List Event),
    s.params.WellFormed ∧ s.pending = .read i :: rest :=
  fun i _ => ⟨host [.read i] State.reset, [], rfl, rfl⟩

theorem witness_HostWriteStoresOnlyData : ∀ i ∈ [1, 2, 7, 8], ∃ (s : State) (v : Word) (rest : List Event),
    s.params.WellFormed ∧ s.rst = false ∧ s.pending = .write i v :: rest ∧ i ≠ 0 := by
  intro i hi
  refine ⟨host [.write i 5#64] State.reset, 5#64, [], rfl, rfl, rfl, ?_⟩
  rintro rfl
  simp at hi

theorem witness_AdaptersPresentRegisters : (56#64).toNat % 8 = 0 ∧ (56#64).toNat / 8 % 8 = 7 := by decide

theorem witness_IdleBlockDoesNothing :
    (∃ s : State, s.params.WellFormed ∧ s.seq.phase = .idle ∧ s.pending = []) ∧
    (∃ s : State, s.params.WellFormed ∧ s.seq.phase = .idle ∧ s.pending = [.elapse]) :=
  ⟨⟨State.reset, by decide⟩, ⟨host [.elapse] State.reset, by decide⟩⟩

theorem witness_WaitDonePollsStatus : ∀ d, ∃ (s : State) (rest : List Event),
    s.params.WellFormed ∧ s.pending = .waitDone :: rest ∧ s.status.done = d :=
  fun d => ⟨{ State.reset with pending := [.waitDone], status := { Status.reset with done := d } }, [], rfl, rfl, rfl⟩

/-- The three kinds of illegal word: an opcode between two legal ones, a reserved IMM bit, IMM[1] of TM.ALRM. -/
theorem witness_IllegalWordOnlyFaults : ∀ v ∈ [0x0600#64, 0xDEAD000000000301#64, 0x1402#64], ∃ s : State,
    s.params.WellFormed ∧ s.rst = false ∧ s.status.busy = false ∧ s.grain = .atomic ∧ s.pending = [.write 0 v] ∧
    (v.toNat / 256 % 256 ∉ [0x01, 0x02, 0x03, 0x04, 0x05, 0x11, 0x12, 0x13, 0x14] ∨
      (v.toNat / 256 % 256 ∈ [0x01, 0x03, 0x04, 0x05, 0x11, 0x12, 0x13] ∧ v.toNat % 256 ≠ 0) ∨
      (v.toNat / 256 % 256 = 0x14 ∧ v.toNat % 256 / 2 ≠ 0)) := by
  intro v hv
  refine ⟨host [.write 0 v] State.reset, rfl, rfl, rfl, rfl, rfl, ?_⟩
  simp only [List.mem_cons, List.not_mem_nil, or_false] at hv
  rcases hv with rfl | rfl | rfl <;> decide +kernel

theorem witness_DecodeFollowsTheOpcodeMap : decode 0x02FF#16 = .ok (.owWrb 0xFF#8) ∧
    ∃ r ∈ opcodeMap, r.matchesWord 0x1401#16 = true := by decide

theorem witness_DecodeAndEncodeAgree : decode 0x0200#16 = .ok (.owWrb 0x00#8) := by decide

theorem witness_AssemblerLines : (AsmLine.command .owWrb (some 255)).wellFormed = true ∧
    (AsmLine.command .tmAlrm (some 1)).wellFormed = true ∧ (AsmLine.command .tmRec none).wellFormed = true := by decide

theorem witness_StepRunsTheDecodedCommand : ∃ (s : State) (v : Word) (i : Instr), s.params.WellFormed ∧ s.rst = false ∧
    s.status.busy = false ∧ s.grain = .atomic ∧ s.pending = [.write 0 v] ∧ decode (v.setWidth 16) = .ok i :=
  ⟨host [.write 0 0xDEAD000000000300#64] State.reset, _, .owRdb, by decide, rfl, rfl, rfl, rfl, by decide⟩

theorem witness_WriteWhileBusyIsOverrun : ∃ (s : State) (v : Word), s.params.WellFormed ∧ s.rst = false ∧ s.status.busy = true ∧
    s.pending = [.write 0 v] :=
  ⟨host [.write 0 0x0000#64] (running 0x0100#16 .resetLow), _, by decide, rfl, rfl, rfl⟩

theorem witness_CycleLevelAcceptance : ∃ (s : State) (v : Word), s.params.WellFormed ∧ s.rst = false ∧ s.status.busy = false ∧
    s.grain = .cycle ∧ s.pending = [.write 0 v] :=
  ⟨{ State.reset with grain := .cycle, pending := [.write 0 0x0400#64] }, _, by decide, rfl, rfl, rfl, rfl⟩

theorem witness_FirstFaultStays : ∃ s t : State, step s = .next t ∧ s.noReset ∧
    s.status.fault = true :=
  ⟨host [.write 0 0x0000#64] faulted, _, next_after (by decide +kernel), nofun, rfl⟩

theorem witness_FaultingCommandWritesOnlyStatus : ∀ i ∈ [Instr.tmAvg, .owRdb, .owWrb 0x33#8], ∃ s t : State,
    exec i s = .next t ∧ 0x8#4 ≤ t.status.err := by
  intro i hi
  simp only [List.mem_cons, List.not_mem_nil, or_false] at hi
  rcases hi with rfl | rfl | rfl
  · exact ⟨faulted, _, next_after (by decide +kernel), by decide +kernel⟩
  · exact ⟨State.reset, _, next_after (by decide +kernel), by decide +kernel⟩
  · exact ⟨State.reset, _, next_after (by decide +kernel), by decide +kernel⟩

theorem witness_ProtocolErrorIsPrecise : ∃ (s t : State), exec .owReset s = .next t ∧ t.status.err ≠ 0x0#4 ∧
    t.status.err < 0x8#4 :=
  ⟨fresh [.high], after (exec .owReset (fresh [.high])), next_after (by decide +kernel), by decide +kernel, by decide +kernel⟩

theorem witness_ResultIsWrittenOnlyOnOk : ∃ (s t : State), exec .owReset s = .next t ∧ t.status.err ≠ 0x0#4 :=
  ⟨fresh [.high], after (exec .owReset (fresh [.high])), next_after (by decide +kernel), by decide +kernel⟩

theorem witness_RunningCommandShowsNothing : ∃ s t : State, s.pending = [] ∧ s.status.busy = true ∧
    step s = .next t ∧ t.status.busy = true :=
  ⟨running 0x0100#16 .dispatch, after (step (running 0x0100#16 .dispatch)), rfl, rfl,
    next_after (by decide +kernel), by decide +kernel⟩

theorem witness_RecordTakesTheLatchedData : ∃ (s : State) (v w : Word), s.params.WellFormed ∧ s.rst = false ∧
    s.status.busy = false ∧ s.grain = .cycle ∧ v.setWidth 16 = 0x1100#16 ∧
    s.pending = [.write 0 v, .write 1 w, .elapse] :=
  ⟨{ State.reset with grain := .cycle, pending := [.write 0 0x1100#64, .write 1 7#64, .elapse] }, _, _,
    by decide, rfl, rfl, rfl, by decide, rfl⟩

theorem witness_WaitCountsEveryTick : ∃ (s : State) (k : Nat), s.params.WellFormed ∧ s.rst = false ∧ s.pending = [] ∧
    s.seq.phase.waits = true ∧ k ≤ s.bus.timer.toNat :=
  ⟨{ running 0x0100#16 .resetLow with bus := { Bus.reset with timer := 480#32 } }, 480, by decide⟩

theorem witness_CompletedSlotDuration : ∃ (p : Params) (b : Bus), p.WellFormed ∧ (writeSlot1 p b).1 = .ok () :=
  ⟨Params.default, (fresh [.high]).bus, by decide, rfl⟩

theorem witness_SamplesPerMicroOperation : ∃ b1 b2 b3 : Bus,
    (resetPulse Params.default b1).1 = .error .noPresence ∧
    b2.answersPresence Params.default 0 ∧
    (resetPulse { Params.default with nPresPoll := 1#32 } b3).1 = .error .busContention :=
  ⟨(fresh [.high]).bus, (fresh [.low, .high]).bus, (fresh [.low, .low]).bus, rfl,
    ⟨by decide, by decide, by decide⟩, rfl⟩

theorem witness_ReadsAreLeastSignificantFirst : (7 : Nat) < 8 ∧ (63 : Nat) < 64 := by decide

theorem witness_SingleBitErrorIsCrc : validateRom Params.default 0x9E06050403020128#64 = .ok () ∧ 63 < 64 := by
  decide +kernel

/-- Presence at the first poll and at the last one, no presence, and a line held low. -/
theorem witness_OwResetRule : State.reset.params.WellFormed ∧ (fresh [.high]).bus.answer 0 = .high ∧
    (fresh (present 0 [])).bus.answersPresence Params.default 0 ∧
    (fresh (present 23 [])).bus.answersPresence Params.default 23 ∧
    (fresh (List.replicate 25 .low)).bus.answersStuckLow Params.default :=
  ⟨by decide, by decide, ⟨by decide, by decide, by decide⟩, ⟨by decide, by decide, by decide⟩,
    by unfold Bus.answersStuckLow; decide⟩

/-- All checks High, a failure at bit 0 and one at bit 7. -/
theorem witness_OwWrbRule : (fresh []).status.txn = false ∧ (opened []).status.txn = true ∧
    (opened (List.replicate 8 .high)).bus.answersHigh 0 (checksOf 0xFF#8 (List.range 8)) ∧
    ((0x01#8).getLsbD 0 = true ∧ (opened [.low]).bus.answersHigh 0 (checksOf 0x01#8 (List.range 0)) ∧
      (opened [.low]).bus.answer (checksOf 0x01#8 (List.range 0)) = .low) ∧
    ((0x81#8).getLsbD 7 = true ∧ (opened [.high, .low]).bus.answersHigh 0 (checksOf 0x81#8 (List.range 7)) ∧
      (opened [.high, .low]).bus.answer (checksOf 0x81#8 (List.range 7)) = .low) := by
  unfold Bus.answersHigh
  decide

theorem witness_OwRdbRule : (fresh []).status.txn = false ∧ (opened (levelsOfByte 0xA5#8)).status.txn = true ∧
    (opened (levelsOfByte 0xA5#8)).bus.answersLevels 0 (levelsOfByte 0xA5#8) := by
  unfold Bus.answersLevels
  decide

theorem witness_ResetFailureEndsReadCommands : (fresh [.high]).bus.answer 0 = .high ∧
    (fresh (List.replicate 25 .low)).bus.answersStuckLow Params.default :=
  ⟨by decide, by unfold Bus.answersStuckLow; decide⟩

/-- CMD_READ_ROM = 0x33 failing at its first bit, CMD_READ_POWER = 0xB4 at its last. -/
theorem witness_CommandByteFailureEndsReadCommands :
    (fresh (present 0 [.low])).bus.answersPresence Params.default 0 ∧
    (0x33#8).getLsbD 0 = true ∧
    (fresh (present 0 [.low])).bus.answersHigh 2 (checksOf 0x33#8 (List.range 0)) ∧
    (fresh (present 0 [.low])).bus.answer (2 + checksOf 0x33#8 (List.range 0)) = .low ∧
    (0xB4#8).getLsbD 7 = true ∧
    (fresh (present 0 [.high, .high, .high, .low])).bus.answersPresence Params.default 0 ∧
    (fresh (present 0 [.high, .high, .high, .low])).bus.answersHigh 2 (checksOf 0xB4#8 (List.range 7)) ∧
    (fresh (present 0 [.high, .high, .high, .low])).bus.answer (2 + checksOf 0xB4#8 (List.range 7)) = .low := by
  unfold Bus.answersPresence Bus.answersHigh
  decide

/-- A valid ROM, one of another family, and one with a flipped bit. -/
theorem witness_OwRdromRule : (∀ r ∈ [0x9E06050403020128#64, 0x7B06050403020110#64, 0x9E06050403020129#64],
      (fresh (romEnv r)).bus.answersPresence Params.default 0 ∧
      (fresh (romEnv r)).bus.answersHigh 2 (checksOf 0x33#8 (List.range 8)) ∧
      (fresh (romEnv r)).bus.answersLevels (2 + checksOf 0x33#8 (List.range 8)) (levelsOfRom r)) ∧
    crc8 (romPayload 0x9E06050403020128#64) = (0x9E06050403020128#64).extractLsb' 56 8 ∧
    crc8 (romPayload 0x7B06050403020110#64) = (0x7B06050403020110#64).extractLsb' 56 8 ∧
    (0x7B06050403020110#64).extractLsb' 0 8 ≠ Params.default.familyCode ∧
    crc8 (romPayload 0x9E06050403020129#64) ≠ (0x9E06050403020129#64).extractLsb' 56 8 := by
  unfold Bus.answersPresence Bus.answersHigh Bus.answersLevels
  simp only [List.forall_mem_cons, List.not_mem_nil, false_imp_iff, implies_true, and_true]
  decide +kernel

theorem witness_OwRdpwrRule : ∀ l, (fresh (present 0 [.high, .high, .high, .high, l])).bus.answersPresence Params.default 0 ∧
    (fresh (present 0 [.high, .high, .high, .high, l])).bus.answersHigh 2 (checksOf 0xB4#8 (List.range 8)) ∧
    l = (fresh (present 0 [.high, .high, .high, .high, l])).bus.answer (2 + checksOf 0xB4#8 (List.range 8)) := by
  intro l
  unfold Bus.answersPresence Bus.answersHigh
  cases l <;> decide

/-- In the atomic model, and at the end of the recovery wait in the cycle-level one. -/
theorem witness_OnlyOwResetOpensATransaction :
    (∃ s t : State, step s = .next t ∧ s.status.txn = false ∧ t.status.txn = true) ∧
    (∃ s t : State, step s = .next t ∧ s.status.txn = false ∧ t.status.txn = true ∧ s.seq.phase = .resetRecovery) :=
  ⟨⟨host [.write 0 0x0100#64] (fresh [.low, .high]), after (step (host [.write 0 0x0100#64] (fresh [.low, .high]))),
      next_after (by decide +kernel), rfl, by decide +kernel⟩,
    ⟨running 0x0100#16 .resetRecovery, after (step (running 0x0100#16 .resetRecovery)),
      next_after (by decide +kernel), rfl, by decide +kernel, rfl⟩⟩

theorem witness_CommandTimeIsBounded : ∃ s t : State, exec .owReset s = .next t :=
  ⟨fresh [.high], after (exec .owReset (fresh [.high])), next_after (by decide +kernel)⟩

/-- The conditions of the monitor's statements: one slot, an unready and a full history. -/
theorem witness_MonitorRules : oneSlot.params.WellFormed ∧ State.reset.fill ≠ State.reset.params.histN ∧
    (∃ vs : List Word, (full3 0#64 1#64 2#64).fill = (full3 0#64 1#64 2#64).params.histN ∧
      vs.length = (full3 0#64 1#64 2#64).params.histN.toNat ∧ (full3 0#64 1#64 2#64).slots = vs.map some) ∧
    (full3 0#64 1#64 2#64).params.WellFormed :=
  ⟨by decide, by decide, ⟨[0#64, 1#64, 2#64], by decide, by decide, rfl⟩, by decide⟩

/-- Averages that are a number and a NaN. -/
theorem witness_TmAvgRule :
    F64.isNaN (F64.div ([0#64, 0#64, 0#64].foldl F64.add 0#64) (F64.ofNat 3)) = false ∧
    F64.isNaN (F64.div ([0#64, F64.quietNaN, 0#64].foldl F64.add 0#64) (F64.ofNat 3)) = true := by decide +kernel

theorem witness_HistoryHoldsTheMostRecent : (withSlots 1#16).WellFormed ∧ [5#64, 6#64][1]? = some 6#64 ∧
    [5#64, 6#64].length ≤ 1 + (withSlots 1#16).histN.toNat := by decide

/-- Histories with a NaN, with both infinities, and with one infinity among samples of its sign. -/
theorem witness_AverageCornerCases : (∃ v ∈ [0#64, F64.quietNaN], F64.isNaN v = true) ∧
    (0x7FF0000000000000#64 ∈ [0x7FF0000000000000#64, 0xFFF0000000000000#64] ∧
      0xFFF0000000000000#64 ∈ [0x7FF0000000000000#64, 0xFFF0000000000000#64]) ∧ 1 ≤ 65535 ∧ 65535 ≤ 65535 ∧
    (∀ v ∈ [0x404E000000000000#64, 0x7FF0000000000000#64], F64.isNaN v = false ∧ F64.sign v = false) ∧
    (∀ v ∈ [0x8000000000000000#64, 0xFFF0000000000000#64], F64.isNaN v = false ∧ F64.sign v = true) := by
  simp only [List.forall_mem_cons, List.not_mem_nil, false_imp_iff, implies_true, and_true, List.exists_mem_cons_iff]
  decide +kernel

/-- Operands of each kind: an infinity of either sign, a zero, a NaN, and the greatest integers below 2^53. -/
theorem witness_Infinities : F64.magBits 0x7FF0000000000000#64 = F64.infBits ∧
    F64.magBits 0xFFF0000000000000#64 = F64.infBits ∧
    F64.sign 0x7FF0000000000000#64 ≠ F64.sign 0xFFF0000000000000#64 ∧ F64.magBits 0x8000000000000000#64 = 0 ∧
    F64.infBits < F64.magBits F64.quietNaN ∧ 2 ^ 53 - 1 < 2 ^ 53 := by decide +kernel

/-- The check value's exact conversion: 10 is 0x4024000000000000. -/
theorem test_ofNat : F64.ofNat 10 = 0x4024000000000000#64 := by decide +kernel

theorem witness_Rounding : 0 < 3 ∧ F64.magBits 0x404E000000000000#64 < F64.infBits ∧
    F64.magBits 0xC04E000000000000#64 < F64.infBits ∧ F64.magBits 0xC04E000000000000#64 ≠ 0 ∧
    F64.valueOf 0x404E000000000000#64 + F64.valueOf 0xC04E000000000000#64 = 0 ∧
    F64.valueOf 0x404E000000000000#64 + F64.valueOf 0#64 ≠ 0 := by decide +kernel

/-- The state after reset meets the invariant. -/
theorem reset_inv : State.reset.Inv where
  build := by decide
  slotCount := rfl
  fillBound := by decide
  cursorBound := by decide
  cursorFill := fun _ => rfl
  written := fun i hi => absurd hi (Nat.not_lt_zero i)
  unwritten := by
    intro i _ hi
    have : i < 10 := hi
    interval_cases i <;> rfl
  ready := by decide
  romValid := fun h => absurd h (by decide)
  romZero := fun _ => rfl
  causeZero := fun _ => rfl
  causeCode := fun h => absurd h (by decide)
  errCode := by decide
  busyPhase := rfl
  busyDone := fun h => absurd h (by decide)
  lineLow := rfl
  held := fun h => absurd h (by decide)
  traceLine := rfl
  sequence := trivial

theorem witness_Invariant : ∃ s t : State, s.Inv ∧ step s = .next t ∧ s.noReset :=
  ⟨State.reset, State.reset, reset_inv, rfl, nofun⟩

/-- Each change that a state may undergo happens: DATA, the history in either model, ROM. -/
theorem witness_StateChangesOnlyByItsWriters :
    (∃ s t : State, step s = .next t ∧ s.noReset ∧ t.data ≠ s.data) ∧
    (∃ s t : State, step s = .next t ∧ s.noReset ∧ t.fill ≠ s.fill) ∧
    (∃ s t : State, step s = .next t ∧ s.noReset ∧ t.fill ≠ s.fill ∧ s.seq.phase = .dispatch) :=
  ⟨⟨host [.write 1 5#64] State.reset, after (step (host [.write 1 5#64] State.reset)),
      next_after (by decide +kernel),
      nofun, by decide +kernel⟩,
    ⟨host [.write 0 0x1100#64] State.reset, after (step (host [.write 0 0x1100#64] State.reset)),
      next_after (by decide +kernel),
      nofun, by decide +kernel⟩,
    ⟨running 0x1100#16 .dispatch, after (step (running 0x1100#16 .dispatch)), next_after (by decide +kernel),
      nofun,
      by decide +kernel, rfl⟩⟩

theorem witness_RomChangesOnlyToAValidatedValue : ∃ s t : State, step s = .next t ∧
    s.noReset ∧ t.rom ≠ s.rom :=
  ⟨{ running 0x0400#16 .validate with
      seq := { (running 0x0400#16 .validate).seq with romacc := 0x9E06050403020128#64 } },
    after (step { running 0x0400#16 .validate with
      seq := { (running 0x0400#16 .validate).seq with romacc := 0x9E06050403020128#64 } }),
    next_after (by decide +kernel),
      nofun, by decide +kernel⟩

theorem witness_ContractKeepsTheRunUnfaulted : ∃ s t : State, s.onContract ∧
    (∀ e ∈ s.pending.head?, e.keepsContract s = true) ∧ step s = .next t :=
  ⟨host [.write 0 0x0300#64] (opened (levelsOfByte 0xA5#8)),
    after (step (host [.write 0 0x0300#64] (opened (levelsOfByte 0xA5#8)))), ⟨rfl, fun h => absurd h (by decide)⟩,
    by decide, next_after (by decide +kernel)⟩

theorem witness_HiddenFieldsAreNeverRead :
    (∃ (q : Sequencer) (t : State), q ≠ Sequencer.idle ∧ exec .tmRdy State.reset = .next t) ∧
    (∃ (s : State) (q : Sequencer) (t : State), q.phase = s.seq.phase ∧ s.seq.phase = .idle ∧
      q ≠ s.seq ∧ runSteps 1 s = .next t) ∧
    (∃ (s : State) (q : Sequencer) (t : State), q.phase = s.seq.phase ∧ s.seq.phase = .dispatch ∧
      q.cmd = s.seq.cmd ∧ q.sample = s.seq.sample ∧ q ≠ s.seq ∧ runSteps 1 s = .next t) :=
  ⟨⟨{ Sequencer.idle with shift := 0xFF#8 }, _, by decide, next_after (by decide +kernel)⟩,
    ⟨State.reset, { Sequencer.idle with shift := 0xFF#8 }, State.reset, rfl, rfl, by decide, rfl⟩,
    ⟨running 0x0400#16 .dispatch, { (running 0x0400#16 .dispatch).seq with pollcnt := 7#32 }, _, rfl, rfl, rfl, rfl,
      by decide, next_after (by decide +kernel)⟩⟩

theorem witness_SequencerRefinesTheAtomicCommand : State.reset.params.WellFormed ∧ State.reset.rst = false ∧ State.reset.pending = [] ∧
    State.reset.status.busy = false := by decide

end Sys2Proof.Tests
end

section
/-! PROOFS. Binary64 rounding as a choice between two neighbouring magnitudes (00_scope.md R18), the
equations of `f64_add`, `f64_div` and `f64_of_nat` by kinds of operands, and the refusal of ill-formed builds (R13). -/

namespace Sys2Proof.Machine.F64

/-! ## Exact values of magnitudes -/

theorem unitsOfMag_lt_iff {m n : Nat} : unitsOfMag m < unitsOfMag n ↔ m < n := unitsOfMag_strictMono.lt_iff_lt

theorem unitsOfMag_le_iff {m n : Nat} : unitsOfMag m ≤ unitsOfMag n ↔ m ≤ n := unitsOfMag_strictMono.le_iff_le

@[simp] theorem unitsOfMag_zero : unitsOfMag 0 = 0 := rfl

@[simp] theorem unitsOfMag_eq_zero_iff {m : Nat} : unitsOfMag m = 0 ↔ m = 0 :=
  unitsOfMag_strictMono.injective.eq_iff' unitsOfMag_zero

/-- The value of a significand `s` scaled by `2^k`. A significand of 2^53 stands for the first value of the next
binade, and `k = 0` covers the subnormals. -/
theorem unitsOfMag_scaled {k s : Nat} (hlo : k = 0 ∨ 2 ^ 52 ≤ s) (hhi : s ≤ 2 ^ 53) :
    unitsOfMag (k * 2 ^ 52 + s) = s * 2 ^ k := by
  unfold unitsOfMag
  obtain hsub | hnorm | hcarry : s < 2 ^ 52 ∨ 2 ^ 52 ≤ s ∧ s < 2 ^ 53 ∨ s = 2 ^ 53 := by omega
  · obtain rfl : k = 0 := by omega
    rw [if_pos (by omega), Nat.mod_eq_of_lt (by omega)]
    omega
  · rw [show (k * 2 ^ 52 + s) / 2 ^ 52 = k + 1 by omega, show (k * 2 ^ 52 + s) % 2 ^ 52 = s - 2 ^ 52 by omega,
      if_neg (by omega), Nat.add_sub_cancel, Nat.add_sub_cancel' hnorm.1]
  · rw [show (k * 2 ^ 52 + s) / 2 ^ 52 = k + 2 by omega, show (k * 2 ^ 52 + s) % 2 ^ 52 = 0 by omega,
      if_neg (by omega), hcarry, Nat.add_zero, show k + 2 - 1 = k + 1 by omega, Nat.pow_succ 2 k, Nat.pow_succ 2 52]
    ring

/-- Every significand of at most 53 bits, scaled by a power of two, is the value of a magnitude: shifting it up to 53
bits, or by `k` where that comes first, keeps the value. -/
theorem exists_unitsOfMag_eq {n : Nat} (hn : n < 2 ^ 53) (k : Nat) :
    ∃ m < (k + 2) * 2 ^ 52, unitsOfMag m = n * 2 ^ k := by
  induction k generalizing n with
  | zero => exact ⟨0 * 2 ^ 52 + n, by omega, unitsOfMag_scaled (.inl rfl) hn.le⟩
  | succ k ih =>
    by_cases hfull : 2 ^ 52 ≤ n
    · exact ⟨(k + 1) * 2 ^ 52 + n, by omega, unitsOfMag_scaled (.inr hfull) hn.le⟩
    · obtain ⟨m, hm, hval⟩ := ih (n := 2 * n) (by omega)
      refine ⟨m, hm.trans_le (Nat.mul_le_mul_right _ (by omega)), ?_⟩
      rw [hval, Nat.pow_succ]
      ring

/-! ## Rounding picks the nearer neighbour -/

/-- The magnitude at or below a quotient of integer part `q`: its bits beyond a significand are cut off. -/
def magBelow (q : Nat) : Nat := excess q * 2 ^ 52 + q / 2 ^ excess q

/-- What is cut to 53 bits is a whole significand, unless nothing was cut. -/
theorem significand_bounds (q : Nat) :
    (excess q = 0 ∨ 2 ^ 52 ≤ q / 2 ^ excess q) ∧ q / 2 ^ excess q < 2 ^ 53 := by
  have hlt : q < 2 ^ 53 * 2 ^ excess q := by
    rw [← Nat.pow_add]
    exact Nat.lt_log2_self.trans_le (Nat.pow_le_pow_right (by omega) (by unfold excess; omega))
  refine ⟨?_, Nat.div_lt_of_lt_mul (by rwa [Nat.mul_comm])⟩
  by_cases hk : excess q = 0
  · exact .inl hk
  · have hq : q ≠ 0 := by rintro rfl; exact hk (by decide)
    refine .inr ((Nat.le_div_iff_mul_le (Nat.two_pow_pos _)).2 ?_)
    rw [← Nat.pow_add]
    exact (Nat.pow_le_pow_right (by omega) (by unfold excess at *; omega)).trans (Nat.log2_self_le hq)

theorem unitsOfMag_magBelow (q : Nat) : unitsOfMag (magBelow q) = q / 2 ^ excess q * 2 ^ excess q :=
  unitsOfMag_scaled (significand_bounds q).1 (significand_bounds q).2.le

theorem unitsOfMag_magBelow_succ (q : Nat) :
    unitsOfMag (magBelow q + 1) = (q / 2 ^ excess q + 1) * 2 ^ excess q := by
  obtain ⟨hlo, hhi⟩ := significand_bounds q
  rw [magBelow, Nat.add_assoc, unitsOfMag_scaled (hlo.imp_right Nat.le_succ_of_le) hhi]

/-- `m` is the one of the two neighbours `lo` and `lo + 1` of `num / den` that is nearer, and the even one if they
are equally near. -/
def IsNearerNeighbour (num den lo m : Nat) : Prop :=
  unitsOfMag lo * den ≤ num ∧ num < unitsOfMag (lo + 1) * den ∧
  ((m = lo ∧ 2 * num ≤ unitsOfMag lo * den + unitsOfMag (lo + 1) * den) ∨
    (m = lo + 1 ∧ unitsOfMag lo * den + unitsOfMag (lo + 1) * den ≤ 2 * num)) ∧
  (2 * num = unitsOfMag lo * den + unitsOfMag (lo + 1) * den → m % 2 = 0)

/-- A neighbour is at least as near as every magnitude beyond it: the values are in the order of the bits. -/
theorem IsNearerNeighbour.nearest {num den lo m : Nat} (hden : 0 < den) (h : IsNearerNeighbour num den lo m)
    (m' : Nat) : distance num den m ≤ distance num den m' ∧
      (distance num den m = distance num den m' → m' ≠ m → m % 2 = 0) := by
  obtain ⟨hlo, hhi, hm, heven⟩ := h
  have hbelow : m' < lo → unitsOfMag m' * den < unitsOfMag lo * den := fun h =>
    Nat.mul_lt_mul_of_pos_right (unitsOfMag_strictMono h) hden
  have habove : lo + 1 < m' → unitsOfMag (lo + 1) * den < unitsOfMag m' * den := fun h =>
    Nat.mul_lt_mul_of_pos_right (unitsOfMag_strictMono h) hden
  have hatlo : m' = lo → unitsOfMag m' * den = unitsOfMag lo * den := fun h => h ▸ rfl
  have hathi : m' = lo + 1 → unitsOfMag m' * den = unitsOfMag (lo + 1) * den := fun h => h ▸ rfl
  unfold distance
  obtain ⟨rfl, hnear⟩ | ⟨rfl, hnear⟩ := hm
  · omega
  · omega

/-- The magnitude that rounding gives before what is too large becomes infinity. -/
def unboundedRound (num den : Nat) : Nat :=
  excess (num / den) * 2 ^ 52 + roundHalfEven num (den * 2 ^ excess (num / den))

/-- With `f` and `r` the quotient and the remainder by `den * 2^k`, the neighbours stand at `f` and `f + 1` of these
steps, and `roundHalfEven` compares `2 * r` with a step. -/
theorem unboundedRound_isNearerNeighbour (num : Nat) {den : Nat} (hden : 0 < den) :
    IsNearerNeighbour num den (magBelow (num / den)) (unboundedRound num den) := by
  unfold IsNearerNeighbour
  rw [unitsOfMag_magBelow, unitsOfMag_magBelow_succ, unboundedRound, magBelow, roundHalfEven, Nat.div_div_eq_div_mul]
  generalize excess (num / den) = k
  have hpos : 0 < den * 2 ^ k := Nat.mul_pos hden (Nat.two_pow_pos k)
  have hdiv := Nat.div_add_mod num (den * 2 ^ k)
  have hmod := Nat.mod_lt num hpos
  generalize num / (den * 2 ^ k) = f at *
  generalize num % (den * 2 ^ k) = r at *
  have hA : f * 2 ^ k * den = den * 2 ^ k * f := by ring
  have hB : (f + 1) * 2 ^ k * den = den * 2 ^ k * f + den * 2 ^ k := by ring
  rw [hA, hB]
  generalize den * 2 ^ k * f = F at *
  generalize den * 2 ^ k = D at *
  split <;> omega

/-! ## What is too large -/

theorem roundMag_eq_min (num den : Nat) : roundMag num den = min (unboundedRound num den) infBits := rfl

/-- Below infinity's value the rounding needs no bound. -/
theorem IsNearerNeighbour.le_infBits {num den lo m : Nat} (h : IsNearerNeighbour num den lo m)
    (hnum : num < unitsOfMag infBits * den) : m ≤ infBits := by
  obtain ⟨hlo, -, hm, -⟩ := h
  have : lo < infBits := unitsOfMag_lt_iff.1 (Nat.lt_of_mul_lt_mul_right (hlo.trans_lt hnum))
  omega

/-- From infinity's value on the rounding is bounded. -/
theorem IsNearerNeighbour.infBits_le {num den lo m : Nat} (h : IsNearerNeighbour num den lo m)
    (hnum : unitsOfMag infBits * den ≤ num) : infBits ≤ m := by
  obtain ⟨-, hhi, hm, -⟩ := h
  have : infBits < lo + 1 := unitsOfMag_lt_iff.1 (Nat.lt_of_mul_lt_mul_right (hnum.trans_lt hhi))
  omega

theorem roundMag_isNearest (num : Nat) {den : Nat} (hden : 0 < den) : isNearest num den (roundMag num den) := by
  have h := unboundedRound_isNearerNeighbour num hden
  rw [roundMag_eq_min]
  refine ⟨Nat.min_le_right _ _, fun hnum m' _ => ?_, fun hnum => Nat.min_eq_right (h.infBits_le hnum)⟩
  rw [Nat.min_eq_left (h.le_infBits hnum)]
  exact h.nearest hden m'

/-- A quotient that is the value of a magnitude is rounded to it. -/
theorem roundMag_unitsOfMag {m den : Nat} (hm : m < infBits) (hden : 0 < den) :
    roundMag (unitsOfMag m * den) den = m := by
  have hnum : unitsOfMag m * den < unitsOfMag infBits * den :=
    Nat.mul_lt_mul_of_pos_right (unitsOfMag_strictMono hm) hden
  have hd := ((roundMag_isNearest (unitsOfMag m * den) hden).2.1 hnum m hm.le).1
  have heq : unitsOfMag m * den = unitsOfMag (roundMag (unitsOfMag m * den) den) * den := by
    unfold distance at hd
    omega
  exact (unitsOfMag_strictMono.injective (Nat.mul_right_cancel hden heq)).symm

@[simp] theorem roundMag_zero {den : Nat} (hden : 0 < den) : roundMag 0 den = 0 := by
  simpa using roundMag_unitsOfMag (m := 0) (by decide) hden

/-! ## Kinds of operands -/

@[simp] theorem magBits_pack_zero (neg : Bool) : magBits (pack neg 0) = 0 := magBits_pack neg (by decide)

@[simp] theorem magBits_pack_infBits (neg : Bool) : magBits (pack neg infBits) = infBits := magBits_pack neg (by decide)

theorem isNaN_iff {x : Word} : isNaN x = true ↔ infBits < magBits x := decide_eq_true_iff

theorem isNaN_of_le {x : Word} (h : magBits x ≤ infBits) : isNaN x = false := by simp [isNaN, h]

theorem isInf_iff {x : Word} : isInf x = true ↔ magBits x = infBits := beq_iff_eq

theorem isInf_of_lt {x : Word} (h : magBits x < infBits) : isInf x = false := by simp [isInf, h.ne]

/-! ## The operations, one equation for each kind of operands -/

section
variable {a b : Word}

/-- Finite operands: the exact sum rounded, with its sign; an exact zero has the sign both operands share. -/
theorem add_finite (ha : magBits a < infBits) (hb : magBits b < infBits) :
    add a b = pack (if valueOf a + valueOf b = 0 then sign a && sign b else decide (valueOf a + valueOf b < 0))
      (roundMag (valueOf a + valueOf b).natAbs 1) := by
  simp only [add, isNaN_of_le ha.le, isNaN_of_le hb.le, isInf_of_lt ha, isInf_of_lt hb]
  by_cases hv : valueOf a + valueOf b = 0
  · simp [hv]
  · simp [hv]

theorem add_inf_finite (ha : magBits a = infBits) (hb : magBits b < infBits) : add a b = a := by
  simp [add, isNaN_of_le ha.le, isNaN_of_le hb.le, isInf_iff.2 ha, isInf_of_lt hb]

theorem add_finite_inf (ha : magBits a < infBits) (hb : magBits b = infBits) : add a b = b := by
  simp [add, isNaN_of_le ha.le, isNaN_of_le hb.le, isInf_of_lt ha, isInf_iff.2 hb]

theorem add_inf_same (ha : magBits a = infBits) (hb : magBits b = infBits) (hs : sign a = sign b) : add a b = a := by
  simp [add, isNaN_of_le ha.le, isNaN_of_le hb.le, isInf_iff.2 ha, hs]

/-- A finite operand by a finite nonzero one: the exact quotient rounded. -/
theorem div_finite (ha : magBits a < infBits) (hb : magBits b < infBits) (h0 : magBits b ≠ 0) :
    div a b = pack (sign a != sign b) (roundMag (unitsOfMag (magBits a) * 2 ^ 1074) (unitsOfMag (magBits b))) := by
  simp only [div, isNaN_of_le ha.le, isNaN_of_le hb.le, isInf_of_lt ha, isInf_of_lt hb, h0, Bool.or_self,
    Bool.false_eq_true, if_false]

theorem div_inf_finite (ha : magBits a = infBits) (hb : magBits b < infBits) :
    div a b = pack (sign a != sign b) infBits := by
  simp [div, isNaN_of_le ha.le, isNaN_of_le hb.le, isInf_iff.2 ha, isInf_of_lt hb]

theorem div_finite_inf (ha : magBits a < infBits) (hb : magBits b = infBits) :
    div a b = pack (sign a != sign b) 0 := by
  simp [div, isNaN_of_le ha.le, isNaN_of_le hb.le, isInf_of_lt ha, isInf_iff.2 hb]

theorem div_finite_zero (ha : magBits a < infBits) (h0 : magBits a ≠ 0) (hb : magBits b = 0) :
    div a b = pack (sign a != sign b) infBits := by
  have hb' : magBits b < infBits := hb ▸ by decide
  simp [div, isNaN_of_le ha.le, isNaN_of_le hb'.le, isInf_of_lt ha, isInf_of_lt hb', hb, h0]

theorem div_inf_inf (ha : magBits a = infBits) (hb : magBits b = infBits) : div a b = quietNaN := by
  simp [div, isNaN_of_le ha.le, isNaN_of_le hb.le, isInf_iff.2 ha, isInf_iff.2 hb]

theorem div_zero_zero (ha : magBits a = 0) (hb : magBits b = 0) : div a b = quietNaN := by
  have ha' : magBits a < infBits := ha ▸ by decide
  have hb' : magBits b < infBits := hb ▸ by decide
  simp [div, isNaN_of_le ha'.le, isNaN_of_le hb'.le, isInf_of_lt ha', isInf_of_lt hb', ha, hb]

end

/-- An integer below 2^53 is the value of a finite magnitude, so its conversion is exact. -/
theorem ofNat_exact {n : Nat} (hn : n < 2 ^ 53) :
    ∃ m < infBits, unitsOfMag m = n * 2 ^ 1074 ∧ ofNat n = pack false m := by
  obtain ⟨m, hm, hval⟩ := exists_unitsOfMag_eq hn 1074
  have hfin : m < infBits := hm.trans_le (by decide)
  have hround := roundMag_unitsOfMag hfin Nat.one_pos
  rw [hval, Nat.mul_one] at hround
  exact ⟨m, hfin, hval, by rw [ofNat, hround]⟩

/-! ## Order -/

/-- The values are in the order of the keys: magnitudes are in the order of their bits, and both signs of zero have
the value 0. -/
theorem valueOf_le_iff (a b : Word) : valueOf b ≤ valueOf a ↔ orderKey b ≤ orderKey a := by
  have hle := unitsOfMag_le_iff (m := magBits a) (n := magBits b)
  have hge := unitsOfMag_le_iff (m := magBits b) (n := magBits a)
  have ha0 := unitsOfMag_eq_zero_iff (m := magBits a)
  have hb0 := unitsOfMag_eq_zero_iff (m := magBits b)
  unfold valueOf orderKey
  split <;> split <;> omega

/-! ## The statements -/

/-- Settles O49: the rounding is the nearer of the two neighbours of the exact quotient. -/
theorem roundingIsToNearestEven : Obligations.RoundingIsToNearestEven :=
  fun num _ hden => roundMag_isNearest num hden

/-- Settles O50, by the equation of `f64_add` for each kind of operands. -/
theorem addRoundsTheExactSum : Obligations.AddRoundsTheExactSum := by
  intro a b
  refine ⟨fun ha hb => ?_, fun ha hb => ⟨add_inf_finite ha hb, add_finite_inf hb ha⟩,
    fun ha hb => ⟨add_inf_same ha hb, fun hs => ?_⟩, fun hnan => ?_⟩
  · rw [add_finite ha hb, magBits_pack_roundMag, sign_pack]
    exact ⟨roundMag_isNearest _ Nat.one_pos, fun hv => if_neg hv, fun hv => if_pos hv⟩
  · rw [add_inf_opposite (isInf_iff.2 ha) (isInf_iff.2 hb) hs, isNaN_quietNaN]
  · rw [add_nan (hnan.imp isNaN_iff.2 isNaN_iff.2), isNaN_quietNaN]

/-- Settles O51, by the equation of `f64_div` for each kind of operands and the exact conversion of `f64_of_nat`. -/
theorem divRoundsTheExactQuotient : Obligations.DivRoundsTheExactQuotient := by
  refine ⟨fun a b => ⟨fun ha hb h0 => ?_, ?_, fun ha hb => ?_, ?_⟩, fun n hn => ?_⟩
  · rw [div_finite ha hb h0, magBits_pack_roundMag, sign_pack]
    exact ⟨roundMag_isNearest _ (Nat.pos_of_ne_zero (mt unitsOfMag_eq_zero_iff.1 h0)), rfl⟩
  · rintro (⟨ha, hb⟩ | ⟨ha, h0, hb⟩)
    · simp [div_inf_finite ha hb]
    · simp [div_finite_zero ha h0 hb]
  · simp [div_finite_inf ha hb]
  · rintro (⟨ha, hb⟩ | ⟨ha, hb⟩ | hnan)
    · rw [div_inf_inf ha hb, isNaN_quietNaN]
    · rw [div_zero_zero ha hb, isNaN_quietNaN]
    · rw [div_nan (hnan.imp isNaN_iff.2 isNaN_iff.2), isNaN_quietNaN]
  · obtain ⟨m, hfin, hval, heq⟩ := ofNat_exact hn
    have hmag : magBits (ofNat n) = m := by rw [heq, magBits_pack false (hfin.trans (by decide))]
    have hsign : sign (ofNat n) = false := by rw [heq, sign_pack]
    refine ⟨hmag ▸ hfin, hsign, ?_⟩
    rw [valueOf, hsign, if_neg Bool.false_ne_true, hmag, hval, Nat.cast_mul, Nat.cast_pow, Nat.cast_ofNat]

/-- Settles O52: `f64_ge` compares the keys, which are in the order of the values. -/
theorem greaterOrEqualIsOrdered : Obligations.GreaterOrEqualIsOrdered := by
  intro a b
  rw [valueOf_le_iff]
  simp [ge, isNaN, and_assoc]

end Sys2Proof.Machine.F64

namespace Sys2Proof.Machine

/-- An ill-formed build has no steps. -/
theorem step_refuses {s : State} (h : ¬ s.params.WellFormed) : step s = .refused .illFormedBuild := if_neg h

/-- An ill-formed build has no commands. -/
theorem exec_refuses {s : State} (h : ¬ s.params.WellFormed) (i : Instr) : exec i s = .refused .illFormedBuild := by
  rw [exec_eq_runCommand]
  exact if_neg h

/-- Settles O1: the bounds listed are well-formedness, as a 16-bit HIST_N is at most 65535. -/
theorem illFormedBuildIsRefused : Obligations.IllFormedBuildIsRefused := by
  intro i s hbounds
  have h : ¬ s.params.WellFormed := by
    intro hw
    obtain ⟨hpoll, hlow1, hlow0, hread, hhist⟩ := s.params.wellFormed_iff.1 hw
    exact hbounds ⟨hpoll, hlow1, hlow0, hread, hhist, Nat.le_of_lt_succ s.params.histN.isLt⟩
  exact ⟨step_refuses h, exec_refuses h i⟩

end Sys2Proof.Machine
end


section
/-! PROOFS. The state of the block over one step (10_state.md): what each end of a command leaves in each field, the
invariant under every step, and from these two which step can change which register. -/

namespace Sys2Proof.Machine

/-! ## What the end of a command leaves in each field -/

section
variable {i : Instr} {s u : State} {o : CmdOutcome}

namespace Ends

theorem params_eq (h : Ends i s u o) : u.params = s.params := by cases h <;> rfl

theorem data_eq (h : Ends i s u o) : u.data = s.data := by cases h <;> rfl

theorem rst_eq (h : Ends i s u o) : u.rst = s.rst := by cases h <;> rfl

theorem grain_eq (h : Ends i s u o) : u.grain = s.grain := by cases h <;> rfl

/-- A command never ends in OVERRUN (R170: "never written to ERR"). -/
theorem outcome_ne_overrun (h : Ends i s u o) : o ≠ .fault .overrun := by cases h <;> simp

/-- Only a command that ends Ok writes RESULT (R24). -/
theorem result_eq_or_ok (h : Ends i s u o) : u.result = s.result ∨ o = .ok := by
  cases h with
  | noTransaction _ _ | notReady _ _ | proto _ _ _ => exact .inl rfl
  | _ => exact .inr rfl

/-- OW.RESET, OW.WRB and TM.REC produce no result (R24). -/
theorem result_eq_of_silent (h : Ends i s u o) (hi : i = .owReset ∨ (∃ b, i = .owWrb b) ∨ i = .tmRec) :
    u.result = s.result := by
  cases h with
  | owRdb _ _ h | owRdrom _ _ h _ | owRdpwr _ _ h | tmRdy h | tmAvg _ _ h _ | tmAlrm _ _ h => simp [h] at hi
  | _ => rfl

/-- TXN becomes 1 only when an OW.RESET ends Ok (R28). -/
theorem opens_transaction (h : Ends i s u o) (hs : s.status.txn = false) (hu : u.status.txn = true) :
    i = .owReset ∧ o = .ok := by
  cases h with
  | owReset b hi => exact ⟨hi, rfl⟩
  | _ => simp [hs] at hu

/-- Only TM.REC writes the history (R38 to R40). -/
theorem history_eq_or_recorded (h : Ends i s u o) :
    (u.slots = s.slots ∧ u.cursor = s.cursor ∧ u.fill = s.fill) ∨
      (i = .tmRec ∧ u.fill = nextFill s.params s.fill) := by
  cases h with
  | tmRec hi => exact .inr ⟨hi, rfl⟩
  | _ => exact .inl ⟨rfl, rfl, rfl⟩

/-- Only OW.RDROM writes ROM and ROMV, with a value that validates, and that value is its RESULT (R126). -/
theorem rom_eq_or_validated (h : Ends i s u o) :
    (u.rom = s.rom ∧ u.status.romv = s.status.romv) ∨
      (validateRom s.params u.rom = .ok () ∧ u.status.romv = true ∧ u.result = u.rom ∧ o = .ok) := by
  cases h with
  | owRdrom r b hi hv => exact .inr ⟨hv, rfl, rfl, rfl⟩
  | _ => exact .inl ⟨rfl, rfl⟩

end Ends
end

/-! ## The registers of a state at rest -/

/-- The registers of a state, with the block idle, the line released and `rst` deasserted: what the end of a command has
to keep of the invariant, apart from the line. -/
def State.atRest (s : State) : State :=
  { s with status := { s.status with busy := false }, seq := Sequencer.idle, bus := Bus.reset, rst := false }

theorem State.Inv.atRest {s : State} (h : s.Inv) : s.atRest.Inv :=
  { h with
    busyPhase := rfl
    busyDone := nofun
    lineLow := rfl
    traceLine := rfl
    held := nofun
    sequence := trivial }

/-! ## Recording a sample, R153 -/

theorem nextFill_toNat (p : Params) (fill : HistIndex) :
    (nextFill p fill).toNat = min (fill.toNat + 1) p.histN.toNat := by
  have := p.histN.isLt
  simp only [nextFill, BitVec.toNat_ofNat]
  omega

theorem nextCursor_toNat {p : Params} (hp : 0 < p.histN.toNat) (cursor : HistIndex) :
    (nextCursor p cursor).toNat = (cursor.toNat + 1) % p.histN.toNat :=
  Nat.mod_eq_of_lt ((Nat.mod_lt _ hp).trans p.histN.isLt)

/-- While slots are unwritten the cursor stands at the first of them, so the slot written extends the written ones
(R40); after that every slot is written and stays so. -/
theorem recorded_inv {s : State} (h : s.Inv) (v : Word) (hr : s.rst = false) : State.Inv { s with
    slots := s.slots.set s.cursor.toNat (some v)
    cursor := nextCursor s.params s.cursor
    fill := nextFill s.params s.fill
    status := { s.status with ready := readyFlag s.params (nextFill s.params s.fill) } } := by
  have hN : 0 < s.params.histN.toNat := Nat.zero_lt_of_lt h.cursorBound
  have hfill := nextFill_toNat s.params s.fill
  have hcursor := nextCursor_toNat hN s.cursor
  have hbound := h.fillBound
  have hat : s.fill.toNat < s.params.histN.toNat → s.cursor.toNat = s.fill.toNat := fun hlt => by
    rw [h.cursorFill hlt]
  have hset : (s.slots.set s.cursor.toNat (some v))[s.cursor.toNat]? = some (some v) :=
    List.getElem?_set_self (h.slotCount ▸ h.cursorBound)
  refine { h with
    slotCount := by simpa using h.slotCount
    fillBound := by simp only [hfill]; omega
    cursorBound := by simp only [hcursor]; exact Nat.mod_lt _ hN
    cursorFill := ?_
    written := ?_
    unwritten := ?_
    ready := rfl
    held := by simp [hr] }
  · intro hlt
    simp only [hfill] at hlt
    apply BitVec.eq_of_toNat_eq
    simp only [hfill, hcursor]
    rw [hat (by omega), Nat.mod_eq_of_lt (by omega)]
    omega
  · intro i hi
    simp only [hfill] at hi
    by_cases hc : s.cursor.toNat = i
    · exact ⟨v, hc ▸ hset⟩
    · rw [List.getElem?_set_ne hc]
      exact h.written i (by omega)
  · intro i hle hlt
    simp only [hfill] at hle
    dsimp only at hlt
    rw [List.getElem?_set_ne (by omega)]
    exact h.unwritten i (by omega) hlt

/-! ## The end of a command -/

/-- Every end of a command keeps the registers' part of the invariant; the line's part is in `busEnd` and `LineStep`. -/
theorem Ends.atRest_inv {i : Instr} {s u : State} {o : CmdOutcome} (h : Ends i s u o) (hs : s.atRest.Inv) :
    u.atRest.Inv := by
  cases h with
  | owRdrom r b hi hv => exact { hs with romValid := fun _ => hv, romZero := nofun, held := nofun }
  | tmRec hi => exact recorded_inv hs s.seq.sample rfl
  | _ => exact { hs with held := nofun }

/-- The fault codes of R170 are those FCAUSE may hold (R33). -/
theorem faultCode_range (f : FaultCode) : 0x8#4 ≤ f.code ∧ f.code ≤ 0xB#4 := by cases f <;> decide

/-- All codes of R170 but that of OVERRUN can stand in ERR. -/
theorem outcomeCode_legal {o : CmdOutcome} (h : o ≠ .fault .overrun) :
    o.code ≤ 0x4#4 ∨ (0x8#4 ≤ o.code ∧ o.code ≤ 0xA#4) := by
  cases o with
  | ok => decide
  | proto c => cases c <;> decide
  | fault f =>
    cases f with
    | overrun => exact absurd rfl h
    | _ => decide

theorem recordFault_inv {s : State} (h : s.Inv) (f : FaultCode) (hr : s.rst = false) : (recordFault f s).Inv :=
  { h with
    causeZero := nofun
    causeCode := by
      intro _
      rw [recordFault_fcause]
      split
      · exact h.causeCode ‹_›
      · exact faultCode_range f
    held := by simp [hr] }

/-- Completion (R175) on a released line gives the invariant back, from its registers' part. -/
theorem complete_inv {u : State} {o : CmdOutcome} (h : u.atRest.Inv) (ho : o ≠ .fault .overrun)
    (hr : u.rst = false) (hline : u.bus.lineDrv = false) (htrace : lineAfter u.bus.trace false = some false) :
    (complete o u).Inv := by
  have ended : ∀ w : State, w.atRest.Inv → w.rst = u.rst → w.bus = u.bus → State.Inv { w with
      status := { w.status with err := o.code, busy := false, done := true }, seq := Sequencer.idle } :=
    fun w hw hwr hwb => { hw with
      errCode := outcomeCode_legal ho
      busyDone := nofun
      lineLow := by rw [hwb]; exact hline
      traceLine := by rw [hwb, hline]; exact htrace
      held := by simp [hwr, hr] }
  cases o with
  | ok => exact ended u h rfl rfl
  | proto c => exact ended u h rfl rfl
  | fault f => exact ended (recordFault f u) (recordFault_inv h f rfl) rfl rfl

/-! ## The invariant under each event -/

/-- The pending events and the recorded reads are the outside world's. -/
theorem State.Inv.outside {s : State} (h : s.Inv) (ps : List Event) (rs : List (Nat × Word)) : (s.outside ps rs).Inv :=
  { h with }

/-- A block that is not busy is idle, and then the line is released. -/
theorem State.Inv.released_of_not_busy {s : State} (h : s.Inv) (hb : s.status.busy = false) :
    s.bus.lineDrv = false ∧ lineAfter s.bus.trace false = some false := by
  have hidle : s.seq.phase = .idle := by simpa [hb] using h.busyPhase.symm
  have hline : s.bus.lineDrv = false := by rw [h.lineLow, hidle]; rfl
  exact ⟨hline, hline ▸ h.traceLine⟩

theorem accept_inv {s : State} (h : s.Inv) (hb : s.status.busy = false) (hr : s.rst = false) (w : CmdWord) :
    (accept w s).Inv :=
  { h with
    busyPhase := rfl
    busyDone := fun _ => rfl
    lineLow := (h.released_of_not_busy hb).1
    held := by simp [hr]
    sequence := trivial }

theorem rejectWord_inv {s : State} (h : s.Inv) (hb : s.status.busy = false) (hr : s.rst = false) (w : CmdWord) :
    (rejectWord w s).Inv :=
  have ⟨hline, htrace⟩ := h.released_of_not_busy hb
  complete_inv (accept_inv h hb hr w).atRest (by simp) hr hline htrace

/-- Line actions of a whole command leave the line released, and sample only a released line (R109, R110). -/
theorem Bus.acts.released {b c : Bus} {m : Nat} (h : b.acts c m) {d : Bool} (hb : lineAfter b.trace false = some d) :
    c.lineDrv = false ∧ lineAfter c.trace false = some false := by
  obtain ⟨n, t, rfl, ht, -⟩ := h
  exact ⟨rfl, by simp [lineAfter_append, hb, ht]⟩

theorem exec_inv {s t : State} {i : Instr} (h : s.Inv) (hb : s.status.busy = false) (hr : s.rst = false)
    (he : exec i s = .next t) : t.Inv := by
  obtain ⟨-, u, o, hends, hbus, rfl⟩ := exec_ends he
  have hline : u.bus.lineDrv = false ∧ lineAfter u.bus.trace false = some false := by
    rcases hbus with ⟨hsame, -⟩ | hacts
    · rw [hsame]; exact h.released_of_not_busy hb
    · exact hacts.released h.traceLine
  exact complete_inv (hends.atRest_inv (accept_inv h hb hr _).atRest) hends.outcome_ne_overrun
    (hends.rst_eq.trans hr) hline.1 hline.2

/-- A hardware reset releases the line, and the reset values meet the invariant (R200 to R202). -/
theorem hardReset_inv {s : State} (h : s.Inv) (level : Bool) : State.Inv { hardReset s with rst := level } := by
  have hN : 0 < s.params.histN.toNat := Nat.zero_lt_of_lt h.cursorBound
  exact {
    build := h.build
    slotCount := List.length_replicate
    fillBound := Nat.zero_le _
    cursorBound := hN
    cursorFill := fun _ => rfl
    written := fun i hi => absurd hi (Nat.not_lt_zero i)
    unwritten := fun i _ hi => by simp only [hardReset_eq] at hi ⊢; simp [hi]
    ready := by
      have h0 : 0#16 ≠ s.params.histN := by rintro h0; simp [← h0] at hN
      exact (beq_eq_false_iff_ne.2 h0).symm
    romValid := nofun
    romZero := fun _ => rfl
    causeZero := fun _ => rfl
    causeCode := nofun
    errCode := .inl (by simp [hardReset_eq, Status.reset])
    busyPhase := rfl
    busyDone := nofun
    lineLow := resetBus_lineDrv s.bus
    traceLine := by
      have ht := h.traceLine
      cases hd : s.bus.lineDrv <;> simp [hardReset_eq, lineAfter_append, lineAfter, ht, hd]
    held := fun _ => ⟨rfl, rfl, rfl, rfl, resetBus_lineDrv s.bus, rfl⟩
    sequence := trivial }

/-- What one action's line activity leaves of the line and of the trace. -/
theorem State.Inv.line_of_lineStep {s : State} (h : s.Inv) {b : Bus} {low : Bool} (hl : LineStep s b low) :
    b.lineDrv = low ∧ lineAfter b.trace false = some low := by
  obtain ⟨t, ht, hlow⟩ := hl.grows
  refine ⟨hl.drives h.lineLow, ?_⟩
  rw [ht, lineAfter_append, h.traceLine, h.lineLow]
  exact hlow

theorem Moves.inv {s t : State} (hm : Moves s t) (h : s.Inv) (hr : s.rst = false) : t.Inv := by
  cases hm with
  | idle hp => exact h
  | goesOn b q hp hq hd hc hl hk =>
    obtain ⟨hline, htrace⟩ := h.line_of_lineStep hl
    exact { h with
      busyPhase := by simp only [h.busyPhase, bne_iff_ne.2 hp, bne_iff_ne.2 hq]
      lineLow := hline
      traceLine := by rw [hline]; exact htrace
      held := by simp [hr]
      sequence := hk h.sequence }
  | illegal hp r hd =>
    have hline : s.bus.lineDrv = false := by simp [h.lineLow, hp]
    exact complete_inv h.atRest (by simp) hr hline (hline ▸ h.traceLine)
  | endsAtOnce i u o hp hd he hb hi =>
    have hline : s.bus.lineDrv = false := by simp [h.lineLow, hp]
    exact complete_inv (he.atRest_inv h.atRest) he.outcome_ne_overrun (he.rst_eq.trans hr) (hb ▸ hline)
      (hb ▸ hline ▸ h.traceLine)
  | ends i u o hp hd hi he hl hreset hmon hfault =>
    obtain ⟨hline, htrace⟩ := h.line_of_lineStep hl
    exact complete_inv (he.atRest_inv h.atRest) he.outcome_ne_overrun (he.rst_eq.trans hr) hline htrace

/-- Settles O54, event by event: host accesses, reset, acceptance, whole commands, ticks and moves. -/
theorem stepKeepsTheInvariant : Obligations.StepKeepsTheInvariant := by
  intro s t h hstep
  cases (step_steps hstep).2 with
  | outside ps rs hr => exact h.outside ps rs
  | data ps rs v hp hr => exact { h with held := by simp [hr] }
  | reset ps rs l hp => exact hardReset_inv (h.outside ps rs) l
  | overrun ps rs v hp hb hr => exact recordFault_inv (h.outside ps rs) .overrun hr
  | accepted ps rs v hp hb hr => exact accept_inv (h.outside ps rs) hb hr _
  | illegal ps rs v r hp hb hr hd => exact rejectWord_inv (h.outside ps rs) hb hr _
  | command ps rs v i _ hp hb hr hd he => exact exec_inv (h.outside ps rs) hb hr he
  | tick ps rs hn hr hw ht => exact { h with }
  | moves ps rs _ hn hr hm => exact hm.inv (h.outside ps rs) hr

/-! ## No stop from a state that meets the invariant -/

/-- A full history has no unwritten slot, so the average reads none (R38). -/
theorem avg_answers {s : State} (h : s.Inv) (hfull : s.fill = s.params.histN) : ∃ a, avg s = .ok a := by
  obtain ⟨vs, hvs⟩ := slots_of_full fun i hi => h.written i (by rw [hfull, ← h.slotCount]; exact hi)
  exact ⟨mean vs, avg_full (by rw [← h.slotCount, hvs, List.length_map]) hvs⟩

theorem effect_answers {s : State} (h : s.Inv) (i : Instr) : ∃ r, effectOf i s = .ok r := by
  cases i with
  | owWrb v => simp only [effectOf, owWrbEffect]; split <;> exact ⟨_, rfl⟩
  | owRdb => simp only [effectOf, owRdbEffect]; split <;> exact ⟨_, rfl⟩
  | tmAvg =>
    simp only [effectOf, tmAvgEffect]
    split
    · exact ⟨_, rfl⟩
    · next hfull =>
      obtain ⟨a, ha⟩ := avg_answers h (not_not.1 hfull)
      rw [ha]
      exact ⟨_, rfl⟩
  | tmAlrm attended =>
    simp only [effectOf, tmAlrmEffect, shouldAlarm]
    split_ifs with hfull hatt
    · exact ⟨_, rfl⟩
    · exact ⟨_, rfl⟩
    · obtain ⟨a, ha⟩ := avg_answers h (not_not.1 hfull)
      rw [ha]
      exact ⟨_, rfl⟩
  | _ => exact ⟨_, rfl⟩

theorem finish_effect_next {s : State} (h : s.Inv) (i : Instr) : ∃ t, finish (effectOf i s) = .next t := by
  obtain ⟨r, hr⟩ := effect_answers h i
  rw [hr]
  exact ⟨_, rfl⟩

theorem exec_next {s : State} (h : s.Inv) (hb : s.status.busy = false) (hr : s.rst = false) (i : Instr) :
    ∃ t, exec i s = .next t := by
  rw [exec_eq_runCommand, runCommand_eq h.build]
  exact finish_effect_next (accept_inv h hb hr _) i

theorem dispatch_next {s : State} (h : s.Inv) : ∃ t, dispatch s = .next t := by
  unfold dispatch
  cases decode s.seq.cmd with
  | error r => exact ⟨_, rfl⟩
  | ok i =>
    cases i with
    | owWrb v => dsimp only; split <;> exact ⟨_, rfl⟩
    | owRdb => dsimp only; split <;> exact ⟨_, rfl⟩
    | tmAvg => exact finish_effect_next h .tmAvg
    | tmAlrm a => exact finish_effect_next h (.tmAlrm a)
    | _ => exact ⟨_, rfl⟩

/-- The commands that read slots. -/
theorem transfers_reading {q : Sequencer} (h : transfers q = true) (hr : q.reading = true) :
    decode q.cmd = .ok .owRdb ∨ decode q.cmd = .ok .owRdrom ∨ decode q.cmd = .ok .owRdpwr := by
  unfold transfers at h
  split at h <;> simp_all

theorem afterReset_next {s : State} (h : pulses s.seq = true) : ∃ t, afterReset s = .next t := by
  unfold afterReset
  rcases pulses_cases h with hd | hd | hd <;> rw [hd] <;> exact ⟨_, rfl⟩

theorem afterWrite_next {s : State} (h : transfers s.seq = true) (hr : s.seq.reading = false) :
    ∃ t, afterWrite s = .next t := by
  unfold afterWrite
  rcases transfers_writing h hr with ⟨v, hd⟩ | hd | hd <;> rw [hd] <;> exact ⟨_, rfl⟩

theorem afterRead_next {s : State} (h : transfers s.seq = true) (hr : s.seq.reading = true) :
    ∃ t, afterRead s = .next t := by
  unfold afterRead
  rcases transfers_reading h hr with hd | hd | hd <;> rw [hd] <;> exact ⟨_, rfl⟩

theorem afterSlot_next_of_transfers {s : State} (h : transfers s.seq = true) : ∃ t, afterSlot s = .next t := by
  unfold afterSlot
  split
  · split
    · next hr => exact afterRead_next h hr
    · next hr => exact afterWrite_next h (Bool.eq_false_iff.2 hr)
  · exact ⟨_, rfl⟩

/-! Whichever level was sampled, the block goes on or ends its command. -/

theorem presenceSampled_next (s : State) (lb : Level × Bus) : ∃ t, presenceSampled s lb = .next t := by
  obtain ⟨_ | _, b⟩ := lb <;> exact ⟨_, rfl⟩

theorem releasePolled_next (s : State) (lb : Level × Bus) : ∃ t, releasePolled s lb = .next t := by
  obtain ⟨_ | _, b⟩ := lb
  · simp only [releasePolled]
    split <;> exact ⟨_, rfl⟩
  · exact ⟨_, rfl⟩

theorem highChecked_next (s : State) (lb : Level × Bus) : ∃ t, highChecked s lb = .next t := by
  obtain ⟨_ | _, b⟩ := lb <;> exact ⟨_, rfl⟩

/-- A phase that belongs to its command finds the case it needs (R41). -/
theorem advance_next {s : State} (h : s.Inv) : ∃ t, advance s = .next t := by
  have hseq := h.sequence
  unfold Sequencer.coherent at hseq
  unfold advance
  cases hp : s.seq.phase with
  | dispatch => exact dispatch_next h
  | resetWait => exact presenceSampled_next s _
  | presencePoll => exact releasePolled_next s _
  | resetRecovery => rw [hp] at hseq; exact afterReset_next hseq
  | slotRelease =>
    dsimp only
    split_ifs
    · exact ⟨_, rfl⟩
    · exact highChecked_next s _
    · exact ⟨_, rfl⟩
  | slotRecovery => rw [hp] at hseq; exact afterSlot_next_of_transfers hseq
  | validate =>
    simp only [hp] at hseq
    dsimp only
    rw [hseq]
    exact ⟨_, rfl⟩
  | _ => exact ⟨_, rfl⟩

theorem elapse_next {s : State} (h : s.Inv) : ∃ t, elapse s = .next t := by
  unfold elapse
  split_ifs
  · exact ⟨_, rfl⟩
  · exact ⟨_, rfl⟩
  · exact advance_next h

theorem onCmdWrite_next {s : State} (h : s.Inv) (hr : s.rst = false) (w : CmdWord) :
    ∃ t, onCmdWrite w s = .next t := by
  unfold onCmdWrite
  split
  · exact ⟨_, rfl⟩
  · next hb =>
    split
    · unfold execWord
      split
      · exact exec_next h (Bool.eq_false_iff.2 hb) hr _
      · exact ⟨_, rfl⟩
    · exact ⟨_, rfl⟩

theorem perform_next {s : State} (h : s.Inv) (e : Event) : ∃ t, perform e s = .next t := by
  cases e with
  | write index value =>
    simp only [perform, hostWrite]
    split
    · exact ⟨_, rfl⟩
    · next hr =>
      unfold writeRegister
      split
      · exact onCmdWrite_next h (Bool.eq_false_iff.2 hr) _
      · exact ⟨_, rfl⟩
      · exact ⟨_, rfl⟩
  | read index => exact ⟨_, rfl⟩
  | waitDone =>
    simp only [perform, hostWaitDone]
    split
    · exact ⟨_, rfl⟩
    · exact elapse_next (h.outside (.waitDone :: s.pending) (hostRead (regIndex .status) s).reads)
  | rst level => exact ⟨_, rfl⟩
  | elapse => exact elapse_next h

/-- Settles O55: the fault unwrittenSlot needs an unwritten slot in a full history, sequencerMismatch a phase that does
not belong to its command, and the refusal an ill-formed build. -/
theorem invariantStatesNeverStop : Obligations.InvariantStatesNeverStop := by
  intro s h
  rw [step_eq_serve h.build, serve]
  split
  · exact elapse_next h
  · next e rest hp => exact perform_next (h.outside rest s.reads) e

/-! ## Which step writes which register -/

/-- Two states agree in what only a command or a hardware reset changes, if anything does. An update of other fields
has every part by `rfl`, so `{}` is its proof. -/
structure State.SameRegisters (s t : State) : Prop where
  params : t.params = s.params := by rfl
  grain : t.grain = s.grain := by rfl
  txn : t.status.txn = s.status.txn := by rfl
  rom : t.rom = s.rom := by rfl
  romv : t.status.romv = s.status.romv := by rfl
  slots : t.slots = s.slots := by rfl
  cursor : t.cursor = s.cursor := by rfl
  fill : t.fill = s.fill := by rfl

/-- The step from `s` runs the command `i`, or ends it with the outcome `o`: it is the CMD write of its word in the
atomic model, the dispatch of a command that ends there, or the last move of a bus command, after the recovery wait if
that is an OW.RESET that ends Ok. -/
inductive State.RunsTo (s : State) (i : Instr) (o : CmdOutcome) : Prop where
  | written (v : Word) (rest : List Event) (h : s.pending = .write 0 v :: rest) (hd : decode (v.setWidth 16) = .ok i)
  | dispatched (h : s.seq.phase = .dispatch) (hd : decode s.seq.cmd = .ok i) (hr : i ≠ .owReset)
  | transferred (hm : onMonitor i = false)
      (hr : i = .owReset → o = .ok → s.seq.phase = .resetRecovery ∧ decode s.seq.cmd = .ok .owReset)

/-- What one step can do to the registers: nothing but a host write of DATA, a hardware reset, or the end of a command
from a state `r` with the registers of `s`. -/
inductive State.RegisterStep (s : State) : State → Prop where
  | keeps (t : State) (h : s.SameRegisters t)
      (hd : t.data = s.data ∨ ∃ v rest, s.pending = .write 1 v :: rest ∧ t.data = v) : s.RegisterStep t
  | reset (ps rs) (l : Bool) (h : s.pending = .rst l :: ps) :
      s.RegisterStep { hardReset (s.outside ps rs) with rst := l }
  | ends (i : Instr) (r u : State) (o : CmdOutcome) (h : s.SameRegisters r) (hd : r.data = s.data) (he : Ends i r u o)
      (hi : s.RunsTo i o) : s.RegisterStep (complete o u)

theorem step_registerStep {s t : State} (h : step s = .next t) : s.RegisterStep t := by
  have same : ∀ t, s.SameRegisters t → t.data = s.data → s.RegisterStep t := fun t h hd => .keeps t h (.inl hd)
  cases (step_steps h).2 with
  | outside ps rs hr => exact same _ {} rfl
  | data ps rs v hp hr => exact .keeps _ {} (.inr ⟨v, ps, hp, rfl⟩)
  | reset ps rs l hp => exact .reset ps rs l hp
  | overrun ps rs v hp hb hr => exact same _ {} rfl
  | accepted ps rs v hp hb hr => exact same _ {} rfl
  | illegal ps rs v r hp hb hr hd => exact same _ {} rfl
  | command ps rs v i _ hp hb hr hd he =>
    obtain ⟨-, u, o, hends, -, rfl⟩ := exec_ends he
    exact .ends i (accept (encode i) (s.outside ps rs)) u o {} rfl hends (.written v ps hp hd)
  | tick ps rs hn hr hw ht => exact same _ {} rfl
  | moves ps rs _ hn hr hm =>
    cases hm with
    | idle hp => exact same _ {} rfl
    | goesOn b q hp hq hd hc hl hk => exact same _ {} rfl
    | illegal hp r hd => exact same _ {} rfl
    | endsAtOnce i u o hp hd he hb hi =>
      exact .ends i (s.outside ps rs) u o {} rfl he (.dispatched hp hd hi)
    | ends i u o hp hd hi he hl hreset hmon hfault =>
      exact .ends i (s.outside ps rs) u o {} rfl he (.transferred hmon hreset)

/-- Settles O40: of the ends of a command, only OW.RESET's Ok opens a transaction. -/
theorem onlyOwResetOpensATransaction : Obligations.OnlyOwResetOpensATransaction := by
  intro s t hstep hs ht
  cases step_registerStep hstep with
  | keeps _ h hd => rw [h.txn, hs] at ht; cases ht
  | reset ps rs l hp => cases ht
  | ends i r u o h hd he hi =>
    obtain ⟨rfl, rfl⟩ := he.opens_transaction (h.txn.trans hs) (by simpa using ht)
    refine ⟨complete_err .ok u, complete_done .ok u, ?_⟩
    cases hi with
    | written v rest hp hd => exact .inl ⟨v, rest, hp, hd⟩
    | dispatched hp hd hne => exact absurd rfl hne
    | transferred hm hr => exact .inr (hr rfl rfl)

/-- Settles O56: DATA has one writer, the history one command, and the build and the choice of model none. -/
theorem stateChangesOnlyByItsWriters : Obligations.StateChangesOnlyByItsWriters := by
  intro s t hstep
  cases step_registerStep hstep with
  | keeps _ h hd =>
    refine ⟨h.params, h.grain, fun _ => ⟨fun hne => hd.resolve_left hne, fun hne => ?_⟩⟩
    simp [h.slots, h.cursor, h.fill] at hne
  | reset ps rs l hp => exact ⟨rfl, rfl, fun hn => absurd (by simp [hp]) (hn l)⟩
  | ends i r u o h hd he hi =>
    have hdata : (complete o u).data = s.data := by rw [complete_data, he.data_eq, hd]
    refine ⟨?_, ?_, fun _ => ⟨fun hne => absurd hdata hne, fun hne => ?_⟩⟩
    · rw [complete_params, he.params_eq, h.params]
    · rw [complete_grain, he.grain_eq, h.grain]
    obtain ⟨hslots, hcursor, hfill⟩ | ⟨rfl, -⟩ := he.history_eq_or_recorded
    · simp [hslots, hcursor, hfill, h.slots, h.cursor, h.fill] at hne
    · cases hi with
      | written v rest hp hd => exact .inl ⟨v, rest, hp, hd⟩
      | dispatched hp hd hne => exact .inr ⟨hp, hd⟩
      | transferred hm hr => cases hm

/-- Settles O57: OW.RDROM writes ROM only after ValidateRom, and nothing else does. -/
theorem romChangesOnlyToAValidatedValue : Obligations.RomChangesOnlyToAValidatedValue := by
  intro s t hstep hn
  cases step_registerStep hstep with
  | keeps _ h hd => exact .inl ⟨h.rom, h.romv⟩
  | reset ps rs l hp => exact absurd (by simp [hp]) (hn l)
  | ends i r u o h hd he hi =>
    obtain ⟨hrom, hromv⟩ | ⟨hvalid, hromv, hresult, rfl⟩ := he.rom_eq_or_validated
    · exact .inl ⟨by rw [complete_rom, hrom, h.rom], by rw [complete_romv, hromv, h.romv]⟩
    · exact .inr ⟨h.params ▸ hvalid, hromv, hresult, rfl⟩

theorem nextFill_ge {p : Params} {fill : HistIndex} (h : fill.toNat ≤ p.histN.toNat) :
    fill.toNat ≤ (nextFill p fill).toNat := by
  rw [nextFill_toNat]
  omega

theorem fill_le_of_step {s t : State} (h : s.Inv) (hn : s.noReset) (hstep : step s = .next t) :
    s.fill.toNat ≤ t.fill.toNat := by
  cases step_registerStep hstep with
  | keeps _ h hd => rw [h.fill]
  | reset ps rs l hp => exact absurd (by simp [hp]) (hn l)
  | ends i r u o hs hd he hi =>
    rw [complete_fill]
    obtain ⟨-, -, hfill⟩ | ⟨-, hfill⟩ := he.history_eq_or_recorded
    · rw [hfill, hs.fill]
    · rw [hfill, hs.fill, hs.params]
      exact nextFill_ge h.fillBound

/-- Settles O47: FILL grows and is at most HIST_N in the next state too, so a full history stays full, and READY is
`FILL = HIST_N` in every state that meets the invariant. -/
theorem readinessIsNeverLost : Obligations.ReadinessIsNeverLost := by
  intro s t h hstep hn
  have hfill := fill_le_of_step h hn hstep
  have ht := stepKeepsTheInvariant s t h hstep
  refine ⟨hfill, fun hready => ?_⟩
  have hfull : s.fill = s.params.histN := by simpa [h.ready] using hready
  have hparams : t.params = s.params := (stateChangesOnlyByItsWriters s t hstep).1
  have hbound := ht.fillBound
  rw [ht.ready, beq_iff_eq]
  apply BitVec.eq_of_toNat_eq
  rw [hparams] at hbound ⊢
  rw [hfull] at hfill
  omega

/-! ## RESULT and DATA over a whole command -/

/-- Settles O22: a command's end writes RESULT only with the outcome Ok, and DATA never. -/
theorem resultIsWrittenOnlyOnOk : Obligations.ResultIsWrittenOnlyOnOk := by
  intro i s t h
  obtain ⟨-, u, o, he, -, rfl⟩ := exec_ends h
  rw [complete_result, complete_data, complete_err]
  refine ⟨fun herr => ?_, fun hi => he.result_eq_of_silent hi, he.data_eq⟩
  exact he.result_eq_or_ok.resolve_right fun hok => herr (by rw [hok]; rfl)

/-! ## A running Wait -/

/-- One tick of a running Wait, with nothing pending (R43). -/
theorem step_tick {s : State} (h : Alone s) (hw : s.seq.phase.waits = true) (ht : s.bus.timer ≠ 0#32) :
    step s = .next { s with bus := tick s.bus } := by
  rw [step_alone h, elapse_eq h.2.2, if_pos ⟨hw, ht⟩]

/-- Ticks are counted down one by one, as long as TIMER lasts. -/
theorem runSteps_ticks (k : Nat) {s : State} (h : Alone s) (hw : s.seq.phase.waits = true)
    (hk : k ≤ s.bus.timer.toNat) :
    runSteps k s = .next { s with bus := { s.bus with timer := s.bus.timer - BitVec.ofNat 32 k } } := by
  induction k generalizing s with
  | zero => simp [runSteps]
  | succ k ih =>
    have ht : s.bus.timer ≠ 0#32 := by rintro h0; simp [h0] at hk
    have hsub : s.bus.timer - 1#32 - BitVec.ofNat 32 k = s.bus.timer - BitVec.ofNat 32 (k + 1) := by
      rw [BitVec.sub_sub, ← BitVec.ofNat_add, Nat.add_comm 1 k]
    have hle : k ≤ (s.bus.timer - 1#32).toNat := by
      rw [BitVec.toNat_sub_of_le (by simp [BitVec.le_def]; omega)]
      simp; omega
    rw [runSteps, step_tick h hw ht]
    exact (ih (s := { s with bus := tick s.bus }) h hw hle).trans (by simp only [tick, hsub])

/-- Settles O25: a step with nothing pending is a tick as long as TIMER is not 0. -/
theorem waitCountsEveryTick : Obligations.WaitCountsEveryTick :=
  fun _ k hp hr hpending hw hk => runSteps_ticks k ⟨hp, hpending, hr⟩ hw hk

/-! ## The packed registers, R25, R35 and R36 -/

/-- The single bits of STATUS, R25. -/
theorem statusWord_flags (st : Status) :
    st.word.getLsbD 0 = st.busy ∧ st.word.getLsbD 1 = st.done ∧ st.word.getLsbD 2 = st.txn ∧
      st.word.getLsbD 3 = st.ready ∧ st.word.getLsbD 4 = st.fault ∧ st.word.getLsbD 5 = st.romv := by
  -- The widths of the parts stay sums, so that each part is seen as the upper or lower one of an append.
  simp only [Status.word, BitVec.getLsbD_append, -Nat.reduceAdd]
  simp

/-- The codes of STATUS and its reserved bits, R25. -/
theorem statusWord_codes (st : Status) :
    st.word.extractLsb' 6 2 = 0#2 ∧ st.word.extractLsb' 8 4 = st.err ∧ st.word.extractLsb' 12 4 = st.fcause ∧
      st.word.extractLsb' 16 48 = 0#48 := by
  simp [Status.word, BitVec.extractLsb'_append_eq_of_le, BitVec.extractLsb'_append_eq_of_add_le, -Nat.reduceAdd]

theorem histWord_fields (fill cursor : HistIndex) :
    (histWord fill cursor).extractLsb' 0 16 = fill ∧ (histWord fill cursor).extractLsb' 16 16 = cursor ∧
      (histWord fill cursor).extractLsb' 32 32 = 0#32 := by
  simp [histWord, BitVec.extractLsb'_append_eq_of_le, BitVec.extractLsb'_append_eq_of_add_le, -Nat.reduceAdd]

theorem configWord_fields (p : Params) :
    (configWord p).extractLsb' 0 16 = p.histN ∧ (configWord p).extractLsb' 16 8 = p.familyCode ∧
      (configWord p).extractLsb' 24 8 = p.cmdReadRom ∧ (configWord p).extractLsb' 32 8 = p.cmdReadPower ∧
      (configWord p).extractLsb' 40 24 = 0#24 := by
  simp [configWord, BitVec.extractLsb'_append_eq_of_le, BitVec.extractLsb'_append_eq_of_add_le, -Nat.reduceAdd]

/-- Settles O6: the three indices read the packed words. -/
theorem packedRegisterLayouts : Obligations.PackedRegisterLayouts := by
  intro s
  obtain ⟨hbusy, hdone, htxn, hready, hfault, hromv⟩ := statusWord_flags s.status
  exact ⟨⟨hbusy, hdone, htxn, hready, hfault, hromv, statusWord_codes s.status⟩,
    histWord_fields s.fill s.cursor, configWord_fields s.params⟩

end Sys2Proof.Machine
end


section
/-! PROOFS. The host register port (20_memory.md): what one host access does, how an adapter presents it, and that a
running command keeps its registers and reads its bits in the order of the bus. -/

namespace Sys2Proof.Machine

/-! ## Host accesses, R53 and R54 -/

/-- In a well-formed build the oldest pending event takes place. -/
theorem step_event {s : State} {e : Event} {rest : List Event} (hw : s.params.WellFormed)
    (hp : s.pending = e :: rest) : step s = perform e { s with pending := rest } := by
  rw [step_eq_serve hw, serve, hp]

/-- An index outside 0..7 reads as 0 (R54). -/
theorem regRead_above {i : Nat} (hi : 7 < i) (s : State) : regRead i s = 0#64 := by
  obtain ⟨n, rfl⟩ : ∃ n, i = n + 8 := ⟨i - 8, by omega⟩
  rfl

/-- Settles O5: the value is the register's, index by index. -/
theorem hostReadHasNoEffect : Obligations.HostReadHasNoEffect := by
  intro s i rest hw hp
  refine ⟨regRead i { s with pending := rest }, step_event hw hp, ?_⟩
  refine ⟨?_, ?_, ?_, ?_, ?_, ?_, ?_, ?_, fun hi => regRead_above hi _⟩ <;> rintro rfl <;> rfl

/-- Out of reset a host write reaches its register. -/
theorem step_write {s : State} {i : Nat} {v : Word} {rest : List Event} (hw : s.params.WellFormed)
    (hr : s.rst = false) (hp : s.pending = .write i v :: rest) :
    step s = writeRegister i v { s with pending := rest } := by
  rw [step_event hw hp]
  exact if_neg (Bool.eq_false_iff.1 hr)

/-- Only CMD and DATA take a write (R54). -/
theorem writeRegister_ignored {i : Nat} (h0 : i ≠ 0) (h1 : i ≠ 1) (v : Word) (s : State) :
    writeRegister i v s = .next s := by
  match i with
  | 0 => exact absurd rfl h0
  | 1 => exact absurd rfl h1
  | _ + 2 => rfl

/-- Settles O7: whatever the block is doing, only the index decides. -/
theorem hostWriteStoresOnlyData : Obligations.HostWriteStoresOnlyData := by
  intro s i v rest hw hr hp h0
  rw [step_write hw hr hp]
  refine ⟨?_, fun h1 => writeRegister_ignored h0 h1 v _⟩
  rintro rfl
  rfl

/-! ## Adapters, R51 and R57 -/

/-- The index of an aligned byte address (R51). -/
theorem indexOfByteAddress_aligned {a : Word} (h : a.toNat % 8 = 0) :
    indexOfByteAddress a = some (a.toNat / 8 % 8) := by
  have hlow : a.extractLsb' 0 3 = 0#3 := by
    apply BitVec.eq_of_toNat_eq
    simpa [BitVec.extractLsb'_toNat] using h
  rw [indexOfByteAddress, if_pos hlow, BitVec.extractLsb'_toNat, Nat.shiftRight_eq_div_pow]

/-- The eight byte lanes of a value, put together, are the value (R57). -/
theorem wordOfLanes_byteOf (v : Word) : wordOfLanes ((List.range 8).map (byteOf v)) = some v := by
  change some (byteOf v 7 ++ byteOf v 6 ++ byteOf v 5 ++ byteOf v 4 ++ byteOf v 3 ++ byteOf v 2 ++ byteOf v 1 ++
    byteOf v 0) = some v
  -- From the top down, each lane lengthens the piece of `v` above it.
  simp (disch := rfl) only [byteOf, BitVec.extractLsb'_append_extractLsb'_eq_extractLsb']
  exact congrArg some BitVec.extractLsb'_eq_self

/-- Settles O8, by the index of an aligned address and the value of eight lanes. -/
theorem adaptersPresentRegisters : Obligations.AdaptersPresentRegisters := by
  refine ⟨fun a v h => ⟨?_, ?_⟩, fun i v => ?_⟩
  · rw [writeAtByteAddress, indexOfByteAddress_aligned h]
  · rw [readAtByteAddress, indexOfByteAddress_aligned h]
  · rw [writeLanes, wordOfLanes_byteOf]

/-! ## A running command, R59 -/

/-- An action that leaves the block busy has changed only the bus and the sequencer. -/
theorem Moves.frame_of_busy {s t : State} (h : Moves s t) (hb : t.status.busy = true) :
    t = { s with bus := t.bus, seq := t.seq } := by
  cases h with
  | idle hp => rfl
  | goesOn b q hp hq hd hc hl hk => rfl
  | illegal hp r hd => simp at hb
  | endsAtOnce i u o hp hd he hbus hr => simp at hb
  | ends i u o hp hd hi he hl hr hm hf => simp at hb

/-- Settles O23: with nothing pending a step is a tick or an action. -/
theorem runningCommandShowsNothing : Obligations.RunningCommandShowsNothing := by
  intro s t hpending _ hstep hb
  cases (step_steps hstep).2 with
  | outside ps rs hr => exact ⟨rfl, rfl, rfl, rfl, rfl, rfl, rfl, rfl⟩
  | tick ps rs hn hr hw ht => exact ⟨rfl, rfl, rfl, rfl, rfl, rfl, rfl, rfl⟩
  | moves ps rs _ hn hr hm =>
    rw [hm.frame_of_busy hb]
    exact ⟨rfl, rfl, rfl, rfl, rfl, rfl, rfl, rfl⟩
  | data _ _ _ hp | reset _ _ _ hp | overrun _ _ _ hp | accepted _ _ _ hp | illegal _ _ _ _ hp
  | command _ _ _ _ _ hp => simp [hpending] at hp

/-! ## The order of the bits read, R55 and R56 -/

/-- If the environment answers the levels of some bits, then each bit is that of its answer. -/
theorem bit_of_answersLevels {b : Bus} {bit : Nat → Bool} {n k : Nat}
    (h : b.answersLevels 0 ((List.range n).map fun i => levelOf (bit i))) (hk : k < n) :
    bit k = bitOf (b.answer k) := by
  have hlevel : b.answer k = levelOf (bit k) := by
    rw [← Nat.zero_add k, h k (by simpa using hk)]
    simp
  rw [hlevel, bitOf_levelOf]

/-- Settles O29: the value read is the one whose bits the environment answers. -/
theorem readsAreLeastSignificantFirst : Obligations.ReadsAreLeastSignificantFirst := by
  intro p b
  refine ⟨fun k hk => ?_, fun j hj => ?_⟩
  · obtain ⟨r, hr⟩ := levels_of_byte b
    rw [readByte_levels p r hr]
    exact bit_of_answersLevels hr hk
  · obtain ⟨r, hr⟩ := levels_of_rom b 0
    rw [readRomBits_levels p r hr]
    exact bit_of_answersLevels hr hj

end Sys2Proof.Machine
end


section
/-! PROOFS. The command word (30_encoding.md): the fields of a word that decodes, its row of the opcode map, and what
follows for an illegal word, for a line of the assembler and for WAITDONE. -/

namespace Sys2Proof

/-! ## The fields of a word that decodes, R71 and R75 -/

/-- The word of a command decodes to it, whichever the command. -/
theorem decode_encode (i : Instr) : decode (encode i) = .ok i := by
  cases i with
  | owReset => exact Laws.RoundTrip.owReset
  | owWrb b => exact Laws.RoundTrip.owWrb b
  | owRdb => exact Laws.RoundTrip.owRdb
  | owRdrom => exact Laws.RoundTrip.owRdrom
  | owRdpwr => exact Laws.RoundTrip.owRdpwr
  | tmRec => exact Laws.RoundTrip.tmRec
  | tmRdy => exact Laws.RoundTrip.tmRdy
  | tmAvg => exact Laws.RoundTrip.tmAvg
  | tmAlrm a => exact Laws.RoundTrip.tmAlrm a

/-- An IMM whose bits 7:1 are 0 is the IMM of TM.ALRM with IMM[0] as its operand. -/
theorem imm_of_immHigh_eq_zero {imm : Byte} (h : immHigh imm = 0#7) :
    imm = (Instr.tmAlrm (attendedOf imm)).imm := by
  have hhigh : imm.toNat / 2 % 128 = 0 := by
    simpa [immHigh, BitVec.extractLsb'_toNat, Nat.shiftRight_eq_div_pow] using congrArg BitVec.toNat h
  obtain rfl | rfl : imm = 0#8 ∨ imm = 1#8 := by bv_omega
  · rfl
  · rfl

/-- A field pair that decodes to a command without an operand is that command's (R74). -/
theorem fields_of_noOperand {opc imm : Byte} {i j : Instr} (h : noOperand opc imm j = .ok i)
    (hopc : opc = j.mnemonic.opc) (himm : j.imm = 0x00#8) : opc = i.mnemonic.opc ∧ imm = i.imm := by
  unfold noOperand at h
  split at h
  · next hzero =>
    cases h
    exact ⟨hopc, hzero.trans himm.symm⟩
  · cases h

/-- The fields that decode to a command are the ones its encoding has. -/
theorem fields_of_decodeFields {opc imm : Byte} {i : Instr} (h : decodeFields opc imm = .ok i) :
    opc = i.mnemonic.opc ∧ imm = i.imm := by
  unfold decodeFields at h
  split_ifs at h with hReset hWrb hRdb hRdrom hRdpwr hRec hRdy hAvg hAlrm hHigh
  · exact fields_of_noOperand h hReset rfl
  · cases h
    exact ⟨hWrb, rfl⟩
  · exact fields_of_noOperand h hRdb rfl
  · exact fields_of_noOperand h hRdrom rfl
  · exact fields_of_noOperand h hRdpwr rfl
  · exact fields_of_noOperand h hRec rfl
  · exact fields_of_noOperand h hRdy rfl
  · exact fields_of_noOperand h hAvg rfl
  · cases h
    exact ⟨hAlrm, imm_of_immHigh_eq_zero hHigh⟩

/-- A word that decodes to a command is its encoding. -/
theorem eq_encode_of_decode {w : CmdWord} {i : Instr} (h : decode w = .ok i) : w = encode i := by
  obtain ⟨hopc, himm⟩ := fields_of_decodeFields h
  rw [encode, ← hopc, ← himm, cmdWord_fields]

/-- Settles O12: a word that decodes has the fields of the command's encoding, and a word is its two fields. -/
theorem decodeAndEncodeAgree : Obligations.DecodeAndEncodeAgree := by
  intro w i
  refine ⟨eq_encode_of_decode, ?_⟩
  rintro rfl
  exact decode_encode i

/-! ## The rows of the opcode map, R72 -/

/-- The bits of IMM that must be 0 in a word of this mnemonic (R71, R74). -/
def Mnemonic.mustBeZero : Mnemonic → Byte
  | .owWrb => 0x00#8
  | .tmAlrm => 0xFE#8
  | .owReset | .owRdb | .owRdrom | .owRdpwr | .tmRec | .tmRdy | .tmAvg => 0xFF#8

/-- A row asks for its OPC, and for zeros where IMM must be 0. -/
theorem opcodeMap_bits : ∀ r ∈ opcodeMap,
    r.matchBits = cmdWord r.mnemonic.opc 0x00#8 ∧ r.mask = cmdWord 0xFF#8 r.mnemonic.mustBeZero := by
  decide

/-- Each mnemonic has a row. -/
theorem exists_row_of_mnemonic (m : Mnemonic) : ∃ r ∈ opcodeMap, r.mnemonic = m := by
  cases m <;> decide

/-- No two rows have the same mnemonic. -/
theorem opcodeMap_mnemonic_inj : ∀ r ∈ opcodeMap, ∀ r' ∈ opcodeMap, r'.mnemonic = r.mnemonic → r' = r := by
  decide

/-- Two command words are the same when their fields are. -/
theorem cmdWord_inj {opc opc' imm imm' : Byte} : cmdWord opc imm = cmdWord opc' imm' ↔ opc = opc' ∧ imm = imm' := by
  constructor
  · intro h
    exact ⟨by simpa using congrArg opcOf h, by simpa using congrArg immOf h⟩
  · rintro ⟨rfl, rfl⟩
    rfl

/-- A mask acts on the two fields apart. -/
theorem cmdWord_and (opc opc' imm imm' : Byte) :
    cmdWord opc imm &&& cmdWord opc' imm' = cmdWord (opc &&& opc') (imm &&& imm') :=
  BitVec.and_append

/-- A word matches a row when it has the row's OPC and zeros where IMM must be 0. -/
theorem matchesWord_iff_fields {r : OpcodeRow} (hr : r ∈ opcodeMap) (w : CmdWord) :
    r.matchesWord w = true ↔ opcOf w = r.mnemonic.opc ∧ immOf w &&& r.mnemonic.mustBeZero = 0x00#8 := by
  obtain ⟨hmatch, hmask⟩ := opcodeMap_bits r hr
  have hopc : opcOf w &&& 0xFF#8 = opcOf w := BitVec.and_allOnes
  rw [OpcodeRow.matchesWord, beq_iff_eq, hmatch, hmask, ← hopc, ← cmdWord_inj, ← cmdWord_and, cmdWord_fields]

/-- The mask of TM.ALRM keeps IMM[7:1]. -/
theorem immHigh_and_mustBeZero (imm : Byte) : immHigh (imm &&& Mnemonic.tmAlrm.mustBeZero) = immHigh imm := by
  rw [immHigh, BitVec.extractLsb'_and]
  exact BitVec.and_allOnes

/-- The commands of a mnemonic have the IMM values whose must-be-zero bits are 0. -/
theorem exists_imm_iff (m : Mnemonic) (imm : Byte) :
    (∃ i : Instr, i.mnemonic = m ∧ i.imm = imm) ↔ imm &&& m.mustBeZero = 0x00#8 := by
  constructor
  · rintro ⟨i, rfl, rfl⟩
    cases i with
    | owWrb b => exact BitVec.and_zero
    | tmAlrm a => cases a <;> rfl
    | _ => rfl
  · intro h
    have hzero (hm : m.mustBeZero = 0xFF#8) : 0x00#8 = imm := by
      rw [← h, hm]
      exact BitVec.and_allOnes
    cases m with
    | owWrb => exact ⟨.owWrb imm, rfl, rfl⟩
    | tmAlrm =>
      have hhigh : immHigh imm = 0#7 := by
        rw [← immHigh_and_mustBeZero, h]
        rfl
      exact ⟨.tmAlrm (attendedOf imm), rfl, (imm_of_immHigh_eq_zero hhigh).symm⟩
    | owReset => exact ⟨.owReset, rfl, hzero rfl⟩
    | owRdb => exact ⟨.owRdb, rfl, hzero rfl⟩
    | owRdrom => exact ⟨.owRdrom, rfl, hzero rfl⟩
    | owRdpwr => exact ⟨.owRdpwr, rfl, hzero rfl⟩
    | tmRec => exact ⟨.tmRec, rfl, hzero rfl⟩
    | tmRdy => exact ⟨.tmRdy, rfl, hzero rfl⟩
    | tmAvg => exact ⟨.tmAvg, rfl, hzero rfl⟩

/-- The words of a row are the encodings of its mnemonic's commands. -/
theorem matchesWord_iff_encode {r : OpcodeRow} (hr : r ∈ opcodeMap) (w : CmdWord) :
    r.matchesWord w = true ↔ ∃ i : Instr, i.mnemonic = r.mnemonic ∧ w = encode i := by
  rw [matchesWord_iff_fields hr, ← exists_imm_iff]
  constructor
  · rintro ⟨hopc, i, hm, himm⟩
    exact ⟨i, hm, by rw [encode, hm, himm, ← hopc, cmdWord_fields]⟩
  · rintro ⟨i, hm, rfl⟩
    exact ⟨by rw [encode, opcOf_cmdWord, hm], i, hm, by rw [encode, immOf_cmdWord]⟩

/-- Settles O13: the words of a row are encodings, and an encoding tells its command. -/
theorem decodeFollowsTheOpcodeMap : Obligations.DecodeFollowsTheOpcodeMap := by
  refine fun w => ⟨fun i h => ?_, ?_⟩
  · obtain rfl := eq_encode_of_decode h
    refine ⟨?_, ?_, ?_⟩
    · rintro b rfl
      exact (immOf_cmdWord _ b).symm
    · rintro a rfl
      cases a <;> rfl
    · obtain ⟨r, hr, hm⟩ := exists_row_of_mnemonic i.mnemonic
      refine ⟨r, hr, (matchesWord_iff_encode hr _).2 ⟨i, hm.symm, rfl⟩, hm, fun r' hr' hmatch => ?_⟩
      obtain ⟨j, hj, hword⟩ := (matchesWord_iff_encode hr' _).1 hmatch
      have hij : i = j := by simpa [hword, decode_encode] using h.symm
      exact opcodeMap_mnemonic_inj r hr r' hr' (by rw [← hj, ← hij, hm])
  · rintro ⟨r, hr, hmatch⟩
    obtain ⟨i, -, rfl⟩ := (matchesWord_iff_encode hr w).1 hmatch
    exact ⟨i, decode_encode i⟩

/-- Settles O11: each word is an encoding. -/
theorem wordsOfTheOpcodeMapDecode : Obligations.WordsOfTheOpcodeMapDecode :=
  ⟨decode_encode .owReset, decode_encode (.owWrb 0x33#8), decode_encode .owRdrom, decode_encode .tmRec,
    decode_encode (.tmAlrm false), decode_encode (.tmAlrm true)⟩

/-! ## Illegal words, R73 and R74 -/

/-- OPC of the word in the low bits of a register, as a number. -/
theorem opcOf_setWidth_toNat (v : Word) : (opcOf (v.setWidth 16)).toNat = v.toNat / 256 % 256 := by
  rw [opcOf, BitVec.extractLsb'_toNat, BitVec.toNat_setWidth, Nat.shiftRight_eq_div_pow]
  omega

/-- IMM of the word in the low bits of a register, as a number. -/
theorem immOf_setWidth_toNat (v : Word) : (immOf (v.setWidth 16)).toNat = v.toNat % 256 := by
  rw [immOf, BitVec.extractLsb'_toNat, BitVec.toNat_setWidth, Nat.shiftRight_zero]
  omega

/-- R73 and R74 as numbers: the opcode is in the map, and the IMM of a command holds no more than its operand. -/
theorem Instr.fields_legal (i : Instr) :
    i.mnemonic.opc.toNat ∈ [0x01, 0x02, 0x03, 0x04, 0x05, 0x11, 0x12, 0x13, 0x14] ∧
      (i.mnemonic.opc.toNat ∈ [0x01, 0x03, 0x04, 0x05, 0x11, 0x12, 0x13] → i.imm.toNat = 0) ∧
      (i.mnemonic.opc.toNat = 0x14 → i.imm.toNat / 2 = 0) := by
  cases i with
  | owWrb b => simp [Instr.mnemonic, Mnemonic.opc]
  | tmAlrm a => cases a <;> decide
  | _ => decide

end Sys2Proof

namespace Sys2Proof.Machine

/-- A CMD write to an idle block of the atomic model runs its word (R174). -/
theorem step_cmdWrite_atomic {s : State} {v : Word} {rest : List Event} (hw : s.params.WellFormed)
    (hr : s.rst = false) (hb : s.status.busy = false) (hg : s.grain = .atomic) (hp : s.pending = .write 0 v :: rest) :
    step s = execWord (v.setWidth 16) { s with pending := rest } := by
  rw [step_write hw hr hp]
  simp [writeRegister, onCmdWrite, hb, hg]

/-- A word that decodes to no command is rejected. -/
theorem execWord_illegal {w : CmdWord} (h : ∀ i, decode w ≠ .ok i) (s : State) :
    execWord w s = .next (rejectWord w s) := by
  unfold execWord
  split
  · next i hd => exact absurd hd (h i)
  · rfl

/-- Settles O14: a word with the fields of no command decodes to none, and rejecting it writes STATUS only. -/
theorem illegalWordOnlyFaults : Obligations.IllegalWordOnlyFaults := by
  intro s v rest hw hr hb hg hp hillegal
  have hdecode (i : Instr) : decode (v.setWidth 16) ≠ .ok i := by
    intro hd
    obtain ⟨hopc, himm⟩ := fields_of_decodeFields hd
    obtain ⟨hmap, hzero, hattended⟩ := i.fields_legal
    rw [← hopc, opcOf_setWidth_toNat] at hmap hzero hattended
    rw [← himm, immOf_setWidth_toNat] at hzero hattended
    rcases hillegal with h | ⟨h, hne⟩ | ⟨h, hne⟩
    · exact h hmap
    · exact hne (hzero h)
    · exact hne (hattended h)
  refine ⟨Sequencer.idle, rfl, ?_⟩
  rw [step_cmdWrite_atomic hw hr hb hg hp, execWord_illegal hdecode]
  rfl

/-! ## Lines of the assembler, R77 and R78 -/

/-- A mnemonic with an operand it takes names one of its commands, with that operand. -/
theorem commandOf_eq_some {m : Mnemonic} {o : Option Nat} (h : m.operandOk o = true) :
    ∃ i, commandOf m o = some i ∧ i.mnemonic = m ∧
      (∀ b, i = .owWrb b → o = some b.toNat) ∧ (∀ a, i = .tmAlrm a → o = some a.toNat) := by
  rw [commandOf.eq_def, if_pos h]
  cases m with
  | owWrb =>
    match o, h with
    | some n, h =>
      have hn : n ≤ 255 := of_decide_eq_true h
      refine ⟨_, rfl, rfl, ?_, nofun⟩
      rintro b ⟨⟩
      rw [Option.getD_some, BitVec.toNat_ofNat, Nat.mod_eq_of_lt (by omega)]
  | tmAlrm =>
    match o, h with
    | some n, h =>
      have hn : n ≤ 1 := of_decide_eq_true h
      refine ⟨_, rfl, rfl, nofun, ?_⟩
      rintro a ⟨⟩
      interval_cases n <;> rfl
  | _ => exact ⟨_, rfl, rfl, nofun, nofun⟩

/-- Settles O15, by the command that a well-formed mnemonic line names. -/
theorem assemblerLines : Obligations.AssemblerLines := by
  refine ⟨fun m o h => ?_, fun f => rfl, rfl⟩
  obtain ⟨i, hi, hspec⟩ := commandOf_eq_some h
  refine ⟨i, ?_, hspec⟩
  rw [assemble, if_pos h, hi]
  rfl

/-- Settles O10: the last read ends WAITDONE, any other leaves it to be served after the block has moved. -/
theorem waitDonePollsStatus : Obligations.WaitDonePollsStatus := by
  refine fun s rest hw hp => ⟨fun hd => ?_, fun hd => ?_⟩
  · rw [step_event hw hp]
    exact if_pos hd
  · refine .trans ?_ (step_event (by exact hw) rfl).symm
    rw [step_event hw hp]
    exact if_neg (Bool.eq_false_iff.1 hd)

end Sys2Proof.Machine
end


section
/-! PROOFS. The micro-operations of the bus driver (40_onewire_slots.md): which answers of the environment end a reset
pulse in which way, how often each micro-operation samples the line, how long a completed slot lasts, and that an idle
block acts only when the outside world does. -/

namespace Sys2Proof.Machine

/-! ## The outcome of a reset pulse, R102 -/

/-- NO_PRESENCE is the answer to a High presence sample only. -/
theorem resetPulse_noPresence_iff (p : Params) (b : Bus) :
    (resetPulse p b).1 = .error .noPresence ↔ b.answer 0 = .high := by
  refine ⟨fun ho => ?_, fun h => by rw [resetPulse_noPresence p h]⟩
  rcases presence_cases p b with h | ⟨n, h⟩ | h
  · exact h
  · rw [resetPulse_ok p h] at ho; cases ho
  · rw [resetPulse_stuck p h] at ho; cases ho

/-- Ok is the answer to a presence that ends in time only. -/
theorem resetPulse_ok_iff (p : Params) (b : Bus) :
    (resetPulse p b).1 = .ok () ↔ ∃ n, b.answersPresence p n := by
  refine ⟨fun ho => ?_, fun ⟨n, h⟩ => by rw [resetPulse_ok p h]⟩
  rcases presence_cases p b with h | h | h
  · rw [resetPulse_noPresence p h] at ho; cases ho
  · exact h
  · rw [resetPulse_stuck p h] at ho; cases ho

/-- BUS_CONTENTION is the answer to a line held low only. -/
theorem resetPulse_busContention_iff (p : Params) (b : Bus) :
    (resetPulse p b).1 = .error .busContention ↔ b.answersStuckLow p := by
  refine ⟨fun ho => ?_, fun h => by rw [resetPulse_stuck p h]⟩
  rcases presence_cases p b with h | ⟨n, h⟩ | h
  · rw [resetPulse_noPresence p h] at ho; cases ho
  · rw [resetPulse_ok p h] at ho; cases ho
  · exact h

/-- Settles O28, outcome by outcome. -/
theorem resetPulseOutcome : Obligations.ResetPulseOutcome := fun p b =>
  ⟨resetPulse_noPresence_iff p b, resetPulse_ok_iff p b, resetPulse_busContention_iff p b⟩

/-! ## The samples of a micro-operation, R111 -/

@[simp] theorem sampled_after (b : Bus) (n : Nat) (t : List LineAction) : (b.after n t).sampled = b.sampled + n := rfl

/-- A write-1 slot takes its check sample, whether it passes or fails (R103). -/
theorem writeSlot1_sampled (p : Params) (b : Bus) : (writeSlot1 p b).2.sampled = b.sampled + 1 := by
  rcases answer_low_or_high b 0 with h | h
  · rw [writeSlot1_low p h, sampled_after]
  · rw [writeSlot1_high p h, sampled_after]

/-- Settles O27: the outcome of a reset pulse tells the environment's answers, and these the samples taken. -/
theorem samplesPerMicroOperation : Obligations.SamplesPerMicroOperation := by
  refine fun p b => ⟨fun ho => ?_, fun n h => ?_, fun ho => ?_, writeSlot1_sampled p b, ?_, ?_⟩
  · rw [resetPulse_noPresence p ((resetPulse_noPresence_iff p b).1 ho), sampled_after]
  · rw [resetPulse_ok p h, sampled_after, Nat.add_comm 1]
    exact ⟨rfl, rfl⟩
  · rw [resetPulse_stuck p ((resetPulse_busContention_iff p b).1 ho), sampled_after, Nat.add_comm 1]
  · rw [writeSlot0_eq, sampled_after, Nat.add_zero]
  · rw [readSlot_eq, sampled_after]

/-! ## The duration of a slot, R108 -/

/-- Line actions lengthen the Wait time of the trace by that of their own. -/
theorem traceTime_after (b : Bus) (n : Nat) (t : List LineAction) :
    traceTime (b.after n t).trace = traceTime b.trace + traceTime t := traceTime_append ..

/-- A write-1 slot ends Ok only if its check sample read High (R103). -/
theorem answer_high_of_writeSlot1_ok {p : Params} {b : Bus} (ho : (writeSlot1 p b).1 = .ok ()) :
    b.answer 0 = .high := by
  rcases answer_low_or_high b 0 with h | h
  · rw [writeSlot1_low p h] at ho; cases ho
  · exact h

/-- Settles O26: the trace of each completed slot lasts `slotBound`. -/
theorem completedSlotDuration : Obligations.CompletedSlotDuration := by
  refine fun p b hw => ⟨fun ho => ?_, ?_, ?_⟩
  · rw [writeSlot1_high p (answer_high_of_writeSlot1_ok ho), traceTime_after, write1Trace_time hw, slotBound]
  · rw [writeSlot0_eq, traceTime_after, write0Trace_time hw, slotBound]
  · rw [readSlot_eq, traceTime_after, readSlotTrace_time hw, slotBound]

/-! ## An idle block, R101 and R200 -/

/-- Time passes an idle block by: no Wait runs, and no command has a next action. -/
theorem elapse_idle {s : State} (hi : s.seq.phase = .idle) : elapse s = .next s := by
  have hadvance : advance s = .next s := by rw [advance, hi]
  simp [elapse, hi, Phase.waits, hadvance]

/-- Settles O9: in both cases the step is `elapse` of an idle block. -/
theorem idleBlockDoesNothing : Obligations.IdleBlockDoesNothing := by
  refine fun s rest hw hi => ⟨fun hp => ?_, fun hp => ?_⟩
  · rw [step_eq_serve hw, serve, hp]
    exact elapse_idle hi
  · rw [step_event hw hp]
    exact elapse_idle (by exact hi)

end Sys2Proof.Machine
end


section
/-! PROOFS. CRC-8 and the bus commands (41_onewire_commands.md): the CRC register bit by bit, as an injective step and
as a division of polynomials, and each way a bus command can end, as a whole next state. -/

namespace Sys2Proof.Machine

/-! ## The CRC register, R120 -/

/-- The bits of a message in the order the bus carries them (R55, R120). -/
def bitsOf (bs : List Byte) : List Bool := bs.flatMap fun b => (List.range 8).map b.getLsbD

theorem crcByte_eq_foldl (c b : Byte) : crcByte c b = ((List.range 8).map b.getLsbD).foldl crcBit c := by
  rw [crcByte, List.foldl_map]

/-- The CRC of bytes runs over their bits, one after the other. -/
theorem crc8_eq_foldl (bs : List Byte) : crc8 bs = (bitsOf bs).foldl crcBit 0x00#8 := by
  rw [crc8, bitsOf, List.foldl_flatMap]
  simp only [← crcByte_eq_foldl]

theorem crc8_append_singleton (bs : List Byte) (b : Byte) : crc8 (bs ++ [b]) = crcByte (crc8 bs) b := by
  rw [crc8, List.foldl_append, List.foldl_cons, List.foldl_nil, crc8]

/-- A register that takes in its own low bit only shifts. -/
theorem crcBit_own_bit (c : Byte) : crcBit c (c.getLsbD 0) = c >>> 1 := by simp [crcBit]

/-- A register that takes in its own low bits, in order, shifts them out. -/
theorem foldl_crcBit_own_bits (c : Byte) (n : Nat) :
    (List.range n).foldl (fun d i => crcBit d (c.getLsbD i)) c = c >>> n := by
  induction n with
  | zero => simp
  | succ n ih =>
    have hbit : c.getLsbD n = (c >>> n).getLsbD 0 := by simp
    rw [List.range_succ, List.foldl_append, ih, List.foldl_cons, List.foldl_nil, hbit, crcBit_own_bit,
      ← BitVec.shiftRight_add]

theorem crcByte_self (c : Byte) : crcByte c c = 0x00#8 := by
  rw [crcByte, foldl_crcBit_own_bits]
  exact BitVec.ushiftRight_eq_zero (by simp)

/-- Settles O30: the last byte shifts the register out. -/
theorem crcOfAppendedCrcIsZero : Obligations.CrcOfAppendedCrcIsZero := fun bs => by
  rw [crc8_append_singleton, crcByte_self]

/-! ## The remainder by x^8 + x^5 + x^4 + 1, R120 -/

section
open Polynomial

/-- The polynomial of a CRC byte: the register is reflected, so bit i is the coefficient of x^(7-i). -/
noncomputable def crcPoly (c : Byte) : (ZMod 2)[X] :=
  ((List.range 8).map fun i => if c.getLsbD i then X ^ (7 - i) else 0).sum

/-- 0x31 with its leading term. -/
noncomputable def crcGenerator : (ZMod 2)[X] := X ^ 8 + X ^ 5 + X ^ 4 + 1

/-- A message with one more bit, its lowest coefficient. -/
noncomputable def appendCoeff (m : (ZMod 2)[X]) (v : Bool) : (ZMod 2)[X] := m * X + (if v then 1 else 0)

theorem crcPoly_zero : crcPoly 0x00#8 = 0 := by simp [crcPoly]

theorem crcPoly_xor (c d : Byte) : crcPoly (c ^^^ d) = crcPoly c + crcPoly d := by
  have hterm (i : Nat) : (if (c ^^^ d).getLsbD i then (X : (ZMod 2)[X]) ^ (7 - i) else 0) =
      (if c.getLsbD i then X ^ (7 - i) else 0) + (if d.getLsbD i then X ^ (7 - i) else 0) := by
    cases hc : c.getLsbD i <;> cases hd : d.getLsbD i <;> simp [hc, hd, CharTwo.add_self_eq_zero]
  simp only [crcPoly, hterm, List.sum_map_add]

/-- Multiplying by x shifts the register: bit 0 leaves it as the coefficient of x^8. -/
theorem crcPoly_mul_X (c : Byte) : crcPoly c * X = crcPoly (c >>> 1) + if c.getLsbD 0 then X ^ 8 else 0 := by
  simp [crcPoly, List.range, List.range.loop, add_mul, ite_mul, ← pow_succ, ← sq]
  ring

/-- The constant of R120 is what x^8 leaves when the generator is taken away. -/
theorem X_pow_eight : (X : (ZMod 2)[X]) ^ 8 = crcGenerator + crcPoly 0x8C#8 := by
  have hfeedback : crcPoly 0x8C#8 = X ^ 5 + X ^ 4 + 1 := by
    simp [crcPoly, List.range, List.range.loop]
    ring
  rw [hfeedback, crcGenerator]
  linear_combination (-(X ^ 5 + X ^ 4 + 1)) * CharTwo.two_eq_zero (R := (ZMod 2)[X])

/-- One bit of R120 is one step of the long division: the generator is taken away when bit 0 and the message's bit
differ. -/
theorem crcPoly_crcBit (c : Byte) (v : Bool) :
    crcPoly c * X + (if v then X ^ 8 else 0) =
      (if c.getLsbD 0 != v then crcGenerator else 0) + crcPoly (crcBit c v) := by
  rw [crcPoly_mul_X, crcBit]
  cases c.getLsbD 0 <;> cases v
  · simp
  · simp [crcPoly_xor, X_pow_eight, add_left_comm]
  · simp [crcPoly_xor, X_pow_eight, add_left_comm]
  · simp [add_assoc, CharTwo.add_self_eq_zero]

/-- A register that holds the remainder of `m * x^8` holds it after more bits of the message too. -/
theorem crcPoly_foldl_isRemainder (vs : List Bool) {m : (ZMod 2)[X]} {c : Byte}
    (h : ∃ q, m * X ^ 8 = q * crcGenerator + crcPoly c) :
    ∃ q, vs.foldl appendCoeff m * X ^ 8 = q * crcGenerator + crcPoly (vs.foldl crcBit c) := by
  induction vs generalizing m c with
  | nil => exact h
  | cons v vs ih =>
    obtain ⟨q, hq⟩ := h
    refine ih ⟨q * X + (if c.getLsbD 0 != v then 1 else 0), ?_⟩
    calc appendCoeff m v * X ^ 8
        = m * X ^ 8 * X + (if v then X ^ 8 else 0) := by cases v <;> simp [appendCoeff] <;> ring
      _ = q * X * crcGenerator + (crcPoly c * X + (if v then X ^ 8 else 0)) := by rw [hq]; ring
      _ = _ := by rw [crcPoly_crcBit]; split <;> ring

/-- Settles O31: from the empty message, each bit takes the division one step further. -/
theorem crcIsThePolynomialRemainder : Obligations.CrcIsThePolynomialRemainder := fun bs => by
  have h := crcPoly_foldl_isRemainder (bitsOf bs) (m := 0) (c := 0x00#8) ⟨0, by simp [crcPoly_zero]⟩
  rwa [← crc8_eq_foldl] at h

end

/-! ## One flipped bit, R122 -/

/-- The feedback shows in bit 7, into which the shift brings a 0. -/
theorem crcBit_getLsbD_seven (c : Byte) (v : Bool) : (crcBit c v).getLsbD 7 = (c.getLsbD 0 != v) := by
  cases hmix : c.getLsbD 0 != v <;> rw [crcBit, hmix] <;> simp

/-- The register before a bit can be told from the register after it. -/
theorem crcBit_injective (v : Bool) : Function.Injective (crcBit · v) := by
  intro c d (h : crcBit c v = crcBit d v)
  have h7 := congrArg (BitVec.getLsbD · 7) h
  simp only [crcBit_getLsbD_seven] at h7
  have h0 : c.getLsbD 0 = d.getLsbD 0 := by simpa using h7
  have hshift : c >>> 1 = d >>> 1 := by
    rw [crcBit, crcBit, h0] at h
    split at h <;> simpa using h
  refine BitVec.eq_of_getLsbD_eq fun i _ => ?_
  cases i with
  | zero => exact h0
  | succ i => simpa [Nat.add_comm] using congrArg (BitVec.getLsbD · i) hshift

theorem foldl_crcBit_injective (vs : List Bool) : Function.Injective (vs.foldl crcBit) := by
  induction vs with
  | nil => exact fun _ _ h => h
  | cons v vs ih => exact ih.comp (crcBit_injective v)

/-- Two messages that differ in one bit have different CRCs. -/
theorem foldl_crcBit_ne_of_flipped (pre post : List Bool) (v : Bool) (c : Byte) :
    (pre ++ (!v) :: post).foldl crcBit c ≠ (pre ++ v :: post).foldl crcBit c := by
  simp only [List.foldl_append, List.foldl_cons]
  intro h
  have h7 := congrArg (BitVec.getLsbD · 7) (foldl_crcBit_injective post h)
  simp only [crcBit_getLsbD_seven] at h7
  simp at h7

theorem crcByte_injective (b : Byte) : Function.Injective (crcByte · b) := by
  simpa only [crcByte_eq_foldl] using foldl_crcBit_injective _

/-- The 64 bits of a DeviceRom in the order they are received (R56, R121). -/
def romBits (r : Word) : List Bool := (List.range 64).map r.getLsbD

theorem bitsOf_romBytes (r : Word) : bitsOf (romPayload r ++ [romCrc r]) = romBits r := by
  simp [bitsOf, romPayload, romCrc, romBits, byteOf, List.range, List.range.loop]

/-- The CRC byte matches exactly when the CRC of all 64 bits is 0. -/
theorem romCrc_matches_iff (r : Word) :
    crc8 (romPayload r) = romCrc r ↔ (romBits r).foldl crcBit 0x00#8 = 0x00#8 := by
  rw [← bitsOf_romBytes, ← crc8_eq_foldl, crc8_append_singleton, ← crcByte_self (romCrc r)]
  exact (crcByte_injective _).eq_iff.symm

theorem romBits_split (r : Word) {j : Nat} (hj : j < 64) : romBits r =
    (List.range j).map r.getLsbD ++ r.getLsbD j :: (List.range' (j + 1) (63 - j)).map r.getLsbD := by
  have hrange : List.range 64 = List.range j ++ j :: List.range' (j + 1) (63 - j) := by
    have happend := List.range'_append_1 (s := 0) (m := j) (n := 63 - j + 1)
    rw [Nat.zero_add, List.range'_succ, show j + (63 - j + 1) = 64 by omega] at happend
    simpa only [List.range_eq_range'] using happend.symm
  rw [romBits, hrange, List.map_append, List.map_cons]

/-- A flipped bit of the value is a flipped bit of the message. -/
theorem romBits_flip (r : Word) {j : Nat} (hj : j < 64) : romBits (r ^^^ (1#64 <<< j)) =
    (List.range j).map r.getLsbD ++ (!r.getLsbD j) :: (List.range' (j + 1) (63 - j)).map r.getLsbD := by
  have hother : ∀ i, i ≠ j → (r ^^^ (1#64 <<< j)).getLsbD i = r.getLsbD i := by
    intro i hi
    have hbit : (1#64 <<< j).getLsbD i = false := by
      simp [BitVec.getLsbD_shiftLeft]
      omega
    rw [BitVec.getLsbD_xor, hbit, Bool.xor_false]
  have hsame : (r ^^^ (1#64 <<< j)).getLsbD j = !r.getLsbD j := by
    simp [hj]
  rw [romBits_split _ hj, hsame]
  congr 1
  · exact List.map_congr_left fun i hi => hother i (by simp at hi; omega)
  · congr 1
    exact List.map_congr_left fun i hi => hother i (by simp at hi; omega)

/-- Settles O32: the flipped value has another CRC over its 64 bits than the valid one, which has 0. -/
theorem singleBitErrorIsCrc : Obligations.SingleBitErrorIsCrc := by
  intro p r j hv hj
  have hvalid := (romCrc_matches_iff r).1 (validateRom_ok_iff.1 hv).1
  refine validateRom_crc fun hflip => ?_
  rw [romCrc_matches_iff, romBits_flip r hj] at hflip
  rw [romBits_split r hj] at hvalid
  exact foldl_crcBit_ne_of_flipped _ _ _ _ (hflip.trans hvalid.symm)

/-! ## Whole commands, by the end of their effect -/

section
variable {i : Instr} {s : State} {b : Bus} (hw : s.params.WellFormed)
include hw

/-- A command completes the state and the outcome that its effect ends in. -/
theorem exec_of_effect {r : State × CmdOutcome} (h : effectOf i (accept (encode i) s) = .ok r) :
    exec i s = .next (complete r.2 r.1) := by
  rw [exec_eq_runCommand, runCommand_eq hw, h, finish]

theorem exec_endProto {c : ProtoCode}
    (h : effectOf i (accept (encode i) s) = .ok (endProto c { accept (encode i) s with bus := b })) :
    ∃ q, q.phase = .idle ∧ exec i s = .next { s with status := s.status.endedProto c.code, seq := q, bus := b } :=
  ⟨_, rfl, exec_of_effect hw h⟩

theorem exec_noTransaction
    (h : effectOf i (accept (encode i) s) = .ok (accept (encode i) s, .fault .noTransaction)) :
    ∃ q, q.phase = .idle ∧ exec i s = .next { s with status := s.status.endedFault 0x9#4, seq := q } :=
  ⟨_, rfl, exec_of_effect hw h⟩

/-! ### OW.RESET, R123 -/

theorem exec_owReset_ok (h : resetPulse s.params s.bus = (.ok (), b)) :
    ∃ q, q.phase = .idle ∧
      exec .owReset s = .next { s with status := s.status.endedOk true, seq := q, bus := b } :=
  ⟨_, rfl, exec_of_effect hw (r := endOwReset { accept (encode .owReset) s with bus := b })
    (by simp only [effectOf, owResetEffect, accept_params, accept_bus, h])⟩

theorem exec_owReset_proto {c : ProtoCode} (h : resetPulse s.params s.bus = (.error c, b)) :
    ∃ q, q.phase = .idle ∧
      exec .owReset s = .next { s with status := s.status.endedProto c.code, seq := q, bus := b } :=
  exec_endProto hw (by simp only [effectOf, owResetEffect, accept_params, accept_bus, h])

/-! ### OW.WRB and OW.RDB, R124 and R125 -/

theorem exec_owWrb_ok {v : Byte} (ht : s.status.txn = true) (h : writeByte s.params v s.bus = (.ok (), b)) :
    ∃ q, q.phase = .idle ∧
      exec (.owWrb v) s = .next { s with status := s.status.endedOk true, seq := q, bus := b } := by
  rw [← ht]
  exact ⟨_, rfl, exec_of_effect hw (r := endOwWrb { accept (encode (.owWrb v)) s with bus := b })
    (by simp only [effectOf, owWrbEffect, accept_params, accept_bus, accept_status, ht, if_true, h])⟩

theorem exec_owWrb_proto {v : Byte} {c : ProtoCode} (ht : s.status.txn = true)
    (h : writeByte s.params v s.bus = (.error c, b)) :
    ∃ q, q.phase = .idle ∧
      exec (.owWrb v) s = .next { s with status := s.status.endedProto c.code, seq := q, bus := b } :=
  exec_endProto hw (by simp only [effectOf, owWrbEffect, accept_params, accept_bus, accept_status, ht, if_true, h])

theorem exec_owRdb_ok {r : Byte} (ht : s.status.txn = true) (h : readByte s.params s.bus = (r, b)) :
    ∃ q, q.phase = .idle ∧ exec .owRdb s = .next { s with
      result := r.setWidth 64, status := s.status.endedOk true, seq := q, bus := b } := by
  rw [← ht]
  exact ⟨_, rfl, exec_of_effect hw (r := endOwRdb r { accept (encode .owRdb) s with bus := b })
    (by simp only [effectOf, owRdbEffect, accept_params, accept_bus, accept_status, ht, if_true, h])⟩

/-! ### OW.RDROM and OW.RDPWR, R126 and R127 -/

/-- A failing reset pulse or command byte ends both commands. -/
theorem exec_readCommand_proto {v : Byte} {c : ProtoCode}
    (hi : (i = .owRdrom ∧ v = s.params.cmdReadRom) ∨ (i = .owRdpwr ∧ v = s.params.cmdReadPower))
    (h : resetAndWrite s.params v s.bus = (.error c, b)) :
    ∃ q, q.phase = .idle ∧
      exec i s = .next { s with status := s.status.endedProto c.code, seq := q, bus := b } := by
  refine exec_endProto hw ?_
  obtain ⟨rfl, rfl⟩ | ⟨rfl, rfl⟩ := hi
  · simp only [effectOf, owRdromEffect, accept_params, accept_bus, h]
  · simp only [effectOf, owRdpwrEffect, accept_params, accept_bus, h]

section
variable {b' : Bus}

theorem exec_owRdrom_invalid {r : Word} {c : ProtoCode}
    (h : resetAndWrite s.params s.params.cmdReadRom s.bus = (.ok (), b)) (hr : readRomBits s.params b = (r, b'))
    (hv : validateRom s.params r = .error c) :
    ∃ q, q.phase = .idle ∧
      exec .owRdrom s = .next { s with status := s.status.endedProto c.code, seq := q, bus := b' } :=
  exec_endProto hw (by
    simp only [effectOf, owRdromEffect, accept_params, accept_bus, h, hr, endOwRdrom, hv, endProto])

theorem exec_owRdrom_valid {r : Word}
    (h : resetAndWrite s.params s.params.cmdReadRom s.bus = (.ok (), b)) (hr : readRomBits s.params b = (r, b'))
    (hv : validateRom s.params r = .ok ()) :
    ∃ q, q.phase = .idle ∧ exec .owRdrom s = .next { s with
      rom := r, result := r, status := { s.status.endedOk false with romv := true }, seq := q, bus := b' } :=
  ⟨_, rfl, exec_of_effect hw
    (r := ({ accept (encode .owRdrom) s with
      bus := b', rom := r, result := r,
      status := { (accept (encode .owRdrom) s).status with txn := false, romv := true } }, .ok))
    (by simp only [effectOf, owRdromEffect, accept_params, accept_bus, h, hr, endOwRdrom, hv])⟩

theorem exec_owRdpwr_ok {v : Bool}
    (h : resetAndWrite s.params s.params.cmdReadPower s.bus = (.ok (), b)) (hr : readSlot s.params b = (v, b')) :
    ∃ q, q.phase = .idle ∧ exec .owRdpwr s = .next { s with
      result := zext1 v, status := s.status.endedOk false, seq := q, bus := b' } :=
  ⟨_, rfl, exec_of_effect hw (r := endOwRdpwr v { accept (encode .owRdpwr) s with bus := b' })
    (by simp only [effectOf, owRdpwrEffect, accept_params, accept_bus, h, hr])⟩

end
end

/-! ## Reads after other line actions -/

theorem readRomBits_after (p : Params) {b : Bus} {n : Nat} {r : Word} (h : b.answersLevels n (levelsOfRom r))
    (t : List LineAction) :
    readRomBits p (b.after n t) = (r, b.after (n + 64) (t ++ readTrace p (levelsOfRom r))) := by
  rw [readRomBits_levels p r (answersLevels_after.2 h), after_after]

theorem readSlot_after (p : Params) (b : Bus) (n : Nat) (t : List LineAction) : readSlot p (b.after n t) =
    (bitOf (b.answer n), b.after (n + 1) (t ++ readSlotTrace p (b.answer n))) := by
  rw [readSlot_eq, after_after, answer_after, Nat.add_zero]

/-! ## The statements on the bus commands -/

/-- Settles O33, by the three ends of a reset pulse. -/
theorem owResetRule : Obligations.OwResetRule := fun _ hw =>
  ⟨fun h => exec_owReset_proto hw (resetPulse_noPresence _ h), fun _ h => exec_owReset_ok hw (resetPulse_ok _ h),
    fun h => exec_owReset_proto hw (resetPulse_stuck _ h)⟩

/-- Settles O34, by the two ends of a byte. -/
theorem owWrbRule : Obligations.OwWrbRule := by
  refine fun s v hw => ⟨fun ht => ?_, fun ht hhigh => ?_, fun k hk ht hv hhigh hlow => ?_⟩
  · exact exec_noTransaction hw (by simp [effectOf, owWrbEffect, ht])
  · exact exec_owWrb_ok hw ht (writeBits_ok _ _ _ (.inr (by decide)) hhigh)
  · refine exec_owWrb_proto hw (c := .busContention) ht ?_
    rw [writeByte, range_eight_split hk, writeBits_fail _ _ _ _ _ hhigh hv hlow]

/-- Settles O35: a read of a byte has one end. -/
theorem owRdbRule : Obligations.OwRdbRule := by
  refine fun s hw => ⟨fun ht => ?_, fun r ht hl => ?_⟩
  · exact exec_noTransaction hw (by simp [effectOf, owRdbEffect, ht])
  · exact exec_owRdb_ok hw ht (readByte_levels _ r hl)

theorem resetAndWrite_of_reset_error {p : Params} {b b' : Bus} {c : ProtoCode} (v : Byte)
    (h : resetPulse p b = (.error c, b')) : resetAndWrite p v b = (.error c, b') := by
  rw [resetAndWrite, h]

/-- Settles O36: the head of both commands ends with its reset pulse. -/
theorem resetFailureEndsReadCommands : Obligations.ResetFailureEndsReadCommands := by
  intro i s hw hi
  have hv : ∃ v, (i = .owRdrom ∧ v = s.params.cmdReadRom) ∨ (i = .owRdpwr ∧ v = s.params.cmdReadPower) := by
    simpa [exists_or] using hi
  obtain ⟨v, hv⟩ := hv
  exact ⟨fun h => exec_readCommand_proto hw hv (resetAndWrite_of_reset_error v (resetPulse_noPresence _ h)),
    fun h => exec_readCommand_proto hw hv (resetAndWrite_of_reset_error v (resetPulse_stuck _ h))⟩

/-- Settles O37: the head of both commands ends at the failing bit. -/
theorem commandByteFailureEndsReadCommands : Obligations.CommandByteFailureEndsReadCommands :=
  fun _ _ _ _ _ hw hi hp hk hv hhigh hlow => exec_readCommand_proto hw hi (resetAndWrite_fail hp hk hv hhigh hlow)

/-- Settles O38: the whole transaction is read, then ValidateRom alone decides. -/
theorem owRdromRule : Obligations.OwRdromRule := by
  intro s n r hw hp hhigh hlevels b hb
  have hhead := resetAndWrite_ok hp hhigh
  have hread := readRomBits_after s.params hlevels
    (resetOkTrace s.params n ++ writeBitsTrace s.params s.params.cmdReadRom (List.range 8))
  rw [Nat.add_assoc (n + 2), List.append_assoc, ← hb] at hread
  exact ⟨fun hcrc => exec_owRdrom_invalid hw hhead hread (validateRom_crc hcrc),
    fun hcrc hfam => exec_owRdrom_invalid hw hhead hread (validateRom_family hcrc hfam),
    fun hcrc hfam => exec_owRdrom_valid hw hhead hread (validateRom_ok hcrc hfam)⟩

/-- Settles O39: one read slot after the head of the command. -/
theorem owRdpwrRule : Obligations.OwRdpwrRule := by
  intro s n hw hp hhigh l hl
  have hread := readSlot_after s.params s.bus (n + 2 + checksOf s.params.cmdReadPower (List.range 8))
    (resetOkTrace s.params n ++ writeBitsTrace s.params s.params.cmdReadPower (List.range 8))
  rw [← hl, Nat.add_assoc (n + 2), List.append_assoc] at hread
  cases l <;> exact exec_owRdpwr_ok hw (resetAndWrite_ok hp hhigh) hread

end Sys2Proof.Machine
end


section
/-! PROOFS. The thermal monitor (42_thermal_monitor.md): its four commands as whole next states, the history after any
samples recorded from reset, and the averages of samples that are not all finite numbers. -/

namespace Sys2Proof.Machine

/-! ## The monitor's commands, R153 to R156 -/

theorem tmAvgEffect_ready {s : State} {a : Word} (hf : s.fill = s.params.histN) (ha : avg s = .ok a) :
    tmAvgEffect s = .ok ({ s with
      result := avgBits s.nanDraws a
      nanDraws := if F64.isNaN a then s.nanDraws + 1 else s.nanDraws }, .ok) := by
  rw [tmAvgEffect, if_neg (not_not.2 hf), ha]

theorem tmAlrmEffect_decided {s : State} {attended v : Bool} (h : shouldAlarm attended s = .ok v) :
    tmAlrmEffect attended s = .ok ({ s with result := zext1 v }, .ok) := by
  rw [tmAlrmEffect, h]

section
variable {s : State} (hw : s.params.WellFormed)
include hw

/-- A command whose effect is to write RESULT. -/
theorem exec_writesResult {i : Instr} {r : Word}
    (h : effectOf i (accept (encode i) s) = .ok ({ accept (encode i) s with result := r }, .ok)) :
    ∃ q, q.phase = .idle ∧
      exec i s = .next { s with result := r, status := s.status.endedOk s.status.txn, seq := q } :=
  ⟨_, rfl, exec_of_effect hw h⟩

/-- TM.REC stores the DATA latched at its acceptance. -/
theorem exec_tmRec : exec .tmRec s = .next { s with
    slots := s.slots.set s.cursor.toNat (some s.data)
    cursor := nextCursor s.params s.cursor
    fill := nextFill s.params s.fill
    status := { s.status.endedOk s.status.txn with ready := readyFlag s.params (nextFill s.params s.fill) }
    seq := Sequencer.idle } := by
  rw [exec_eq_runCommand, runCommand_eq hw]
  rfl

theorem exec_tmAvg_notReady (hf : s.fill ≠ s.params.histN) :
    exec .tmAvg s = .next { s with status := s.status.endedFault 0x8#4, seq := Sequencer.idle } :=
  exec_of_effect hw (r := (accept (encode .tmAvg) s, .fault .notReady)) (if_pos hf)

theorem exec_tmAvg_ready {a : Word} (hf : s.fill = s.params.histN) (ha : avg s = .ok a) :
    exec .tmAvg s = .next { s with
      result := avgBits s.nanDraws a
      nanDraws := if F64.isNaN a then s.nanDraws + 1 else s.nanDraws
      status := s.status.endedOk s.status.txn
      seq := Sequencer.idle } :=
  exec_of_effect (i := .tmAvg) hw (tmAvgEffect_ready (s := accept (encode .tmAvg) s) hf ha)

/-- TM.ALRM makes RESULT the decision of R152. -/
theorem exec_tmAlrm {attended v : Bool} (h : shouldAlarm attended s = .ok v) :
    ∃ q, q.phase = .idle ∧ exec (.tmAlrm attended) s = .next { s with
      result := zext1 v, status := s.status.endedOk s.status.txn, seq := q } :=
  exec_writesResult hw (tmAlrmEffect_decided (s := accept (encode (.tmAlrm attended)) s) h)

end

theorem shouldAlarm_unready_or_attended {s : State} {attended : Bool}
    (h : s.fill ≠ s.params.histN ∨ attended = true) : shouldAlarm attended s = .ok false := by
  unfold shouldAlarm
  rcases h with hf | rfl
  · rw [if_pos hf]
  · split <;> rfl

theorem shouldAlarm_unattended {s : State} {a : Word} (hf : s.fill = s.params.histN) (ha : avg s = .ok a) :
    shouldAlarm false s = .ok (F64.ge a s.params.maxTemp) := by
  rw [shouldAlarm, if_neg (not_not.2 hf), if_neg Bool.false_ne_true, ha]

/-- Settles O42: the sample latched at acceptance is DATA, and the rest of the next state is that of `exec_tmRec`. -/
theorem tmRecRule : Obligations.TmRecRule := by
  rintro s hw _ rfl
  exact ⟨_, rfl, exec_tmRec hw⟩

/-- Settles O43: TM.RDY writes RESULT only, in every state. -/
theorem tmRdyRule : Obligations.TmRdyRule := by
  intro s hw
  have hzext : zext1 (s.fill == s.params.histN) = if s.fill = s.params.histN then 1#64 else 0#64 := by
    simp only [zext1, beq_iff_eq]
  rw [← hzext]
  exact exec_writesResult hw rfl

/-- Settles O44: a full history has the average of its values, and `avgBits` leaves it as it is unless it is a NaN. -/
theorem tmAvgRule : Obligations.TmAvgRule := by
  refine fun s hw => ⟨fun hf => ⟨_, rfl, exec_tmAvg_notReady hw hf⟩, ?_⟩
  rintro vs _ hf hl hs rfl
  rw [← hl]
  exact ⟨_, _, _, rfl, exec_tmAvg_ready hw hf (avg_full hl hs), avgBits_number _, avgBits_isNaN _⟩

/-- Settles O45: the command shows `shouldAlarm`, whose branches are those of R152. -/
theorem tmAlrmRule : Obligations.TmAlrmRule := by
  refine fun s attended hw => ⟨fun h => exec_tmAlrm hw (shouldAlarm_unready_or_attended h), ?_⟩
  rintro vs hf rfl hl hs
  rw [← hl]
  exact exec_tmAlrm hw (shouldAlarm_unattended hf (avg_full hl hs))

/-! ## The history after recorded samples, R157 -/

/-- The history is the one that the samples `vs`, recorded in this order from reset, leave. -/
structure State.HoldsLast (s : State) (vs : List Word) : Prop where
  fill : s.fill.toNat = min vs.length s.params.histN.toNat
  cursor : s.cursor.toNat = vs.length % s.params.histN.toNat
  slotCount : s.slots.length = s.params.histN.toNat
  recent : ∀ j v, vs[j]? = some v → vs.length ≤ j + s.params.histN.toNat →
    s.slots[j % s.params.histN.toNat]? = some (some v)

theorem resetWith_holdsLast (p : Params) : (State.resetWith p).HoldsLast [] where
  fill := by simp [State.resetWith]
  cursor := by simp [State.resetWith]
  slotCount := List.length_replicate
  recent := by simp

/-- Indices less than `n` apart have different slots. -/
theorem mod_ne_of_lt_add {j k n : Nat} (hjk : j < k) (hkn : k < j + n) : k % n ≠ j % n := fun h => by
  have hdvd : n ∣ k - j := (Nat.modEq_iff_dvd' hjk.le).1 h.symm
  have := Nat.le_of_dvd (by omega) hdvd
  omega

/-- The new sample takes the slot of the one recorded HIST_N samples before it, which is no longer among the last. -/
theorem State.HoldsLast.recordSample {s : State} {us : List Word} (h : s.HoldsLast us) (hw : s.params.WellFormed)
    (v : Word) : ∃ t, recordSample v s = .next t ∧ t.params = s.params ∧ t.HoldsLast (us ++ [v]) := by
  obtain ⟨-, -, -, -, hN⟩ := s.params.wellFormed_iff.1 hw
  refine ⟨_, exec_tmRec (s := { s with data := v }) hw, rfl, ?_⟩
  constructor
  case fill =>
    dsimp only
    rw [nextFill_toNat, h.fill, List.length_append, List.length_singleton]
    omega
  case cursor =>
    dsimp only
    rw [nextCursor_toNat hN, h.cursor, List.length_append, List.length_singleton, Nat.mod_add_mod]
  case slotCount => simpa using h.slotCount
  case recent =>
    intro j w hj hlast
    dsimp only at hlast ⊢
    rw [List.length_append, List.length_singleton] at hlast
    obtain hold | rfl | hout := Nat.lt_trichotomy j us.length
    · rw [List.getElem?_append_left hold] at hj
      rw [h.cursor, List.getElem?_set_ne (mod_ne_of_lt_add hold (by omega))]
      exact h.recent j w hj (by omega)
    · obtain rfl : v = w := by simpa using hj
      rw [h.cursor]
      exact List.getElem?_set_self (by rw [h.slotCount]; exact Nat.mod_lt _ hN)
    · rw [List.getElem?_eq_none (by simp; omega)] at hj
      cases hj

theorem State.HoldsLast.recordAll {s : State} {us : List Word} (h : s.HoldsLast us) (hw : s.params.WellFormed)
    (vs : List Word) : ∃ t, recordAll vs s = .next t ∧ t.params = s.params ∧ t.HoldsLast (us ++ vs) := by
  induction vs generalizing s us with
  | nil => exact ⟨s, rfl, rfl, by simpa using h⟩
  | cons v vs ih =>
    obtain ⟨u, hu, hup, hholds⟩ := h.recordSample hw v
    obtain ⟨t, ht, htp, hall⟩ := ih hholds (hup ▸ hw)
    rw [List.append_assoc, List.singleton_append] at hall
    exact ⟨t, by simp only [Machine.recordAll, hu, ht], htp.trans hup, hall⟩

/-- Settles O46, by induction on the samples: each recording keeps `HoldsLast`. -/
theorem historyHoldsTheMostRecent : Obligations.HistoryHoldsTheMostRecent := by
  intro p vs hw
  obtain ⟨t, ht, rfl, h⟩ := (resetWith_holdsLast p).recordAll hw vs
  exact ⟨t, ht, h.fill, h.cursor, h.slotCount, h.recent⟩

end Sys2Proof.Machine

namespace Sys2Proof.Machine.F64

/-! ## Sums with a NaN or an infinity, R151 -/

theorem isNaN_add {a b : Word} (h : isNaN a = true ∨ isNaN b = true) : isNaN (add a b) = true := by
  rw [add_nan h, isNaN_quietNaN]

theorem foldl_add_nan {a : Word} (ha : isNaN a = true) (vs : List Word) : isNaN (vs.foldl add a) = true := by
  induction vs generalizing a with
  | nil => exact ha
  | cons v vs ih => exact ih (isNaN_add (.inl ha))

/-- A NaN sample makes the sum a NaN, whatever stands before it. -/
theorem foldl_add_of_nan_mem {v : Word} (hv : isNaN v = true) {vs : List Word} (hmem : v ∈ vs) (a : Word) :
    isNaN (vs.foldl add a) = true := by
  obtain ⟨pre, post, rfl⟩ := List.append_of_mem hmem
  rw [List.foldl_append, List.foldl_cons]
  exact foldl_add_nan (isNaN_add (.inr hv)) post

/-- An infinity and anything have that infinity or a NaN for their sum, in either order. -/
theorem add_inf {x : Word} (hx : magBits x = infBits) (b : Word) :
    (add x b = x ∨ isNaN (add x b) = true) ∧ (add b x = x ∨ isNaN (add b x) = true) := by
  obtain ⟨-, hfin, hinfs, hnan⟩ := addRoundsTheExactSum x b
  obtain ⟨-, -, hinfs', hnan'⟩ := addRoundsTheExactSum b x
  obtain hb | hb | hb := Nat.lt_trichotomy (magBits b) infBits
  · exact (hfin hx hb).imp .inl .inl
  · by_cases hs : sign x = sign b
    · obtain rfl : b = x := by rw [← pack_parts b, ← pack_parts x, hs, hb, hx]
      exact ⟨.inl ((hinfs hx hb).1 rfl), .inl ((hinfs hx hb).1 rfl)⟩
    · exact ⟨.inr ((hinfs hx hb).2 hs), .inr ((hinfs' hb hx).2 (Ne.symm hs))⟩
  · exact ⟨.inr (hnan (.inr hb)), .inr (hnan' (.inl hb))⟩

/-- Once the sum is an infinity it stays that infinity or becomes a NaN. -/
theorem foldl_add_inf {x : Word} (hx : magBits x = infBits) (vs : List Word) :
    vs.foldl add x = x ∨ isNaN (vs.foldl add x) = true := by
  induction vs with
  | nil => exact .inl rfl
  | cons v vs ih =>
    rw [List.foldl_cons]
    obtain hsum | hnan := (add_inf hx v).1
    · rw [hsum]; exact ih
    · exact .inr (foldl_add_nan hnan vs)

/-- An infinity among the samples makes the sum that infinity or a NaN, whatever stands before it. -/
theorem foldl_add_of_inf_mem {x : Word} (hx : magBits x = infBits) {vs : List Word} (hmem : x ∈ vs) (a : Word) :
    vs.foldl add a = x ∨ isNaN (vs.foldl add a) = true := by
  obtain ⟨pre, post, rfl⟩ := List.append_of_mem hmem
  rw [List.foldl_append, List.foldl_cons]
  obtain hsum | hnan := (add_inf hx (pre.foldl add a)).2
  · rw [hsum]; exact foldl_add_inf hx post
  · exact .inr (foldl_add_nan hnan post)

/-- Both infinities among the samples make the sum a NaN. -/
theorem foldl_add_of_infs_mem {x y : Word} (hx : magBits x = infBits) (hy : magBits y = infBits) (hxy : x ≠ y)
    {vs : List Word} (hxm : x ∈ vs) (hym : y ∈ vs) (a : Word) : isNaN (vs.foldl add a) = true := by
  obtain hsx | hnan := foldl_add_of_inf_mem hx hxm a
  · obtain hsy | hnan := foldl_add_of_inf_mem hy hym a
    · exact absurd (hsx.symm.trans hsy) hxy
    · exact hnan
  · exact hnan

/-! ## Sums of numbers that are all on one side of zero -/

/-- A number, an infinity included, that is zero or has the sign `neg`. -/
structure OnSide (neg : Bool) (x : Word) : Prop where
  number : magBits x ≤ infBits
  side : magBits x ≠ 0 → sign x = neg

theorem OnSide.of_sign {neg : Bool} {x : Word} (h : isNaN x = false ∧ sign x = neg) : OnSide neg x :=
  ⟨by simpa [isNaN] using h.1, fun _ => h.2⟩

theorem OnSide.sign_of_inf {neg : Bool} {x : Word} (h : OnSide neg x) (hx : magBits x = infBits) : sign x = neg :=
  h.side (hx ▸ by decide)

theorem OnSide.valueOf_side {neg : Bool} {x : Word} (h : OnSide neg x) :
    if neg then valueOf x ≤ 0 else 0 ≤ valueOf x := by
  unfold valueOf
  by_cases h0 : magBits x = 0
  · simp [h0]
  · rw [h.side h0]
    cases neg <;> simp

/-- A sum of two finite values of the side `neg` that is not zero has the sign `neg`. -/
theorem OnSide.sum_sign {neg : Bool} {a b : Word} (ha : OnSide neg a) (hb : OnSide neg b)
    (h0 : valueOf a + valueOf b ≠ 0) : decide (valueOf a + valueOf b < 0) = neg := by
  have hva := ha.valueOf_side
  have hvb := hb.valueOf_side
  cases neg with
  | false =>
    rw [if_neg Bool.false_ne_true] at hva hvb
    exact decide_eq_false (by omega)
  | true =>
    rw [if_pos rfl] at hva hvb
    exact decide_eq_true (by omega)

theorem OnSide.add {neg : Bool} {a b : Word} (ha : OnSide neg a) (hb : OnSide neg b) : OnSide neg (add a b) := by
  obtain hfa | hia := ha.number.lt_or_eq <;> obtain hfb | hib := hb.number.lt_or_eq
  · rw [add_finite hfa hfb]
    constructor
    case number => rw [magBits_pack_roundMag]; exact roundMag_le ..
    case side =>
      rw [magBits_pack_roundMag, sign_pack]
      intro hmag
      have h0 : valueOf a + valueOf b ≠ 0 := fun h0 => hmag (by rw [h0]; exact roundMag_zero Nat.one_pos)
      rw [if_neg h0]
      exact ha.sum_sign hb h0
  · rwa [add_finite_inf hfa hib]
  · rwa [add_inf_finite hia hfb]
  · rwa [add_inf_same hia hib ((ha.sign_of_inf hia).trans (hb.sign_of_inf hib).symm)]

theorem OnSide.foldl_add {neg : Bool} {a : Word} (ha : OnSide neg a) {vs : List Word} (h : ∀ v ∈ vs, OnSide neg v) :
    OnSide neg (vs.foldl F64.add a) := by
  induction vs generalizing a with
  | nil => exact ha
  | cons v vs ih =>
    rw [List.forall_mem_cons] at h
    exact ih (ha.add h.1) h.2

/-! ## Averages in the corner cases, R151 and R152 -/

/-- The number of samples converts to a finite number that is not negative, and that is zero only for no samples. -/
theorem ofNat_count {n : Nat} (hn : n ≤ 65535) :
    magBits (ofNat n) < infBits ∧ sign (ofNat n) = false ∧ (magBits (ofNat n) = 0 → n = 0) := by
  obtain ⟨hfin, hsign, hval⟩ := divRoundsTheExactQuotient.2 n (by omega)
  refine ⟨hfin, hsign, fun h0 => ?_⟩
  have hzero : valueOf (ofNat n) = 0 := by simp [valueOf, h0]
  rw [hzero] at hval
  exact Int.natCast_eq_zero.1 ((mul_eq_zero.1 hval.symm).resolve_right (pow_ne_zero _ two_ne_zero))

/-- The infinity of sign `neg` among samples of that side is their average. -/
theorem mean_eq_inf {neg : Bool} {vs : List Word} (hlen : vs.length ≤ 65535)
    (hside : ∀ v ∈ vs, isNaN v = false ∧ sign v = neg) (hmem : pack neg infBits ∈ vs) :
    mean vs = pack neg infBits := by
  have hinf := magBits_pack_infBits neg
  have hzero : OnSide neg 0#64 := ⟨by decide, fun h => absurd rfl h⟩
  have hnumber := isNaN_of_le (hzero.foldl_add fun v hv => .of_sign (hside v hv)).number
  obtain hsum | hnan := foldl_add_of_inf_mem hinf hmem 0#64
  · obtain ⟨hfin, hpos, -⟩ := ofNat_count hlen
    rw [mean, hsum, div_inf_finite hinf hfin, hpos, sign_pack, Bool.bne_false]
  · simp [hnan] at hnumber

/-- A zero sum of samples averages to itself. -/
theorem zero_div_count {n : Nat} (h1 : 1 ≤ n) (hn : n ≤ 65535) : div 0#64 (ofNat n) = 0#64 := by
  obtain ⟨hfin, hpos, h0⟩ := ofNat_count hn
  have hb : magBits (ofNat n) ≠ 0 := fun h => by have := h0 h; omega
  have hden : 0 < unitsOfMag (magBits (ofNat n)) := Nat.pos_of_ne_zero (mt unitsOfMag_eq_zero_iff.1 hb)
  have hz : unitsOfMag (magBits 0#64) = 0 := by decide
  rw [div_finite (by decide) hfin hb, hz, Nat.zero_mul, roundMag_zero hden, hpos]
  rfl

theorem foldl_add_negZeros (n : Nat) : (List.replicate n 0x8000000000000000#64).foldl add 0#64 = 0#64 := by
  induction n with
  | zero => rfl
  | succ n ih =>
    have hstep : add 0#64 0x8000000000000000#64 = 0#64 := by decide
    rw [List.replicate_succ, List.foldl_cons, hstep, ih]

/-- The place of a number is between those of the infinities, and only −∞ has its own. -/
theorem orderKey_range {m : Word} (hm : magBits m ≤ infBits) :
    orderKey m ≤ infBits ∧ (orderKey m ≤ -infBits → m = pack true infBits) := by
  have hpos : 0 < infBits := by decide
  unfold orderKey
  cases hs : sign m with
  | false =>
    rw [if_neg Bool.false_ne_true]
    omega
  | true =>
    rw [if_pos rfl]
    refine ⟨by omega, fun hle => ?_⟩
    have hmag : magBits m = infBits := by omega
    rw [← pack_parts m, hs, hmag]

theorem orderKey_inf (neg : Bool) :
    orderKey (pack neg infBits) = if neg then -(infBits : Int) else (infBits : Int) := by
  rw [orderKey, sign_pack, magBits_pack_infBits]

/-- Every number is at most +∞. -/
theorem ge_posInf {m : Word} (hm : isNaN m = false) : ge (pack false infBits) m = true := by
  have hle : magBits m ≤ infBits := by simpa [isNaN] using hm
  have hkey : orderKey m ≤ orderKey (pack false infBits) := (orderKey_range hle).1
  simp [ge, hm, isNaN_of_le (magBits_pack_infBits false).le, hkey]

/-- −∞ is at least itself only. -/
theorem ge_negInf {m : Word} (hm : m ≠ pack true infBits) : ge (pack true infBits) m = false := by
  rw [Bool.eq_false_iff]
  intro hge
  obtain ⟨hle, hkey⟩ : magBits m ≤ infBits ∧ orderKey m ≤ orderKey (pack true infBits) := by
    simpa [ge, isNaN] using hge
  rw [orderKey_inf, if_pos rfl] at hkey
  exact hm ((orderKey_range hle).2 hkey)

/-- Settles O48: a NaN or both infinities make the sum a NaN, samples −0.0 leave it +0.0, and one infinity among samples
of its side is the sum and the average. -/
theorem averageCornerCases : Obligations.AverageCornerCases := by
  have hpos : pack false infBits = 0x7FF0000000000000#64 := by decide
  have hneg : pack true infBits = 0xFFF0000000000000#64 := by decide
  rw [Obligations.AverageCornerCases, ← hpos, ← hneg]
  refine ⟨fun vs h => ?_, fun n h1 hn => ?_, fun vs hlen hside hmem => ⟨mean_eq_inf hlen hside hmem, fun _ => ge_posInf⟩,
    fun vs hlen hside hmem => ⟨mean_eq_inf hlen hside hmem, fun _ => ge_negInf⟩⟩
  · have hsum : isNaN (vs.foldl add 0#64) = true := by
      obtain ⟨v, hmem, hv⟩ | ⟨hp, hn⟩ := h
      · exact foldl_add_of_nan_mem hv hmem _
      · exact foldl_add_of_infs_mem (magBits_pack_infBits _) (magBits_pack_infBits _) (by decide) hp hn _
    rw [div_nan (.inl hsum), isNaN_quietNaN]
  · rw [foldl_add_negZeros, zero_div_count h1 hn]

end Sys2Proof.Machine.F64
end


section
/-! PROOFS. Faults and protocol errors (60_exceptions.md): what the end of a command records in STATUS, that the first
fault stays and that a run which keeps the contract has none, the acceptance of a command, and that the cycle-level
sequencer ends where the atomic command does. -/

namespace Sys2Proof.Machine

/-! ## The fault fields at the end of a command, R172 and R175 -/

/-- A command's own effect records no fault: completion does (R175). -/
theorem Ends.fault_eq {i : Instr} {s u : State} {o : CmdOutcome} (h : Ends i s u o) :
    u.status.fault = s.status.fault ∧ u.status.fcause = s.status.fcause := by
  cases h <;> exact ⟨rfl, rfl⟩

/-- Completion keeps a recorded fault and its cause, whatever the outcome (R172). -/
theorem complete_keeps_fault {u : State} (h : u.status.fault = true) (o : CmdOutcome) :
    (complete o u).status.fault = true ∧ (complete o u).status.fcause = u.status.fcause := by
  cases o with
  | ok => exact ⟨h, rfl⟩
  | proto c => exact ⟨h, rfl⟩
  | fault f => exact ⟨rfl, if_pos h⟩

/-- So does a whole command, from its acceptance on. -/
theorem Ends.keeps_fault {i : Instr} {s u : State} {o : CmdOutcome} (h : Ends i s u o) (hs : s.status.fault = true) :
    (complete o u).status.fault = true ∧ (complete o u).status.fcause = s.status.fcause := by
  obtain ⟨hfault, hcause⟩ := h.fault_eq
  exact hcause ▸ complete_keeps_fault (hfault.trans hs) o

/-- Completion records a fault only if the outcome is one (R175). -/
theorem complete_fault_eq {o : CmdOutcome} (h : ∀ f, o ≠ .fault f) (u : State) :
    (complete o u).status.fault = u.status.fault := by
  cases o with
  | ok => rfl
  | proto c => rfl
  | fault f => exact absurd rfl (h f)

/-- The codes of R170 tell faults from other outcomes. -/
theorem exists_fault_of_code {o : CmdOutcome} (h : 0x8#4 ≤ o.code) : ∃ f, o = .fault f := by
  cases o with
  | ok => exact absurd h (by decide)
  | proto c => exact absurd h (by cases c <;> decide)
  | fault f => exact ⟨f, rfl⟩

/-- The codes of R170 tell protocol errors from other outcomes. -/
theorem exists_proto_of_code {o : CmdOutcome} (h0 : o.code ≠ 0x0#4) (h8 : o.code < 0x8#4) : ∃ c, o = .proto c := by
  cases o with
  | ok => exact absurd rfl h0
  | proto c => exact ⟨c, rfl⟩
  | fault f => exact absurd h8 (by cases f <;> decide)

/-- A fault is found before the first line action, and the effect leaves the state as it was (R173, R177). -/
theorem Ends.eq_of_fault {i : Instr} {s u : State} {f : FaultCode} (h : Ends i s u (.fault f)) : u = s := by
  cases h <;> rfl

/-- A protocol error comes from a bus command, and its effect changes the bus and TXN only (R176). -/
theorem Ends.eq_of_proto {i : Instr} {s u : State} {c : ProtoCode} (h : Ends i s u (.proto c)) :
    onMonitor i = false ∧ u = { s with bus := u.bus, status := { s.status with txn := false } } := by
  cases h with
  | proto _ b hi => exact ⟨by rcases hi with rfl | ⟨v, rfl⟩ | rfl | rfl <;> rfl, rfl⟩

/-- Settles O19: of all events only a hardware reset clears FAULT, and recording keeps the first cause. -/
theorem firstFaultStays : Obligations.FirstFaultStays := by
  intro s t hstep hn hs
  cases (step_steps hstep).2 with
  | outside ps rs hr => exact ⟨hs, rfl⟩
  | data ps rs v hp hr => exact ⟨hs, rfl⟩
  | reset ps rs l hp => exact absurd (by simp [hp]) (hn l)
  | overrun ps rs v hp hb hr => exact ⟨rfl, if_pos hs⟩
  | accepted ps rs v hp hb hr => exact ⟨hs, rfl⟩
  | illegal ps rs v r hp hb hr hd => exact complete_keeps_fault (u := accept _ (s.outside ps rs)) hs _
  | command ps rs v i _ hp hb hr hd he =>
    obtain ⟨-, u, o, hends, -, rfl⟩ := exec_ends he
    exact (hends.keeps_fault hs :)
  | tick ps rs hn hr hw ht => exact ⟨hs, rfl⟩
  | moves ps rs _ hn hr hm =>
    cases hm with
    | idle hp => exact ⟨hs, rfl⟩
    | goesOn b q hp hq hd hc hl hk => exact ⟨hs, rfl⟩
    | illegal hp r hd => exact complete_keeps_fault (u := s.outside ps rs) hs _
    | endsAtOnce i u o hp hd he hb hi => exact (he.keeps_fault hs :)
    | ends i u o hp hd hi he hl hreset hmon hfault => exact (he.keeps_fault hs :)

/-- Settles O20: a fault leaves the accepted state to completion, which writes STATUS. -/
theorem faultingCommandWritesOnlyStatus : Obligations.FaultingCommandWritesOnlyStatus := by
  intro i s t h herr
  obtain ⟨-, u, o, he, -, rfl⟩ := exec_ends h
  rw [complete_err] at herr ⊢
  obtain ⟨f, rfl⟩ := exists_fault_of_code herr
  rw [he.eq_of_fault]
  exact ⟨Sequencer.idle, rfl, rfl⟩

/-- Settles O21: a bus command that fails has acted on the line, as every one of its ends does, and has closed the
transaction. -/
theorem protocolErrorIsPrecise : Obligations.ProtocolErrorIsPrecise := by
  intro i s t h h0 h8
  obtain ⟨-, u, o, he, hbus, rfl⟩ := exec_ends h
  rw [complete_err] at h0 h8
  obtain ⟨c, rfl⟩ := exists_proto_of_code h0 h8
  obtain ⟨hmon, hu⟩ := he.eq_of_proto
  obtain ⟨-, hno | ⟨f, hno⟩⟩ | ⟨n, tr, hb, -, -⟩ := hbus
  · simp [hmon] at hno
  · cases hno
  · rw [hu, hb]
    exact ⟨rfl, ⟨tr, rfl⟩, rfl, rfl, rfl, rfl, rfl, rfl, rfl, rfl⟩

/-! ## Runs that keep the contract, R171 -/

/-- A command that meets its contract ends in no fault (R203). -/
theorem Ends.ne_fault_of_meetsContract {i : Instr} {s u : State} {o : CmdOutcome} {w : CmdWord} (h : Ends i s u o)
    (hd : decode w = .ok i) (hm : meetsContract w s = true) (f : FaultCode) : o ≠ .fault f := by
  cases h with
  | noTransaction hi ht => rcases hi with ⟨v, rfl⟩ | rfl <;> simp [meetsContract, hd, ht] at hm
  | notReady hi hf => simp [meetsContract, hd, hi, hf] at hm
  | _ => simp

/-- A word that is no command meets no contract (R73, R74). -/
theorem not_meetsContract_of_reject {w : CmdWord} {r : Reject} (hd : decode w = .error r) (s : State) :
    ¬ meetsContract w s = true := by
  simp [meetsContract, hd]

/-- A command that ends without a fault leaves an unfaulted, idle block. -/
theorem Ends.onContract {i : Instr} {s u : State} {o : CmdOutcome} (h : Ends i s u o) (ho : ∀ f, o ≠ .fault f)
    (hs : s.unfaulted = true) : (complete o u).onContract :=
  ⟨by rw [State.unfaulted, complete_fault_eq ho, h.fault_eq.1]; exact hs, by simp [Sequencer.idle]⟩

/-- Settles O58: only a CMD write that breaks the contract, at once or when it is decoded, records a fault. -/
theorem contractKeepsTheRunUnfaulted : Obligations.ContractKeepsTheRunUnfaulted := by
  rintro s t ⟨hs, hdispatch⟩ hkeeps hstep
  have written {v : Word} {ps : List Event} (hp : s.pending = .write 0 v :: ps) :
      s.status.busy = false ∧ meetsContract (v.setWidth 16) s = true := by
    simpa [hp, Event.keepsContract] using hkeeps
  cases (step_steps hstep).2 with
  | outside ps rs hr => exact ⟨hs, hdispatch⟩
  | data ps rs v hp hr => exact ⟨hs, hdispatch⟩
  | reset ps rs l hp => exact ⟨rfl, nofun⟩
  | overrun ps rs v hp hb hr => simp [(written hp).1] at hb
  | accepted ps rs v hp hb hr => exact ⟨hs, fun _ => (written hp).2⟩
  | illegal ps rs v r hp hb hr hd => exact absurd (written hp).2 (not_meetsContract_of_reject hd s)
  | command ps rs v i _ hp hb hr hd he =>
    obtain ⟨-, u, o, hends, -, rfl⟩ := exec_ends he
    exact hends.onContract (hends.ne_fault_of_meetsContract hd (written hp).2) hs
  | tick ps rs hn hr hw ht => exact ⟨hs, hdispatch⟩
  | moves ps rs _ hn hr hm =>
    cases hm with
    | idle hp => exact ⟨hs, hdispatch⟩
    | goesOn b q hp hq hd hc hl hk => exact ⟨hs, fun h => absurd h hd⟩
    | illegal hp r hd => exact absurd (hdispatch hp) (not_meetsContract_of_reject hd s)
    | endsAtOnce i u o hp hd he hb hi =>
      exact he.onContract (he.ne_fault_of_meetsContract hd (hdispatch hp)) hs
    | ends i u o hp hd hi he hl hreset hmon hfault => exact he.onContract hfault hs

/-! ## A write to CMD, R174 -/

/-- Settles O16: an idle block of the atomic model runs the word, and the word is a command. -/
theorem stepRunsTheDecodedCommand : Obligations.StepRunsTheDecodedCommand := by
  intro s v rest i hw hr hb hg hp hd
  rw [step_cmdWrite_atomic hw hr hb hg hp, execWord, hd]

/-- Settles O17: a busy block looks at BUSY only, in both models. -/
theorem writeWhileBusyIsOverrun : Obligations.WriteWhileBusyIsOverrun := by
  intro s v rest hw hr hb hp
  rw [step_write hw hr hp]
  exact if_pos hb

/-- Settles O18: the cycle-level model accepts the word and does no more. -/
theorem cycleLevelAcceptance : Obligations.CycleLevelAcceptance := by
  intro s v rest hw hr hb hg hp
  have hstep : step s = .next (accept (v.setWidth 16) { s with pending := rest }) := by
    rw [step_write hw hr hp]
    simp [writeRegister, onCmdWrite, hb, hg]
  exact ⟨(accept (v.setWidth 16) s).seq, hstep, nofun, rfl, rfl⟩

/-! ## The sequencer and the atomic command, R174 and R213 -/

theorem Leads.congr {n : Nat} {s : State} {o o' : Host.Outcome State Fault Refusal} (h : Leads n s o) (ho : o = o') :
    Leads n s o' := ho ▸ h

/-- The steps of a reset pulse at most: its ticks (R212), a move for each poll, and three moves more. -/
def resetSteps (p : Params) : Nat := resetBound p + p.nPresPoll.toNat + 3

/-- The steps of a command at most: the ticks of R213, a move for each poll, and room for the other moves (OW.RDROM has
the most, 285). -/
def commandSteps (p : Params) : Nat := resetBound p + p.nPresPoll.toNat + 72 * slotBound p + 300

section
variable {s : State} (h : Alone s)
include h

/-- The first action of an accepted command is its dispatch. -/
theorem leads_dispatch (hp : s.seq.phase = .dispatch) : Leads 1 s (dispatch s) := by
  have hl := leads_action h (.inl (by rw [hp]; rfl))
  rwa [advance, hp] at hl

/-- The sequencer of an OW.RESET has its effect (R123). -/
theorem owReset_leads (hd : decode s.seq.cmd = .ok .owReset) :
    Leads (resetSteps s.params) (startReset s) (finish (owResetEffect s)) := by
  obtain ⟨pc, hl⟩ := startReset_leads s h
  rcases he : resetPulse s.params s.bus with ⟨_ | _, b⟩ <;>
    simp only [owResetEffect, he, afterReset, hd] at hl ⊢ <;> exact hl

/-- The sequencer of an OW.WRB with an open transaction has its effect (R124). -/
theorem owWrb_leads {v : Byte} (hd : decode s.seq.cmd = .ok (.owWrb v)) (ht : s.status.txn = true) :
    Leads (8 * (slotBound s.params + 3)) (startWriting v s) (finish (owWrbEffect v s)) := by
  have hl := writeByte_leads v s h
  rw [owWrbEffect, if_pos ht]
  rcases he : writeByte s.params v s.bus with ⟨_ | _, b⟩ <;> simp only [he, afterWrite, hd] at hl ⊢ <;> exact hl

/-- The sequencer of an OW.RDB with an open transaction has its effect (R125). -/
theorem owRdb_leads (hd : decode s.seq.cmd = .ok .owRdb) (ht : s.status.txn = true) :
    Leads (8 * (slotBound s.params + 4)) (startReading s) (finish (owRdbEffect s)) := by
  have hl := readBits_leads 7 0 rfl { s with seq := { s.seq with reading := true, bitcnt := 0#3, shift := 0#8 } } h rfl
    (by simp only [hd]; nofun) rfl
  rw [owRdbEffect, if_pos ht]
  simp only [afterRead, hd] at hl
  exact hl

/-- The sequencer of an OW.RDROM has its effect (R126). -/
theorem owRdrom_leads (hd : decode s.seq.cmd = .ok .owRdrom) :
    Leads (resetSteps s.params + 8 * (slotBound s.params + 3) + (8 * (8 * (slotBound s.params + 4)) + 1)) (startReset s)
      (finish (owRdromEffect s)) := by
  obtain ⟨pc, hl⟩ := resetAndWrite_leads s.params.cmdReadRom s h (.inl ⟨hd, rfl⟩)
  rcases he : resetAndWrite s.params s.params.cmdReadRom s.bus with ⟨_ | _, b⟩ <;>
    simp only [owRdromEffect, he, afterWrite, hd] at hl ⊢
  · exact hl.mono (Nat.le_add_right _ _)
  · have hread := readBytes_leads 7 0 rfl { s with
      bus := b
      seq := { s.seq with
        phase := .slotRecovery
        reading := true
        bitcnt := 0#3
        bytecnt := 0#3
        shift := 0#8
        romacc := 0#64
        pollcnt := pc } } h rfl hd rfl rfl rfl
    have hbits : readBytes s.params (List.range' 0 8) 0#64 b = readRomBits s.params b := by
      rw [readRomBits, List.range_eq_range']
    simp only [Nat.reduceAdd, hbits] at hread
    exact (hl.trans hread).congr
      (finish_rdrom_seq (readRomBits s.params b).1 { s with bus := (readRomBits s.params b).2 } _)

/-- The sequencer of an OW.RDPWR has its effect (R127). -/
theorem owRdpwr_leads (hd : decode s.seq.cmd = .ok .owRdpwr) :
    Leads (resetSteps s.params + 8 * (slotBound s.params + 3) + (slotBound s.params + 4)) (startReset s)
      (finish (owRdpwrEffect s)) := by
  obtain ⟨pc, hl⟩ := resetAndWrite_leads s.params.cmdReadPower s h (.inr ⟨hd, rfl⟩)
  rcases he : resetAndWrite s.params s.params.cmdReadPower s.bus with ⟨_ | _, b⟩ <;>
    simp only [owRdpwrEffect, he, afterWrite, hd] at hl ⊢
  · exact hl.mono (Nat.le_add_right _ _)
  · exact hl.trans (readOne_leads { s with
      bus := b
      seq := { s.seq with
        phase := .slotRecovery
        reading := true
        bitcnt := 0#3
        shift := 0#8
        pollcnt := pc } } h rfl hd rfl rfl)

/-- An accepted command, left alone, ends as its effect and completion say. -/
theorem command_leads {i : Instr} (hp : s.seq.phase = .dispatch) (hd : decode s.seq.cmd = .ok i) :
    Leads (commandSteps s.params) s (finish (effectOf i s)) := by
  have hl := leads_dispatch h hp
  unfold dispatch at hl
  rw [hd] at hl
  have atOnce (hf : Leads 1 s (finish (effectOf i s))) : Leads (commandSteps s.params) s (finish (effectOf i s)) :=
    hf.mono (Nat.le_add_left 1 _)
  cases i with
  | owReset => exact (hl.trans (owReset_leads h hd)).mono (by simp only [resetSteps, commandSteps]; omega)
  | owWrb v =>
    dsimp only at hl
    split at hl
    · next ht => exact (hl.trans (owWrb_leads h hd ht)).mono (by simp only [commandSteps]; omega)
    · next ht => exact atOnce (by rwa [effectOf, owWrbEffect, if_neg ht])
  | owRdb =>
    dsimp only at hl
    split at hl
    · next ht => exact (hl.trans (owRdb_leads h hd ht)).mono (by simp only [commandSteps]; omega)
    · next ht => exact atOnce (by rwa [effectOf, owRdbEffect, if_neg ht])
  | owRdrom => exact (hl.trans (owRdrom_leads h hd)).mono (by simp only [resetSteps, commandSteps]; omega)
  | owRdpwr => exact (hl.trans (owRdpwr_leads h hd)).mono (by simp only [resetSteps, commandSteps]; omega)
  | tmRec => exact atOnce hl
  | tmRdy => exact atOnce hl
  | tmAvg => exact atOnce hl
  | tmAlrm a => exact atOnce hl

end

/-- Settles O60: a word is rejected at its dispatch, and a command ends with its effect. -/
theorem sequencerRefinesTheAtomicCommand : Obligations.SequencerRefinesTheAtomicCommand := by
  intro s w hw hr hp _
  have h : Alone (accept w s) := ⟨hw, hp, hr⟩
  have key : Leads (commandSteps s.params) (accept w s) (execWord w s) := by
    cases hd : decode w with
    | error r =>
      have hl := leads_dispatch h rfl
      simp only [dispatch, accept_seq, hd] at hl
      exact (hl.congr (by rw [execWord, hd]; rfl)).mono (Nat.le_add_left 1 _)
    | ok i =>
      obtain rfl : w = encode i := eq_encode_of_decode hd
      exact (command_leads h rfl hd).congr
        (by rw [execWord, hd]; simp only [exec_eq_runCommand, runCommand_eq hw])
  exact key.mono (by simp only [commandSteps, resetBound, slotBound, Nat.mul_succ]; omega)

end Sys2Proof.Machine
end


section
/-! PROOFS. Reset and hazards (70_reset_and_hazards.md): the reset values and the invariant they meet (R200 to R202),
the latched DATA of TM.REC (R208), the time bound of a command (R213), and the hidden fields over a run (R201). -/

namespace Sys2Proof.Machine

/-! ## Hidden fields over a run, R41 and R201 -/

theorem State.agrees.symm {s t : State} (h : s.agrees t) : t.agrees s := by
  obtain ⟨hphase, hrest⟩ := h
  exact ⟨hphase.symm, by rw [← hrest]; rfl⟩

/-- What is alike to a next state is a next state, and agrees with it. -/
theorem Alike.exists_next {t : State} {o : Host.Outcome State Fault Refusal} (h : Alike (.next t) o) :
    ∃ t', o = .next t' ∧ t'.agrees t := by
  cases h with
  | next h => exact ⟨_, rfl, h.1.symm⟩

/-- Every run takes twins to twins, or stops them alike. -/
theorem runSteps_alike (n : Nat) {s t : State} (h : Twins s t) : Alike (runSteps n s) (runSteps n t) := by
  induction n generalizing s t with
  | zero => exact .next h
  | succ n ih =>
    have hstep := step_alike h
    rw [runSteps, runSteps]
    generalize step s = o, step t = o' at hstep ⊢
    cases hstep with
    | next h' => exact ih h'
    | fault f => exact .fault f
    | refused r => exact .refused r

/-- An idle block has initialised no hidden field, and an accepted command only its word and its latched DATA. -/
theorem twins_withHidden {s : State} {q : Sequencer} (τ : Micros) (hq : q.phase = s.seq.phase)
    (h : s.seq.phase = .idle ∨ (s.seq.phase = .dispatch ∧ q.cmd = s.seq.cmd ∧ q.sample = s.seq.sample)) :
    Twins s (s.withHidden q τ) := by
  refine ⟨⟨hq.symm, rfl⟩, ?_⟩
  rcases h with hidle | ⟨hdispatch, hcmd, hsample⟩
  · simp [SameLive, hidle]
  · simp [SameLive, hdispatch, State.withHidden, hcmd, hsample]

/-- Settles O59: commands and runs from states that differ only in what is not initialised stay alike. -/
theorem hiddenFieldsAreNeverRead : Obligations.HiddenFieldsAreNeverRead := by
  refine ⟨fun i s q τ t hexec => ?_, fun n s q τ t hq hphase hrun => ?_⟩
  · exact (hexec ▸ exec_alike i s q τ).exists_next
  · exact (hrun ▸ runSteps_alike n (twins_withHidden τ hq hphase)).exists_next

/-! ## The time of a command, R212 and R213 -/

theorem Bus.acts.traceTime_le {b c : Bus} {m : Nat} (h : b.acts c m) : traceTime c.trace ≤ traceTime b.trace + m := by
  obtain ⟨n, t, rfl, -, ht⟩ := h
  simpa using ht

/-- A command that completes adds no Wait, or Waits within the bound of R213. -/
theorem exec_traceTime_le {i : Instr} {s t : State} (h : exec i s = .next t) :
    traceTime t.bus.trace ≤ traceTime s.bus.trace + (resetBound s.params + 72 * slotBound s.params) := by
  obtain ⟨-, u, o, -, hbus, rfl⟩ := exec_ends h
  rw [complete_bus]
  rcases hbus with ⟨hsame, -⟩ | hacts
  · rw [hsame]; exact Nat.le_add_right _ _
  · exact hacts.traceTime_le

/-- Settles O41: RST_OK is the longer of the two resets that R213 compares. -/
theorem commandTimeIsBounded : Obligations.CommandTimeIsBounded := fun _ _ _ h =>
  (exec_traceTime_le h).trans (Nat.add_le_add_left (Nat.add_le_add_right (le_max_left _ _) _) _)

/-! ## The latched DATA of TM.REC, R174 and R208 -/

theorem runSteps_succ {n : Nat} {s t : State} (h : step s = .next t) : runSteps (n + 1) s = runSteps n t := by
  rw [runSteps, h]

/-- A CMD write to an idle block of the cycle-level model is accepted (R174). -/
theorem step_cmdWrite_cycle {s : State} {v : Word} {rest : List Event} (hw : s.params.WellFormed)
    (hr : s.rst = false) (hb : s.status.busy = false) (hg : s.grain = .cycle) (hp : s.pending = .write 0 v :: rest) :
    step s = .next (accept (v.setWidth 16) { s with pending := rest }) := by
  rw [step_write hw hr hp]
  simp [writeRegister, onCmdWrite, hb, hg]

/-- Out of reset a write to DATA is stored, whatever the block is doing (R23). -/
theorem step_dataWrite {s : State} {v : Word} {rest : List Event} (hw : s.params.WellFormed)
    (hr : s.rst = false) (hp : s.pending = .write 1 v :: rest) : step s = .next { s with data := v, pending := rest } :=
  step_write hw hr hp

/-- Time that passes after acceptance is the dispatch. -/
theorem step_elapse_dispatch {s : State} {rest : List Event} (hw : s.params.WellFormed) (hr : s.rst = false)
    (hd : s.seq.phase = .dispatch) (hp : s.pending = .elapse :: rest) :
    step s = dispatch { s with pending := rest } := by
  rw [step_event hw hp]
  simp [perform, elapse_eq, hr, hd, Phase.waits, advance]

/-- TM.REC ends at its dispatch, with the sample latched at acceptance (R153, R212). -/
theorem dispatch_tmRec {s : State} (hd : decode s.seq.cmd = .ok .tmRec) : dispatch s = finish (tmRecEffect s) := by
  rw [dispatch, hd]

/-- An accepted TM.REC records its latched sample, whatever the host writes to DATA before the dispatch. -/
theorem accepted_tmRec_ignores_dataWrite {s : State} {w : Word} (hw : s.params.WellFormed) (hr : s.rst = false)
    (hphase : s.seq.phase = .dispatch) (hd : decode s.seq.cmd = .ok .tmRec) (hp : s.pending = [.write 1 w, .elapse]) :
    ∃ t, runSteps 2 s = .next t ∧ t.slots = s.slots.set s.cursor.toNat (some s.seq.sample) ∧ t.data = w ∧
      t.status.busy = false ∧ t.status.done = true ∧ t.status.err = 0x0#4 := by
  have hend := (step_elapse_dispatch (s := { s with data := w, pending := [.elapse] }) hw hr hphase rfl).trans
    (dispatch_tmRec hd)
  exact ⟨_, (runSteps_succ (step_dataWrite hw hr hp)).trans (runSteps_succ hend), rfl, rfl, rfl, rfl, rfl⟩

/-- Settles O24: the CMD write is accepted with the DATA from before, and TM.REC records that. -/
theorem recordTakesTheLatchedData : Obligations.RecordTakesTheLatchedData := by
  intro s v w hw hr hb hg hv hp
  have hd : decode (v.setWidth 16) = .ok .tmRec := by rw [hv]; exact decode_encode .tmRec
  rw [runSteps_succ (step_cmdWrite_cycle hw hr hb hg hp)]
  exact accepted_tmRec_ignores_dataWrite hw hr rfl hd rfl

/-! ## The reset values, R200 to R202 -/

theorem statusWord_reset : Status.reset.word = 0#64 := by decide

/-- Settles O2: every register of `State.resetWith` has its value by definition, and a reset only adds to the trace. -/
theorem resetGivesTheResetValues : Obligations.ResetGivesTheResetValues := by
  rintro p _ rfl
  refine ⟨rfl, rfl, statusWord_reset, rfl, rfl, rfl, rfl, rfl, List.length_replicate, fun i hi => ?_, rfl, rfl, rfl,
    fun u => ?_⟩
  · simp [State.resetWith, hi]
  · exact ⟨_, (resetBus_trace u.bus).symm⟩

/-- Driving `rst` high, or low while it is asserted, resets the block. -/
theorem driveRst_resets {level : Bool} {s : State} (h : level = true ∨ s.rst = true) :
    driveRst level s = { hardReset s with rst := level } :=
  if_pos (by simpa using h)

/-- Driving a deasserted `rst` low changes nothing. -/
theorem driveRst_deasserted {s : State} (h : s.rst = false) : driveRst false s = s := by
  simp [driveRst, h]

/-- Settles O3: the step is `driveRst`, which resets the block or leaves it alone. -/
theorem hardwareResetAbortsTheCommand : Obligations.HardwareResetAbortsTheCommand := by
  intro s level rest hw hp
  have hstep : step s = .next (driveRst level { s with pending := rest }) := step_event hw hp
  constructor
  · intro hreset
    rw [driveRst_resets (by exact hreset)] at hstep
    exact ⟨_, hstep, rfl, rfl, rfl, rfl, statusWord_reset, rfl, rfl, rfl, rfl, resetBus_lineDrv _, rfl,
      resetBus_trace _, resetBus_env _, rfl, rfl⟩
  · rintro rfl hr
    rw [hstep, driveRst_deasserted (by exact hr)]

/-- Time passes a block held in reset by. -/
theorem elapse_held {s : State} (h : s.rst = true) : elapse s = .next s := if_pos h

/-- Settles O4: both `elapse` and a host write look at `rst` first. -/
theorem heldResetDoesNothing : Obligations.HeldResetDoesNothing := by
  intro s rest hw hr
  refine ⟨fun hp => ?_, fun hp => ?_, fun i v hp => ?_⟩
  · rw [step_eq_serve hw, serve, hp]
    exact elapse_held hr
  · rw [step_event hw hp]
    exact elapse_held hr
  · rw [step_event hw hp]
    exact if_pos hr

/-- Settles O53: the history is empty and has a slot (R13), every flag is 0, and the line is released. -/
theorem resetMeetsTheInvariant : Obligations.ResetMeetsTheInvariant := by
  intro p hw
  obtain ⟨-, -, -, -, hN⟩ := p.wellFormed_iff.1 hw
  exact {
    build := hw
    slotCount := List.length_replicate
    fillBound := Nat.zero_le _
    cursorBound := hN
    cursorFill := fun _ => rfl
    written := fun i hi => absurd hi (Nat.not_lt_zero i)
    unwritten := fun i _ hi => by simp only [State.resetWith] at hi ⊢; simp [hi]
    ready := by
      have h0 : 0#16 ≠ p.histN := by rintro h0; simp [← h0] at hN
      exact (beq_eq_false_iff_ne.2 h0).symm
    romValid := nofun
    romZero := fun _ => rfl
    causeZero := fun _ => rfl
    causeCode := nofun
    errCode := .inl (by simp [State.resetWith, Status.reset])
    busyPhase := rfl
    busyDone := nofun
    lineLow := rfl
    traceLine := rfl
    held := nofun
    sequence := trivial }

end Sys2Proof.Machine
end
